-- ==== Sys2Proof/Word.lean ====
section
/-! DEFINITION. The word types of the codec: one bit, one channel or buffer byte, one command word
(00_scope R11, R12; 30_encoding R90). All values are unsigned. -/

namespace Sys2Proof

/-- An element of a bit sequence, `0` or `1` (R12): `false` is `0`, `true` is `1`. -/
abbrev Bit := Bool

/-- A colour component or an element of `BYTEBUF`, `0..255` (R12, R62, R99). -/
abbrev Byte := BitVec 8

/-- The 16-bit command word the host writes to `CMD` (R90). -/
abbrev CmdWord := BitVec 16

end Sys2Proof
end

