-- ==== Sys2Proof/Syntax.lean ====
section
/-! DEFINITION. The commands of the codec: one constructor of `Instr` per row of
spec/opcode_table.json (30_encoding R92). -/

namespace Sys2Proof

/-- The traversal order a command word selects (R93). -/
inductive Direction where
  | horizontal
  | vertical
  | diagonal
deriving DecidableEq, Repr

/-- The operation field of a command word: the rows of the opcode map that are not reserved (R92). -/
inductive Op where
  | bytes2bits
  | text2bits
  | bits2bytes
  | bits2text
  | setlsb
  | getlsb
  | addr
  | cap
  | embed
  | extract
  | extractn
deriving DecidableEq, Repr

/-- The commands, one per row of the opcode table. `pos` is the field `POS` of `SETLSB` and `GETLSB`
(R95); its other operands are registers (R94). -/
inductive Instr where
  | bytes2bits
  | text2bits
  | bits2bytes
  | bits2text
  | setlsb (pos : Nat)
  | getlsb (pos : Nat)
  | addrH
  | addrV
  | addrD
  | capH
  | capV
  | capD
  | embedH
  | embedV
  | embedD
  | extractH
  | extractV
  | extractD
  | extractnH
  | extractnV
  | extractnD
deriving DecidableEq, Repr

end Sys2Proof
end

