-- ==== Sys2Proof/WellFormed.lean ====
section
/-! DEFINITION. Which terms of `Instr` are instructions: those a command word can encode
(30_encoding R91, R95: `POS` has three bits). -/

namespace Sys2Proof

/-- A term is well formed when its fields fit the command word: `POS` is a 3-bit field (R91). Every
value of `POS` is encodable; only `0` executes (R95). -/
def Instr.wellFormed : Instr → Bool
  | .bytes2bits => true
  | .text2bits => true
  | .bits2bytes => true
  | .bits2text => true
  | .setlsb pos => decide (pos < 8)
  | .getlsb pos => decide (pos < 8)
  | .addrH => true
  | .addrV => true
  | .addrD => true
  | .capH => true
  | .capV => true
  | .capD => true
  | .embedH => true
  | .embedV => true
  | .embedD => true
  | .extractH => true
  | .extractV => true
  | .extractD => true
  | .extractnH => true
  | .extractnV => true
  | .extractnD => true

end Sys2Proof
end

