-- ==== Sys2Proof/Decode.lean ====
section
/-! DEFINITION. The decoder of command words, total on all 65536 of them and rejecting by name
(30_encoding R91, R92, R93, R97), and the encoder beside it. -/

namespace Sys2Proof

/-- Why a word is refused with `IllegalOperand`: tests 1 to 5 of R97, in their order. (Test 6, `POS`
of `SETLSB` and `GETLSB`, is made by those commands, which end with `InvalidPosition`: log entry 18.) -/
inductive DecodeError where
  /-- Test 1: `OP` is `0x0` or `0xC..0xF`. -/
  | reservedOp
  /-- Test 2: `FMT = 1` or `RSV ≠ 0`. -/
  | reservedBits
  /-- Test 3: `DIR ≠ 00` in a command that does not use it. -/
  | unusedDir
  /-- Test 4: `POS ≠ 000` in a command that does not use it. -/
  | unusedPos
  /-- Test 5: `DIR = 11` in a command that uses it. -/
  | reservedDir
deriving DecidableEq, Repr

/-- What the decoder answers. -/
inductive DecodeResult where
  | instr (i : Instr)
  | bad (e : DecodeError)
deriving DecidableEq, Repr

/-- `OP`, bits 15:12 (R91). -/
def fieldOp (w : CmdWord) : BitVec 4 := w.extractLsb' 12 4

/-- `DIR`, bits 11:10 (R91). -/
def fieldDir (w : CmdWord) : BitVec 2 := w.extractLsb' 10 2

/-- `FMT`, bit 9 (R91). -/
def fieldFmt (w : CmdWord) : BitVec 1 := w.extractLsb' 9 1

/-- `RSV`, bits 8:3 (R91). -/
def fieldRsv (w : CmdWord) : BitVec 6 := w.extractLsb' 3 6

/-- `POS`, bits 2:0 (R91). -/
def fieldPos (w : CmdWord) : BitVec 3 := w.extractLsb' 0 3

/-- The opcode map, R92; `none` for the reserved codes `0x0` and `0xC..0xF`. -/
def opOfCode (c : BitVec 4) : Option Op :=
  match c.toNat with
  | 0x1 => some .bytes2bits
  | 0x2 => some .text2bits
  | 0x3 => some .bits2bytes
  | 0x4 => some .bits2text
  | 0x5 => some .setlsb
  | 0x6 => some .getlsb
  | 0x7 => some .addr
  | 0x8 => some .cap
  | 0x9 => some .embed
  | 0xA => some .extract
  | 0xB => some .extractn
  | _ => none

/-- The direction codes, R93; `none` for the reserved code `11`. -/
def directionOfCode (c : BitVec 2) : Option Direction :=
  match c.toNat with
  | 0 => some .horizontal
  | 1 => some .vertical
  | 2 => some .diagonal
  | _ => none

/-- Which operations use the field `DIR` (R91, R92). -/
def opUsesDir : Op → Bool
  | .addr => true
  | .cap => true
  | .embed => true
  | .extract => true
  | .extractn => true
  | .bytes2bits => false
  | .text2bits => false
  | .bits2bytes => false
  | .bits2text => false
  | .setlsb => false
  | .getlsb => false

/-- Which operations use the field `POS` (R91, R95). -/
def opUsesPos : Op → Bool
  | .setlsb => true
  | .getlsb => true
  | .bytes2bits => false
  | .text2bits => false
  | .bits2bytes => false
  | .bits2text => false
  | .addr => false
  | .cap => false
  | .embed => false
  | .extract => false
  | .extractn => false

/-- One of three, by direction. -/
def byDirection (h v d : Instr) : Direction → Instr
  | .horizontal => h
  | .vertical => v
  | .diagonal => d

/-- The command an operation and its fields name, once the field tests have passed (R92). -/
def instrOf (op : Op) (dir : Direction) (pos : Nat) : Instr :=
  match op with
  | .bytes2bits => .bytes2bits
  | .text2bits => .text2bits
  | .bits2bytes => .bits2bytes
  | .bits2text => .bits2text
  | .setlsb => .setlsb pos
  | .getlsb => .getlsb pos
  | .addr => byDirection .addrH .addrV .addrD dir
  | .cap => byDirection .capH .capV .capD dir
  | .embed => byDirection .embedH .embedV .embedD dir
  | .extract => byDirection .extractH .extractV .extractD dir
  | .extractn => byDirection .extractnH .extractnV .extractnD dir

/-- The decoder: the tests of R97 in their order; the first that fails decides. -/
def decode (w : CmdWord) : DecodeResult :=
  match opOfCode (fieldOp w) with
  | none => .bad .reservedOp
  | some op =>
    if fieldFmt w ≠ 0 ∨ fieldRsv w ≠ 0 then .bad .reservedBits
    else if opUsesDir op = false ∧ fieldDir w ≠ 0 then .bad .unusedDir
    else if opUsesPos op = false ∧ fieldPos w ≠ 0 then .bad .unusedPos
    else
      match directionOfCode (fieldDir w) with
      | none => .bad .reservedDir
      | some dir => .instr (instrOf op dir (fieldPos w).toNat)

/-- The command word made of its fields, `FMT` and `RSV` zero (R91). -/
def wordOfFields (op : BitVec 4) (dir : BitVec 2) (pos : BitVec 3) : CmdWord :=
  op ++ dir ++ 0#1 ++ 0#6 ++ pos

/-- The code of an operation (R92). -/
def codeOfOp : Op → BitVec 4
  | .bytes2bits => 0x1
  | .text2bits => 0x2
  | .bits2bytes => 0x3
  | .bits2text => 0x4
  | .setlsb => 0x5
  | .getlsb => 0x6
  | .addr => 0x7
  | .cap => 0x8
  | .embed => 0x9
  | .extract => 0xA
  | .extractn => 0xB

/-- The code of a direction (R93). -/
def codeOfDirection : Direction → BitVec 2
  | .horizontal => 0b00
  | .vertical => 0b01
  | .diagonal => 0b10

/-- The word of a command without a direction and without `POS`. -/
def plainWord (op : Op) : CmdWord := wordOfFields (codeOfOp op) 0 0

/-- The word of a command with a direction. -/
def directedWord (op : Op) (d : Direction) : CmdWord :=
  wordOfFields (codeOfOp op) (codeOfDirection d) 0

/-- The word of `SETLSB` or `GETLSB` with the position `pos`. -/
def positionedWord (op : Op) (pos : Nat) : CmdWord :=
  wordOfFields (codeOfOp op) 0 (BitVec.ofNat 3 pos)

/-- The encoder: the word of a well-formed command, from the fields of R91 to R93 and R95. -/
def encode : Instr → CmdWord
  | .bytes2bits => plainWord .bytes2bits
  | .text2bits => plainWord .text2bits
  | .bits2bytes => plainWord .bits2bytes
  | .bits2text => plainWord .bits2text
  | .setlsb pos => positionedWord .setlsb pos
  | .getlsb pos => positionedWord .getlsb pos
  | .addrH => directedWord .addr .horizontal
  | .addrV => directedWord .addr .vertical
  | .addrD => directedWord .addr .diagonal
  | .capH => directedWord .cap .horizontal
  | .capV => directedWord .cap .vertical
  | .capD => directedWord .cap .diagonal
  | .embedH => directedWord .embed .horizontal
  | .embedV => directedWord .embed .vertical
  | .embedD => directedWord .embed .diagonal
  | .extractH => directedWord .extract .horizontal
  | .extractV => directedWord .extract .vertical
  | .extractD => directedWord .extract .diagonal
  | .extractnH => directedWord .extractn .horizontal
  | .extractnV => directedWord .extractn .vertical
  | .extractnD => directedWord .extractn .diagonal

/-- The instruction a decoder's answer names, if it names one. -/
def instrOfResult : DecodeResult → Option Instr
  | .instr i => some i
  | .bad _ => none

/-- The word the host port carries for an instruction whose low `nbits` bits are `w`: a command is one
16-bit word (R90), bits above `nbits` are 0. -/
def tableWord (nbits w : Nat) : CmdWord := BitVec.ofNat 16 (w % 2 ^ nbits)

/-- What the decoder reads from an opcode-table word. -/
def decodeTableWord (nbits w : Nat) : Option Instr := instrOfResult (decode (tableWord nbits w))

end Sys2Proof
end

