-- ==== Sys2Proof/Config.lean ====
section
/-! DEFINITION. What an implementation fixes (00_scope R10) and the FREE VALUES: the values the spec
leaves to "any value" (93_implementation_defined U11, U16, U17). A free value is an opaque constant:
nothing in Lean can evaluate it, so a statement about it holds whatever it is. -/

namespace Sys2Proof.Config

/-- The spec's default of the open parameter `DIM_BITS` (92 D3). DESIGN CHOICE: only `State.reset` uses
it; every other definition takes `DIM_BITS` from the state (log entry 1). -/
def defaultDimBits : Nat := 16

/-- `OFFSET_BITS = 2 × DIM_BITS` (R10). -/
def offsetBits (dimBits : Nat) : Nat := 2 * dimBits

/-- FREE VALUE (U11, R64, R261; log entry 6): the bit `BITBUF[i]` that nothing has written since the
buffer's unlisted elements became unspecified, at the moment `stamp`. -/
opaque unspecifiedBit (stamp i : Nat) : Bit

/-- FREE VALUE (U11, R64, R261; log entry 6): the byte `BYTEBUF[j]` that nothing has written. -/
opaque unspecifiedByte (stamp j : Nat) : Byte

/-- FREE VALUE (U17; log entry 7): the byte `IMG[x][y][c]` inside the image that nothing has written
since the image was attached. -/
opaque unwrittenChannel (stamp x y c : Nat) : Byte

/-- FREE VALUE (U16; log entry 8): what a read at a coordinate outside the true image returns. It
depends on the counter `count`, which advances at every command and every host read, so that two
commands need not read the same value. -/
opaque outsideChannel (count x y c : Nat) : Byte

end Sys2Proof.Config
end

