-- ==== Sys2Proof/Machine/State.lean ====
section
/-! DEFINITION. The state of the codec as plain data (10_state R20 to R47, 20_memory R60 to R64), the
reasons a step can stop, and the state after reset (70_reset R260, R261). -/

namespace Sys2Proof.Machine

/-- A sparse store: pairs of a key and a value, keys strictly rising. An unlisted key has NO value; what
a read of it gives is said by the reader of each space (`Buffer` and `Image` reads in Ops.lean). -/
abbrev Memory (α : Type) := List (Nat × α)

/-- `BITBUF` and `BYTEBUF` (R61, R62): the elements known to hold a value, by index. An element that is
not listed is unspecified (R64, R261): its value is free and is named by `stamp`, the moment at which the
unlisted elements last became unspecified (log entry 6). -/
structure Buffer (α : Type) where
  stamp : Nat
  cells : Memory α
deriving DecidableEq, Repr

/-- The external image memory `IMG` (R60): its true shape (R272) and the channel bytes known to hold a
value. The key of a byte is the model's own (`imageKey`, log entry 9); every access goes by `(x, y, c)`. -/
structure Image where
  width : Nat
  height : Nat
  stamp : Nat
  cells : List Host.Cell
deriving DecidableEq, Repr

/-- A pixel, the 3-tuple `(R, G, B)` (R99). -/
structure Pixel where
  r : Byte
  g : Byte
  b : Byte
deriving DecidableEq, Repr

/-- Where the sequencer is within a command (R41). -/
inductive Phase where
  | idle
  | check
  | run
  | finish
deriving DecidableEq, Repr

/-- A statement of the host (30_encoding R101, 20_memory R79, 70_reset R260). -/
inductive HostOp where
  /-- `wr REG, v`: write `v` to the register with this index (R21). A write of index `0x0`, `CMD`, starts
  a command: `cmd MNEMONIC`. -/
  | writeReg (idx : BitVec 4) (v : Nat)
  /-- `rd REG`: read the register with this index. -/
  | readReg (idx : BitVec 4)
  /-- Write one element of `BITBUF`. -/
  | writeBit (i : Nat) (b : Bit)
  /-- Read one element of `BITBUF`. -/
  | readBit (i : Nat)
  /-- Write one element of `BYTEBUF`. -/
  | writeByte (j : Nat) (v : Byte)
  /-- Read one element of `BYTEBUF`. -/
  | readByte (j : Nat)
  /-- Write one pixel of `IMG`. -/
  | writePixel (x y : Nat) (p : Pixel)
  /-- Read one pixel of `IMG`. -/
  | readPixel (x y : Nat)
  /-- `ld BITBUF, "0101..."`: the bits to `BITBUF[0..]`, their count to `BITLEN`. -/
  | loadBits (bits : List Bit)
  /-- `ld BYTEBUF, [b0, b1, ...]`: the bytes to `BYTEBUF[0..]`, their count to `BYTELEN`. -/
  | loadBytes (bytes : List Byte)
  /-- `ld IMG, W x H, ...`: attach an image of this shape and set `IMG_W`, `IMG_H`. The channel bytes are
  listed row by row from `y = 0`, each row from `x = 0`, `R`, `G`, `B` per pixel; bytes the list does not
  give are unspecified (log entry 17). -/
  | loadImage (width height : Nat) (bytes : List Byte)
  /-- The reset input (R260 to R262). -/
  | reset
deriving DecidableEq, Repr

/-- Why a step stops with a fault. Neither is raised by a command: both need `BUSY = 1`, which no run
from reset reaches (R29). -/
inductive Fault where
  /-- Raised by the step when a host statement is pending while `BUSY = 1`. The spec calls it stuck, not
  a move of the model (93_implementation_defined U13, R270). Safe. -/
  | hostAccessWhileBusy
  /-- Raised by the step when the reset input is pending while `BUSY = 1`. The spec calls it stuck (93
  U12, R262). Safe. -/
  | resetWhileBusy
deriving DecidableEq, Repr

/-- Why an instruction is refused. -/
inductive Refusal where
  /-- Raised by `exec` for an instruction without a meaning; no arm of `exec` raises it. Safe. -/
  | notModelled (mnemonic : String)
deriving DecidableEq, Repr

/-- The machine. Registers whose width is a multiple of the open parameter `DIM_BITS` are naturals whose
range is part of the invariant `Safety.Inv` (R10 allows it; log entry 2); registers of fixed width are bit
vectors. -/
structure State where
  /-- The parameter `DIM_BITS`, an argument of the model (R10): no step changes it (log entry 1). -/
  dimBits : Nat
  /-- `CMD`, index 0x0 (R22). -/
  cmd : CmdWord
  /-- `STATUS`, index 0x1 (R28). -/
  status : BitVec 8
  /-- `ERRCODE`, index 0x2 (R33). -/
  errcode : BitVec 8
  /-- `ERRINFO`, index 0x3, `OFFSET_BITS` wide (R34). -/
  errinfo : Nat
  /-- `IMG_W`, index 0x4, `DIM_BITS` wide (R23). -/
  imgW : Nat
  /-- `IMG_H`, index 0x5, `DIM_BITS` wide (R23). -/
  imgH : Nat
  /-- `KREG`, index 0x6 (R24). -/
  kreg : BitVec 8
  /-- `NWIN`, index 0x7, `OFFSET_BITS` wide (R25). -/
  nwin : Nat
  /-- `BITLEN`, index 0x8, `OFFSET_BITS` wide (R26). -/
  bitlen : Nat
  /-- `BYTELEN`, index 0x9, `OFFSET_BITS` wide (R27). -/
  bytelen : Nat
  /-- `ARG0`, index 0xA, `OFFSET_BITS` wide (R35). -/
  arg0 : Nat
  /-- `ARG1`, index 0xB, `OFFSET_BITS` wide (R35). -/
  arg1 : Nat
  /-- `RES0`, index 0xC, `OFFSET_BITS` wide (R36). -/
  res0 : Nat
  /-- `RES1`, index 0xD, `OFFSET_BITS` wide (R36). -/
  res1 : Nat
  /-- `RES2`, index 0xE, `OFFSET_BITS` wide (R36). -/
  res2 : Nat
  /-- `BITBUF` (R61). -/
  bitBuf : Buffer Bit
  /-- `BYTEBUF` (R62). -/
  byteBuf : Buffer Byte
  /-- `IMG` (R60). -/
  img : Image
  /-- `OFFS`, the bit offset, this hardware's program counter (R40). -/
  offs : Nat
  /-- `PHASE` (R41). -/
  phase : Phase
  /-- `RUNLEN` (R42). -/
  runLen : Nat
  /-- `RUNVAL` (R43). -/
  runVal : Bit
  /-- `CURX` (R44). -/
  curX : Nat
  /-- `CURY` (R44). -/
  curY : Nat
  /-- `CURC` (R44). -/
  curC : BitVec 2
  /-- `PIX` (R44). -/
  pix : Pixel
  /-- The MODEL's field: the host's statements not yet made, the next first (R101, R241; log entry 3). -/
  script : List HostOp
  /-- The MODEL's field: the values the host's last read returned (R101; log entry 4). -/
  rdata : List Nat
  /-- The MODEL's field: the counter that indexes the free values (log entry 5). -/
  freeCount : Nat
deriving DecidableEq, Repr

/-- The machine after reset: every register `0`, `PHASE = IDLE`, buffer contents unspecified (R260,
R261). No image is attached and no host statement is pending (log entries 3 and 7). -/
def State.reset : State where
  dimBits := Config.defaultDimBits
  cmd := 0
  status := 0
  errcode := 0
  errinfo := 0
  imgW := 0
  imgH := 0
  kreg := 0
  nwin := 0
  bitlen := 0
  bytelen := 0
  arg0 := 0
  arg1 := 0
  res0 := 0
  res1 := 0
  res2 := 0
  bitBuf := { stamp := 0, cells := [] }
  byteBuf := { stamp := 0, cells := [] }
  img := { width := 0, height := 0, stamp := 0, cells := [] }
  offs := 0
  phase := .idle
  runLen := 0
  runVal := false
  curX := 0
  curY := 0
  curC := 0
  pix := { r := 0, g := 0, b := 0 }
  script := []
  rdata := []
  freeCount := 0

end Sys2Proof.Machine
end

