-- ==== Sys2Proof/Machine/Flags.lean ====
section
/-! DEFINITION. The flags of `STATUS` (10_state R28 to R32) and the error codes (60_exceptions R220). -/

namespace Sys2Proof.Machine

/-- The `STATUS` word with these flags; bits 7:5 read `0` (R28). -/
def statusWord (busy done err empty term : Bool) : BitVec 8 :=
  0#3 ++ BitVec.ofBool term ++ BitVec.ofBool empty ++ BitVec.ofBool err ++ BitVec.ofBool done
    ++ BitVec.ofBool busy

/-- `BUSY`, bit 0 (R28, R29). -/
def State.busy (s : State) : Bool := s.status.getLsbD 0

/-- `DONE`, bit 1 (R28, R30). -/
def State.done (s : State) : Bool := s.status.getLsbD 1

/-- `ERR`, bit 2 (R28, R30). -/
def State.err (s : State) : Bool := s.status.getLsbD 2

/-- `EMPTY`, bit 3 (R28, R31). -/
def State.empty (s : State) : Bool := s.status.getLsbD 3

/-- `TERM`, bit 4 (R28, R32). -/
def State.term (s : State) : Bool := s.status.getLsbD 4

/-- The error kinds a command can end with (R220). -/
inductive ErrorKind where
  | shapeMismatch
  | capacityExceeded
  | invalidBit
  | invalidPosition
  | illegalOperand
deriving DecidableEq, Repr

/-- The code `ERRCODE` takes (R220). -/
def codeOfError : ErrorKind → BitVec 8
  | .shapeMismatch => 1
  | .capacityExceeded => 2
  | .invalidBit => 3
  | .invalidPosition => 4
  | .illegalOperand => 5

/-- What `ERRINFO` takes when a command ends with this error: the reported capacity for
`CapacityExceeded`, `0` for every other kind (R34, R220). -/
def errorInfo (e : ErrorKind) (info : Nat) : Nat :=
  match e with
  | .capacityExceeded => info
  | .shapeMismatch => 0
  | .invalidBit => 0
  | .invalidPosition => 0
  | .illegalOperand => 0

end Sys2Proof.Machine
end

