-- ==== Sys2Proof/Machine/Operands.lean ====
section
/-! DEFINITION. The pure functions of the sub-blocks, over their operands only: bits of a byte
(40 R120), the LSB pair (41 R140), the mapping and the capacity (42 R151 to R154), and the predicates
commands test. -/

namespace Sys2Proof.Machine

/-- `ceil8(n) = (n + 7) div 8` (R13). -/
def ceil8 (n : Nat) : Nat := (n + 7) / 8

/-- `floor8(n) = n div 8` (R13). -/
def floor8 (n : Nat) : Nat := n / 8

/-- `bit(v, k) = v[7 - k]`, the `k`-th bit of a byte in sequence order, MSB first (R120). -/
def bitOfByte (v : Byte) (k : Nat) : Bit := v.getLsbD (7 - k)

/-- The eight bits of a byte, MSB first (R120). -/
def bitsOfByte (v : Byte) : List Bit := (List.range 8).map (bitOfByte v)

/-- The bit sequence of a byte sequence, bytes in input order (R98, R121). -/
def bitsOfBytes (bytes : List Byte) : List Bit := bytes.flatMap bitsOfByte

/-- `byte(b0, ..., b7) = b0 × 128 + ... + b7` (R120), as a number. -/
def byteValue (b0 b1 b2 b3 b4 b5 b6 b7 : Bit) : Nat :=
  b0.toNat * 128 + b1.toNat * 64 + b2.toNat * 32 + b3.toNat * 16 + b4.toNat * 8 + b5.toNat * 4
    + b6.toNat * 2 + b7.toNat

/-- Byte `j` of the bit sequence `bits`: `byte(S[8j], ..., S[8j+7])`. An element past the end of
`bits` is the constant `0` the converter pads with (R98, R123). -/
def byteAt (bits : List Bit) (j : Nat) : Byte :=
  let b k := bits.getD (8 * j + k) false
  BitVec.ofNat 8 (byteValue (b 0) (b 1) (b 2) (b 3) (b 4) (b 5) (b 6) (b 7))

/-- The first `m` bytes of the bit sequence `bits`, the missing bits `0`: `m = ceil8` pads (R123),
`m = floor8` drops the ragged tail (R124). -/
def bytesOfBits (m : Nat) (bits : List Bit) : List Byte := (List.range m).map (byteAt bits)

/-- `setLsb(v, b) = (v[7:1] << 1) | b` (R140). -/
def setLsb (v : Byte) (b : Bit) : Byte := v.extractLsb' 1 7 ++ BitVec.ofBool b

/-- `getLsb(v) = v[0]` (R140). -/
def getLsb (v : Byte) : Bit := v.getLsbD 0

/-- A pixel address: column, row, channel (R15). -/
structure PixelAddr where
  x : Nat
  y : Nat
  c : Nat
deriving DecidableEq, Repr

/-- `Addr(d, i, W, H)` (R151, R152, R153, R155). Evaluated only for `i < Cap(d, W, H)` (R156). -/
def addr (d : Direction) (i w h : Nat) : PixelAddr :=
  match d with
  | .horizontal => { x := i % w, y := i / w, c := i % 3 }
  | .vertical => { x := i / h, y := i % h, c := i % 3 }
  | .diagonal => { x := i, y := i, c := i % 3 }

/-- `Cap(d, W, H)`, in bits (R154). -/
def cap (d : Direction) (w h : Nat) : Nat :=
  match d with
  | .horizontal => w * h
  | .vertical => w * h
  | .diagonal => min w h

/-- Whether a sequenced command in this direction must end with `ShapeMismatch` (R171, R191, R221). -/
def shapeMismatch (d : Direction) (w h : Nat) : Bool :=
  match d with
  | .horizontal => false
  | .vertical => false
  | .diagonal => w != h

/-- Channel `c` of a pixel: `0` is `R`, `1` is `G`, `2` is `B` (R15, R99). -/
def channelOf (p : Pixel) (c : Nat) : Byte :=
  match c with
  | 0 => p.r
  | 1 => p.g
  | _ => p.b

/-- The pixel with channel `c` replaced (R14, `p.c`). -/
def withChannel (p : Pixel) (c : Nat) (v : Byte) : Pixel :=
  match c with
  | 0 => { p with r := v }
  | 1 => { p with g := v }
  | _ => { p with b := v }

/-- `8 × (K + 1)`, the smallest count at which a trigger can occur (R194 a). -/
def minTrigger (k : BitVec 8) : Nat := 8 * (k.toNat + 1)

/-- `8 × K`, the length of the window that must be all equal and is discarded (R194 b, R199). -/
def windowLen (k : BitVec 8) : Nat := 8 * k.toNat

/-- The trigger in its run-length form: at least `8 × (K + 1)` bits read and a run of at least `8 × K`
ending at the last one (R193, R195). -/
def triggered (k : BitVec 8) (offs runLen : Nat) : Bool :=
  decide (minTrigger k ≤ offs) && decide (windowLen k ≤ runLen)

/-- `RUNLEN` after the bit `b` (R42, R193). -/
def nextRunLen (runLen : Nat) (runVal b : Bit) : Nat :=
  if 0 < runLen ∧ b = runVal then runLen + 1 else 1

/-- `BITLEN` at the end of an `EXTRACT`: nothing if the triggering run starts at offset 0 (R198), all but
the window at another trigger (R199), all bits read without one (R196, R197); in the form of R193. -/
def extractedLen (k : BitVec 8) (trig : Bool) (offs runLen : Nat) : Nat :=
  if trig then (if runLen = offs then 0 else offs - windowLen k) else offs

end Sys2Proof.Machine
end

