-- ==== Sys2Proof/Machine/Ops.lean ====
section
/-! DEFINITION. The operations every meaning is made of: the sparse store, the two buffers, the image,
the start of a command (10_state R45), its two ways to end (done, R30; in error, 60_exceptions R230), and
the loop of bit steps. -/

namespace Sys2Proof.Machine

/-! ## The sparse store -/

/-- The canonical form: keys strictly rising. An unlisted key has no value, so no entry can equal what an
unlisted key reads as, and equal stores are equal lists. -/
abbrev Memory.wf {α : Type} (m : Memory α) : Prop := m.Pairwise (fun p q => p.1 < q.1)

/-- The value at a key, if one is listed. -/
def Memory.get? {α : Type} : Memory α → Nat → Option α
  | [], _ => none
  | (k, v) :: m, a => if a = k then some v else Memory.get? m a

/-- The store with a value written at a key; keeps the canonical form. -/
def Memory.set {α : Type} : Memory α → Nat → α → Memory α
  | [], a, v => [(a, v)]
  | (k, w) :: m, a, v =>
    if a < k then (a, v) :: (k, w) :: m
    else if a = k then (a, v) :: m
    else (k, w) :: Memory.set m a v

/-- The store holding the elements of a list at `start`, `start + 1`, ... -/
def Memory.ofList {α : Type} : Nat → List α → Memory α
  | _, [] => []
  | start, v :: vs => (start, v) :: Memory.ofList (start + 1) vs

/-- The store with the entries at `n` and beyond taken out. -/
def Memory.cut {α : Type} (m : Memory α) (n : Nat) : Memory α := m.filter (fun p => decide (p.1 < n))

/-- The store with the elements of a list written at `start`, `start + 1`, ... -/
def Memory.setList {α : Type} : Memory α → Nat → List α → Memory α
  | m, _, [] => m
  | m, start, v :: vs => Memory.setList (Memory.set m start v) (start + 1) vs

/-! ## The buffers `BITBUF` and `BYTEBUF` -/

/-- `BITBUF[i]` (R61): the last value written, or a free value where none is specified (R64, R68). -/
def readBitBuf (b : Buffer Bit) (i : Nat) : Bit :=
  (Memory.get? b.cells i).getD (Config.unspecifiedBit b.stamp i)

/-- `BYTEBUF[j]` (R62). -/
def readByteBuf (b : Buffer Byte) (j : Nat) : Byte :=
  (Memory.get? b.cells j).getD (Config.unspecifiedByte b.stamp j)

/-- `BUF[i] <- v`. -/
def Buffer.write {α : Type} (b : Buffer α) (i : Nat) (v : α) : Buffer α :=
  { b with cells := Memory.set b.cells i v }

/-- The buffer after a command has produced the whole sequence `vs` in it: the elements at and beyond
the new length are unspecified, as of `stamp` (R64). -/
def Buffer.produced {α : Type} (stamp : Nat) (vs : List α) : Buffer α :=
  { stamp := stamp, cells := Memory.ofList 0 vs }

/-- The buffer cut to the length `n` of the sequence just produced in it; what lies beyond is
unspecified, as of `stamp` (R64: the discarded tail is not architecturally readable). -/
def Buffer.cut {α : Type} (b : Buffer α) (stamp n : Nat) : Buffer α :=
  { stamp := stamp, cells := Memory.cut b.cells n }

/-- `BITBUF[0..BITLEN)`, the current bit sequence (R26). -/
def State.bits (s : State) : List Bit := (List.range s.bitlen).map (readBitBuf s.bitBuf)

/-- `BYTEBUF[0..BYTELEN)`, the current byte sequence (R27). -/
def State.bytes (s : State) : List Byte := (List.range s.bytelen).map (readByteBuf s.byteBuf)

/-! ## The image -/

/-- Whether `(x, y)` is a pixel of the image that is really there (R67, R272). -/
def Image.has (img : Image) (x y : Nat) : Bool := decide (x < img.width) && decide (y < img.height)

/-- The key of the byte `IMG[x][y][c]` in the model's store. It is the model's own: the spec defines no
linear layout (R72, D5) and nothing but the two accessors below uses it (log entry 9). -/
def imageKey (img : Image) (x y c : Nat) : Nat := 3 * (y * img.width + x) + c

/-- `IMG[x][y][c]` (R60): the last value written; a free value where nothing was written (U17), and
outside the true image (U16), where `count` names the access. -/
def Image.readByte (img : Image) (count x y c : Nat) : Byte :=
  if img.has x y then
    (Memory.get? img.cells (imageKey img x y c)).getD (Config.unwrittenChannel img.stamp x y c)
  else Config.outsideChannel count x y c

/-- `PixRead(x, y)` (R66). -/
def Image.pixRead (img : Image) (count x y : Nat) : Pixel :=
  { r := img.readByte count x y 0, g := img.readByte count x y 1, b := img.readByte count x y 2 }

/-- `PixWrite(x, y, p)` (R66); outside the true image it goes nowhere (U16, log entry 8). -/
def Image.pixWrite (img : Image) (x y : Nat) (p : Pixel) : Image :=
  if img.has x y then
    { img with
      cells :=
        Memory.set
          (Memory.set (Memory.set img.cells (imageKey img x y 0) p.r) (imageKey img x y 1) p.g)
          (imageKey img x y 2) p.b }
  else img

/-- The image the host attaches: its shape and its channel bytes as listed (log entry 17). -/
def Image.attach (stamp width height : Nat) (bytes : List Byte) : Image :=
  { width := width, height := height, stamp := stamp,
    cells := Memory.ofList 0 (bytes.take (3 * width * height)) }

/-- `PixRead` on the state's image, at the state's moment. -/
def State.pixRead (s : State) (x y : Nat) : Pixel := s.img.pixRead s.freeCount x y

/-- `Cap` of the image the registers describe (R23, R154). -/
def State.cap (s : State) (d : Direction) : Nat := Machine.cap d s.imgW s.imgH

/-- `Addr` of an offset in the image the registers describe (R23, R150). -/
def State.addr (s : State) (d : Direction) (i : Nat) : PixelAddr := Machine.addr d i s.imgW s.imgH

/-! ## Starting and ending a command -/

/-- The start of a command (R45): the outcome of the previous command and the working registers are
cleared (R39, R260, R263), `BUSY` is set and `PHASE` is `CHECK`. This is also all there is of a "return"
from an error (R231). The counter of free values advances (log entry 5). -/
def startCommand (s : State) : State :=
  { s with
    status := statusWord true false false false false
    errcode := 0
    errinfo := 0
    offs := 0
    phase := .check
    runLen := 0
    runVal := false
    curX := 0
    curY := 0
    curC := 0
    pix := { r := 0, g := 0, b := 0 }
    freeCount := s.freeCount + 1 }

/-- `raise E(info)` (R230), the one way a command ends in error: `STATUS`, `ERRCODE` and `ERRINFO` are
written, the sequencer is idle again, and nothing else changes. There is no handler, no vector, no saved
state and no mode. -/
def raise (e : ErrorKind) (info : Nat) (s : State) : State :=
  { s with
    errcode := codeOfError e
    errinfo := errorInfo e info
    status := statusWord false false true false false
    phase := .idle }

/-- The end of a command without error (R28, R30): `DONE`, with `EMPTY` and `TERM` as given. -/
def complete (empty term : Bool) (s : State) : State :=
  { s with status := statusWord false true false empty term, phase := .idle }

/-- The checks of a command (R225): the first that fails ends it. -/
def checked (failure : Option (ErrorKind × Nat)) (s : State) (go : State → State) : State :=
  match failure with
  | some (e, info) => raise e info s
  | none => go s

/-- Bit steps are made while `PHASE = RUN`, at most `fuel` of them (R41). -/
def runPhase (bitStep : State → State) : Nat → State → State
  | 0, s => s
  | fuel + 1, s => if s.phase = .run then runPhase bitStep fuel (bitStep s) else s

end Sys2Proof.Machine
end

