-- ==== Sys2Proof/Machine/AddressMapper.lean ====
section
/-! DEFINITION. The pixel_address_mapper's commands `ADDR` and `CAP` in the three directions
(42_pixel_address_mapper R150, R154, R160). The functions `addr` and `cap` are in Operands.lean; there
is one copy of each, used by every command (R159). -/

namespace Sys2Proof.Machine

/-- The one check of `ADDR`: the offset must be below the capacity (R150, R160, R225 step 9). There is no
shape check. -/
def addrCheck (d : Direction) (s : State) : Option (ErrorKind × Nat) :=
  if s.arg0 ≥ s.cap d then some (.illegalOperand, 0) else none

/-- The effect of R150: `RES0 <- x ; RES1 <- y ; RES2 <- c`. -/
def addrGo (d : Direction) (s : State) : State :=
  let a := s.addr d s.arg0
  complete false false { s with res0 := a.x, res1 := a.y, res2 := a.c }

/-- `ADDR` after the start of the command. -/
def addrBody (d : Direction) (s : State) : State := checked (addrCheck d s) s (addrGo d)

/-- `CAP` after the start of the command (R154): `RES0 <- Cap(DIR, IMG_W, IMG_H)`. -/
def capBody (d : Direction) (s : State) : State := complete false false { s with res0 := s.cap d }

/-- `ADDR.h` (R150, R151). -/
def execAddrH (s : State) : Host.Outcome State Fault Refusal := .next (addrBody .horizontal (startCommand s))

/-- `ADDR.v` (R150, R152). -/
def execAddrV (s : State) : Host.Outcome State Fault Refusal := .next (addrBody .vertical (startCommand s))

/-- `ADDR.d` (R150, R153). -/
def execAddrD (s : State) : Host.Outcome State Fault Refusal := .next (addrBody .diagonal (startCommand s))

/-- `CAP.h` (R154). -/
def execCapH (s : State) : Host.Outcome State Fault Refusal := .next (capBody .horizontal (startCommand s))

/-- `CAP.v` (R154). -/
def execCapV (s : State) : Host.Outcome State Fault Refusal := .next (capBody .vertical (startCommand s))

/-- `CAP.d` (R154). -/
def execCapD (s : State) : Host.Outcome State Fault Refusal := .next (capBody .diagonal (startCommand s))

end Sys2Proof.Machine
end

