-- ==== Sys2Proof/Machine/BitCodec.lean ====
section
/-! DEFINITION. The bit_sequence_generator: `BYTES2BITS`, `TEXT2BITS`, `BITS2BYTES`, `BITS2TEXT`
(40_bit_sequence_generator R121 to R124). -/

namespace Sys2Proof.Machine

/-- The one check of `BYTES2BITS` and `TEXT2BITS`: `8 × BYTELEN` must fit `BITLEN` (R121, R225 step 5). -/
def bytesToBitsCheck (s : State) : Option (ErrorKind × Nat) :=
  if 8 * s.bytelen ≥ 2 ^ Config.offsetBits s.dimBits then some (.illegalOperand, 0) else none

/-- The effect of R121: every byte of `BYTEBUF` expanded MSB first into `BITBUF`. -/
def bytesToBitsGo (s : State) : State :=
  complete false false
    { s with bitBuf := Buffer.produced s.freeCount (bitsOfBytes s.bytes), bitlen := 8 * s.bytelen }

/-- `BYTES2BITS` and `TEXT2BITS` after the start of the command: the same function (R122). -/
def bytesToBitsBody (s : State) : State := checked (bytesToBitsCheck s) s bytesToBitsGo

/-- `BITS2BYTES` after the start of the command (R123): `ceil8(BITLEN)` bytes, the missing bits zero. -/
def bitsToBytesBody (s : State) : State :=
  complete false false
    { s with
      byteBuf := Buffer.produced s.freeCount (bytesOfBits (ceil8 s.bitlen) s.bits)
      bytelen := ceil8 s.bitlen }

/-- `BITS2TEXT` after the start of the command (R124): `floor8(BITLEN)` codes, the ragged tail dropped. -/
def bitsToTextBody (s : State) : State :=
  complete false false
    { s with
      byteBuf := Buffer.produced s.freeCount (bytesOfBits (floor8 s.bitlen) s.bits)
      bytelen := floor8 s.bitlen }

/-- `BYTES2BITS` (R121). -/
def execBytes2bits (s : State) : Host.Outcome State Fault Refusal :=
  .next (bytesToBitsBody (startCommand s))

/-- `TEXT2BITS` (R122). -/
def execText2bits (s : State) : Host.Outcome State Fault Refusal :=
  .next (bytesToBitsBody (startCommand s))

/-- `BITS2BYTES` (R123). -/
def execBits2bytes (s : State) : Host.Outcome State Fault Refusal :=
  .next (bitsToBytesBody (startCommand s))

/-- `BITS2TEXT` (R124). -/
def execBits2text (s : State) : Host.Outcome State Fault Refusal :=
  .next (bitsToTextBody (startCommand s))

end Sys2Proof.Machine
end

