-- ==== Sys2Proof/Machine/ChannelOps.lean ====
section
/-! DEFINITION. The channel_bit_packer: `SETLSB`, `GETLSB` (41_channel_bit_packer R141, R142). -/

namespace Sys2Proof.Machine

/-- The checks of `SETLSB` in their order: `InvalidPosition`, `IllegalOperand`, `InvalidBit` (R141,
R225 steps 2, 3, 4). -/
def setlsbCheck (pos : Nat) (s : State) : Option (ErrorKind × Nat) :=
  if pos ≠ 0 then some (.invalidPosition, 0)
  else if s.arg0 > 255 then some (.illegalOperand, 0)
  else if s.arg1 > 1 then some (.invalidBit, 0)
  else none

/-- The effect of R141: `RES0 <- zext(setLsb(ARG0[7:0], ARG1[0]))`. -/
def setlsbGo (s : State) : State :=
  complete false false
    { s with res0 := (setLsb (BitVec.ofNat 8 s.arg0) (s.arg1.testBit 0)).toNat }

/-- `SETLSB` after the start of the command. -/
def setlsbBody (pos : Nat) (s : State) : State := checked (setlsbCheck pos s) s setlsbGo

/-- The checks of `GETLSB` in their order: `InvalidPosition`, `IllegalOperand` (R142, R225 steps 2, 3). -/
def getlsbCheck (pos : Nat) (s : State) : Option (ErrorKind × Nat) :=
  if pos ≠ 0 then some (.invalidPosition, 0)
  else if s.arg0 > 255 then some (.illegalOperand, 0)
  else none

/-- The effect of R142: `RES0 <- zext(getLsb(ARG0[7:0]))`. -/
def getlsbGo (s : State) : State :=
  complete false false { s with res0 := (getLsb (BitVec.ofNat 8 s.arg0)).toNat }

/-- `GETLSB` after the start of the command. -/
def getlsbBody (pos : Nat) (s : State) : State := checked (getlsbCheck pos s) s getlsbGo

/-- `SETLSB` (R141). -/
def execSetlsb (pos : Nat) (s : State) : Host.Outcome State Fault Refusal :=
  .next (setlsbBody pos (startCommand s))

/-- `GETLSB` (R142). -/
def execGetlsb (pos : Nat) (s : State) : Host.Outcome State Fault Refusal :=
  .next (getlsbBody pos (startCommand s))

end Sys2Proof.Machine
end

