-- ==== Sys2Proof/Machine/Embed.lean ====
section
/-! DEFINITION. The embed_sequencer: `EMBED` in the three directions, in the phases of 10_state R41 and
the bit step of 43_embed_sequencer R173. -/

namespace Sys2Proof.Machine

/-- The checks of `EMBED` in their order: `ShapeMismatch`, then `CapacityExceeded` with the capacity in
bits (R171, R172, R225 steps 7, 8). -/
def embedCheck (d : Direction) (s : State) : Option (ErrorKind × Nat) :=
  if shapeMismatch d s.imgW s.imgH then some (.shapeMismatch, 0)
  else if s.bitlen > s.cap d then some (.capacityExceeded, s.cap d)
  else none

/-- From `CHECK` to `RUN`, or to `FINISH` when `BITLEN = 0` (R173). -/
def embedEnter (s : State) : State := { s with phase := if s.bitlen = 0 then .finish else .run }

/-- One bit step of `EMBED` (R173): one pixel read, the selected channel's LSB replaced, one pixel
write. -/
def embedBitStep (d : Direction) (s : State) : State :=
  let a := s.addr d s.offs
  let old := s.pixRead a.x a.y
  let new := withChannel old a.c (setLsb (channelOf old a.c) (readBitBuf s.bitBuf s.offs))
  { s with
    curX := a.x
    curY := a.y
    curC := BitVec.ofNat 2 a.c
    pix := new
    img := s.img.pixWrite a.x a.y new
    offs := s.offs + 1
    phase := if s.offs + 1 = s.bitlen then .finish else .run }

/-- `FINISH` of `EMBED` (R173): `DONE`, `BUSY` cleared; never `EMPTY`, never `TERM` (R170). -/
def embedFinish (s : State) : State := complete false false s

/-- `EMBED` once its checks have passed (R170). -/
def embedGo (d : Direction) (s : State) : State :=
  embedFinish (runPhase (embedBitStep d) s.bitlen (embedEnter s))

/-- `EMBED` after the start of the command. -/
def embedBody (d : Direction) (s : State) : State := checked (embedCheck d s) s (embedGo d)

/-- One phase step of `EMBED` (R41, R173), for the view that steps inside a command. -/
def embedTick (d : Direction) (s : State) : State :=
  match s.phase with
  | .idle => s
  | .check => checked (embedCheck d s) s embedEnter
  | .run => embedBitStep d s
  | .finish => embedFinish s

/-- `EMBED.h` (R170). -/
def execEmbedH (s : State) : Host.Outcome State Fault Refusal := .next (embedBody .horizontal (startCommand s))

/-- `EMBED.v` (R170). -/
def execEmbedV (s : State) : Host.Outcome State Fault Refusal := .next (embedBody .vertical (startCommand s))

/-- `EMBED.d` (R170). -/
def execEmbedD (s : State) : Host.Outcome State Fault Refusal := .next (embedBody .diagonal (startCommand s))

end Sys2Proof.Machine
end

