-- ==== Sys2Proof/Machine/Extract.lean ====
section
/-! DEFINITION. The extract_sequencer_with_termination_detector: `EXTRACT` in the phases of 10_state R41
and the bit step of 44_extract_sequencer R193, and `EXTRACTN` (R202). -/

namespace Sys2Proof.Machine

/-- Whether the termination heuristic is applied in this direction (R192, R200). -/
def heuristic (d : Direction) : Bool :=
  match d with
  | .horizontal => true
  | .vertical => true
  | .diagonal => false

/-- The LSB at offset `i`: channel `i mod 3` of the pixel the mapping gives (R192, R200). -/
def lsbAt (d : Direction) (s : State) (i : Nat) : Bit :=
  let a := s.addr d i
  getLsb (channelOf (s.pixRead a.x a.y) a.c)

/-- The checks of `EXTRACT` (R191, R225 steps 6, 7): `K = 0` where the heuristic is applied, the shape
where the direction is diagonal. There is no capacity check. -/
def extractCheck (d : Direction) (s : State) : Option (ErrorKind × Nat) :=
  if heuristic d && s.kreg == 0 then some (.illegalOperand, 0)
  else if shapeMismatch d s.imgW s.imgH then some (.shapeMismatch, 0)
  else none

/-- From `CHECK` to `RUN`, or to `FINISH` when there is no offset to read (R193). -/
def extractEnter (d : Direction) (s : State) : State :=
  { s with phase := if s.cap d = 0 then .finish else .run }

/-- Whether the scan has triggered, from the working registers (R193, R195); never in the diagonal. -/
def scanTriggered (d : Direction) (s : State) : Bool :=
  heuristic d && triggered s.kreg s.offs s.runLen

/-- One bit step of `EXTRACT` (R193): one pixel read, the bit stored at `OFFS`, the run counted, and the
one control decision: trigger, exhaustion or go on. -/
def extractBitStep (d : Direction) (s : State) : State :=
  let a := s.addr d s.offs
  let p := s.pixRead a.x a.y
  let b := lsbAt d s s.offs
  let run := nextRunLen s.runLen s.runVal b
  { s with
    curX := a.x
    curY := a.y
    curC := BitVec.ofNat 2 a.c
    pix := p
    bitBuf := s.bitBuf.write s.offs b
    runLen := run
    runVal := b
    offs := s.offs + 1
    phase :=
      if heuristic d && triggered s.kreg (s.offs + 1) run then .finish
      else if s.offs + 1 = s.cap d then .finish
      else .run }

/-- `FINISH` of `EXTRACT` (R193): `TERM`, `BITLEN`, `EMPTY`, `DONE`; what lies beyond the new length is
unspecified (R64). -/
def extractFinish (d : Direction) (s : State) : State :=
  let trig := scanTriggered d s
  let n := extractedLen s.kreg trig s.offs s.runLen
  complete (n == 0) trig { s with bitlen := n, bitBuf := s.bitBuf.cut s.freeCount n }

/-- `EXTRACT` once its checks have passed (R190). -/
def extractGo (d : Direction) (s : State) : State :=
  extractFinish d (runPhase (extractBitStep d) (s.cap d) (extractEnter d s))

/-- `EXTRACT` after the start of the command. -/
def extractBody (d : Direction) (s : State) : State := checked (extractCheck d s) s (extractGo d)

/-- One phase step of `EXTRACT` (R41, R193). -/
def extractTick (d : Direction) (s : State) : State :=
  match s.phase with
  | .idle => s
  | .check => checked (extractCheck d s) s (extractEnter d)
  | .run => extractBitStep d s
  | .finish => extractFinish d s

/-- `EXTRACT.h` (R190, R192). -/
def execExtractH (s : State) : Host.Outcome State Fault Refusal :=
  .next (extractBody .horizontal (startCommand s))

/-- `EXTRACT.v` (R190, R192). -/
def execExtractV (s : State) : Host.Outcome State Fault Refusal :=
  .next (extractBody .vertical (startCommand s))

/-- `EXTRACT.d` (R190, R200). -/
def execExtractD (s : State) : Host.Outcome State Fault Refusal :=
  .next (extractBody .diagonal (startCommand s))

/-! ## The known-length window -/

/-- The checks of `EXTRACTN`, as `EMBED`'s with `NWIN` for the length (R202, R225 steps 7, 8). -/
def extractnCheck (d : Direction) (s : State) : Option (ErrorKind × Nat) :=
  if shapeMismatch d s.imgW s.imgH then some (.shapeMismatch, 0)
  else if s.nwin > s.cap d then some (.capacityExceeded, s.cap d)
  else none

/-- From `CHECK` to `RUN`, or to `FINISH` when `NWIN = 0` (R203). -/
def extractnEnter (s : State) : State := { s with phase := if s.nwin = 0 then .finish else .run }

/-- One bit step of `EXTRACTN`: as R193 without the run counter and the trigger (R202; log entry 11). -/
def extractnBitStep (d : Direction) (s : State) : State :=
  let a := s.addr d s.offs
  let p := s.pixRead a.x a.y
  { s with
    curX := a.x
    curY := a.y
    curC := BitVec.ofNat 2 a.c
    pix := p
    bitBuf := s.bitBuf.write s.offs (lsbAt d s s.offs)
    offs := s.offs + 1
    phase := if s.offs + 1 = s.nwin then .finish else .run }

/-- `FINISH` of `EXTRACTN` (R202): `BITLEN <- NWIN`, `TERM <- 0`, `EMPTY <- (NWIN = 0)`. -/
def extractnFinish (s : State) : State :=
  complete (s.nwin == 0) false { s with bitlen := s.nwin, bitBuf := s.bitBuf.cut s.freeCount s.nwin }

/-- `EXTRACTN` once its checks have passed (R202). -/
def extractnGo (d : Direction) (s : State) : State :=
  extractnFinish (runPhase (extractnBitStep d) s.nwin (extractnEnter s))

/-- `EXTRACTN` after the start of the command. -/
def extractnBody (d : Direction) (s : State) : State := checked (extractnCheck d s) s (extractnGo d)

/-- One phase step of `EXTRACTN` (R41, R202). -/
def extractnTick (d : Direction) (s : State) : State :=
  match s.phase with
  | .idle => s
  | .check => checked (extractnCheck d s) s extractnEnter
  | .run => extractnBitStep d s
  | .finish => extractnFinish s

/-- `EXTRACTN.h` (R202). -/
def execExtractnH (s : State) : Host.Outcome State Fault Refusal :=
  .next (extractnBody .horizontal (startCommand s))

/-- `EXTRACTN.v` (R202). -/
def execExtractnV (s : State) : Host.Outcome State Fault Refusal :=
  .next (extractnBody .vertical (startCommand s))

/-- `EXTRACTN.d` (R202). -/
def execExtractnD (s : State) : Host.Outcome State Fault Refusal :=
  .next (extractnBody .diagonal (startCommand s))

end Sys2Proof.Machine
end

