-- ==== Sys2Proof/Machine/Sequencer.lean ====
section
/-! DEFINITION. One phase step of a command in progress (10_state R39 to R41, 60_exceptions R240): the
view that steps inside a command. The atomic view is `exec`; both use the same checks, bit steps and
ends, and both give the same end state (R240). -/

namespace Sys2Proof.Machine

/-- A command without bit steps is one transition from `CHECK` to its end (file 40, opening; log entry
12). -/
def oneTransition (body : State → State) (s : State) : State :=
  match s.phase with
  | .check => body s
  | .idle => s
  | .run => s
  | .finish => s

/-- One phase step of the command `i` (R41). -/
def tickInstr (i : Instr) (s : State) : State :=
  match i with
  | .bytes2bits => oneTransition bytesToBitsBody s
  | .text2bits => oneTransition bytesToBitsBody s
  | .bits2bytes => oneTransition bitsToBytesBody s
  | .bits2text => oneTransition bitsToTextBody s
  | .setlsb pos => oneTransition (setlsbBody pos) s
  | .getlsb pos => oneTransition (getlsbBody pos) s
  | .addrH => oneTransition (addrBody .horizontal) s
  | .addrV => oneTransition (addrBody .vertical) s
  | .addrD => oneTransition (addrBody .diagonal) s
  | .capH => oneTransition (capBody .horizontal) s
  | .capV => oneTransition (capBody .vertical) s
  | .capD => oneTransition (capBody .diagonal) s
  | .embedH => embedTick .horizontal s
  | .embedV => embedTick .vertical s
  | .embedD => embedTick .diagonal s
  | .extractH => extractTick .horizontal s
  | .extractV => extractTick .vertical s
  | .extractD => extractTick .diagonal s
  | .extractnH => extractnTick .horizontal s
  | .extractnV => extractnTick .vertical s
  | .extractnD => extractnTick .diagonal s

end Sys2Proof.Machine
end

