-- ==== Sys2Proof/Machine/Dispatch.lean ====
section
/-! DEFINITION. exec: one arm per command, each one direct call of its meaning. -/

namespace Sys2Proof.Machine

-- The state is the one right after the host's write to CMD, with BUSY = 0 (30_encoding R92, 60_exceptions R240).
def exec (i : Instr) (s : State) : Host.Outcome State Fault Refusal :=
  match i with
  | .bytes2bits => Sys2Proof.Machine.execBytes2bits s
  | .text2bits => Sys2Proof.Machine.execText2bits s
  | .bits2bytes => Sys2Proof.Machine.execBits2bytes s
  | .bits2text => Sys2Proof.Machine.execBits2text s
  | .setlsb pos => Sys2Proof.Machine.execSetlsb pos s
  | .getlsb pos => Sys2Proof.Machine.execGetlsb pos s
  | .addrH => Sys2Proof.Machine.execAddrH s
  | .addrV => Sys2Proof.Machine.execAddrV s
  | .addrD => Sys2Proof.Machine.execAddrD s
  | .capH => Sys2Proof.Machine.execCapH s
  | .capV => Sys2Proof.Machine.execCapV s
  | .capD => Sys2Proof.Machine.execCapD s
  | .embedH => Sys2Proof.Machine.execEmbedH s
  | .embedV => Sys2Proof.Machine.execEmbedV s
  | .embedD => Sys2Proof.Machine.execEmbedD s
  | .extractH => Sys2Proof.Machine.execExtractH s
  | .extractV => Sys2Proof.Machine.execExtractV s
  | .extractD => Sys2Proof.Machine.execExtractD s
  | .extractnH => Sys2Proof.Machine.execExtractnH s
  | .extractnV => Sys2Proof.Machine.execExtractnV s
  | .extractnD => Sys2Proof.Machine.execExtractnD s

end Sys2Proof.Machine
end

