-- ==== Sys2Proof/Machine/HostPort.lean ====
section
/-! DEFINITION. The host port: register reads and writes (10_state R21), buffer and image access
(20_memory R79), the reset input (70_reset R260 to R262), the start of a command by a write to `CMD`
(R22, 30_encoding R97), and what a pending host statement does. -/

namespace Sys2Proof.Machine

/-- The index of `CMD` (R21). -/
def cmdIndex : BitVec 4 := 0x0

/-- A host write to a register other than `CMD` (R21): an `RW` register keeps the low bits of the value;
a write to an `RO` register or to the reserved index is ignored. -/
def hostWriteReg (idx : BitVec 4) (v : Nat) (s : State) : State :=
  match idx.toNat with
  | 0x4 => { s with imgW := v % 2 ^ s.dimBits }
  | 0x5 => { s with imgH := v % 2 ^ s.dimBits }
  | 0x6 => { s with kreg := BitVec.ofNat 8 v }
  | 0x7 => { s with nwin := v % 2 ^ Config.offsetBits s.dimBits }
  | 0x8 => { s with bitlen := v % 2 ^ Config.offsetBits s.dimBits }
  | 0x9 => { s with bytelen := v % 2 ^ Config.offsetBits s.dimBits }
  | 0xA => { s with arg0 := v % 2 ^ Config.offsetBits s.dimBits }
  | 0xB => { s with arg1 := v % 2 ^ Config.offsetBits s.dimBits }
  | _ => s

/-- What a host read of a register returns (R21); the reserved index reads `0`. -/
def hostReadReg (idx : BitVec 4) (s : State) : Nat :=
  match idx.toNat with
  | 0x0 => s.cmd.toNat
  | 0x1 => s.status.toNat
  | 0x2 => s.errcode.toNat
  | 0x3 => s.errinfo
  | 0x4 => s.imgW
  | 0x5 => s.imgH
  | 0x6 => s.kreg.toNat
  | 0x7 => s.nwin
  | 0x8 => s.bitlen
  | 0x9 => s.bytelen
  | 0xA => s.arg0
  | 0xB => s.arg1
  | 0xC => s.res0
  | 0xD => s.res1
  | 0xE => s.res2
  | _ => 0

/-- The three bytes a host read of a pixel returns. -/
def pixelData (p : Pixel) : List Nat := [p.r.toNat, p.g.toNat, p.b.toNat]

/-- A host read of a pixel; the counter of free values advances first, since a read outside the true
image may differ from one time to the next (U16). -/
def hostReadPixel (x y : Nat) (s : State) : State :=
  { s with rdata := pixelData (s.img.pixRead (s.freeCount + 1) x y), freeCount := s.freeCount + 1 }

/-- `ld BITBUF` (R101): the bits to `BITBUF[0..]`, their count to `BITLEN`. -/
def hostLoadBits (bits : List Bit) (s : State) : State :=
  { s with
    bitBuf := { s.bitBuf with cells := Memory.setList s.bitBuf.cells 0 bits }
    bitlen := bits.length % 2 ^ Config.offsetBits s.dimBits }

/-- `ld BYTEBUF` (R101): the bytes to `BYTEBUF[0..]`, their count to `BYTELEN`. -/
def hostLoadBytes (bytes : List Byte) (s : State) : State :=
  { s with
    byteBuf := { s.byteBuf with cells := Memory.setList s.byteBuf.cells 0 bytes }
    bytelen := bytes.length % 2 ^ Config.offsetBits s.dimBits }

/-- `ld IMG` (R101): the host attaches an image and sets `IMG_W`, `IMG_H` (log entry 17). -/
def hostLoadImage (width height : Nat) (bytes : List Byte) (s : State) : State :=
  { s with
    img := Image.attach (s.freeCount + 1) width height bytes
    imgW := width % 2 ^ s.dimBits
    imgH := height % 2 ^ s.dimBits
    freeCount := s.freeCount + 1 }

/-- The reset input while the block is idle (R260, R261): every register and working register as after
reset, buffer contents unspecified, `IMG` untouched. The parameter and the host's own fields are not the
block's (log entry 14). -/
def hostReset (s : State) : State :=
  { State.reset with
    dimBits := s.dimBits
    bitBuf := { stamp := s.freeCount + 1, cells := [] }
    byteBuf := { stamp := s.freeCount + 1, cells := [] }
    img := s.img
    script := s.script
    rdata := s.rdata
    freeCount := s.freeCount + 1 }

/-- The host's write of the word `w` to `CMD` while `BUSY = 0` (R22): a word that a decode test refuses
ends with `IllegalOperand` (R97, R225 step 1); any other runs its command to its end (R240). -/
def issue (w : CmdWord) (s : State) : Host.Outcome State Fault Refusal :=
  match decode w with
  | .bad _ => .next (raise .illegalOperand 0 (startCommand { s with cmd := w }))
  | .instr i => exec i { s with cmd := w }

/-- What a host statement does while `BUSY = 0` (R79, R101). -/
def hostStep (op : HostOp) (s : State) : Host.Outcome State Fault Refusal :=
  match op with
  | .writeReg idx v =>
    if idx = cmdIndex then issue (BitVec.ofNat 16 v) s else .next (hostWriteReg idx v s)
  | .readReg idx => .next { s with rdata := [hostReadReg idx s] }
  | .writeBit i b => .next { s with bitBuf := s.bitBuf.write i b }
  | .readBit i => .next { s with rdata := [(readBitBuf s.bitBuf i).toNat] }
  | .writeByte j v => .next { s with byteBuf := s.byteBuf.write j v }
  | .readByte j => .next { s with rdata := [(readByteBuf s.byteBuf j).toNat] }
  | .writePixel x y p => .next { s with img := s.img.pixWrite x y p }
  | .readPixel x y => .next (hostReadPixel x y s)
  | .loadBits bits => .next (hostLoadBits bits s)
  | .loadBytes bytes => .next (hostLoadBytes bytes s)
  | .loadImage width height bytes => .next (hostLoadImage width height bytes s)
  | .reset => .next (hostReset s)

/-- A step while `BUSY = 0`: the next pending host statement; with none pending the idle block stays as
it is (R248, R262). -/
def idleStep (s : State) : Host.Outcome State Fault Refusal :=
  match s.script with
  | [] => .next s
  | op :: rest => hostStep op { s with script := rest }

/-- One phase step of the command whose word `CMD` holds (R39 to R41); a refused word ends in error. -/
def tick (s : State) : State :=
  match decode s.cmd with
  | .bad _ => oneTransition (raise .illegalOperand 0) s
  | .instr i => tickInstr i s

/-- A step while `BUSY = 1`: the sequencer makes one phase step; the host has no move (R270), so a host
statement pending then is stuck (U13), and so is a reset (U12). -/
def busyStep (s : State) : Host.Outcome State Fault Refusal :=
  match s.script with
  | [] => .next (tick s)
  | .reset :: _ => .fault .resetWhileBusy
  | _ :: _ => .fault .hostAccessWhileBusy

/-- The state with the host's write of a command word pending first, and the block idle (`BUSY = 0`),
which that write needs (R22). -/
def pendingCommand (w : CmdWord) (s : State) : State :=
  { s with status := s.status &&& 0xFE#8, script := .writeReg cmdIndex w.toNat :: s.script }

end Sys2Proof.Machine
end

