-- ==== Sys2Proof/Machine/Step.lean ====
section
/-! DEFINITION. One step of the machine, and the placing of a command where the next step takes it. -/

namespace Sys2Proof.Machine

/-- One step: from an idle state the next host statement, a command being one atomic transition (R240);
from a state within a command one phase step of the sequencer. -/
def step (s : State) : Host.Outcome State Fault Refusal :=
  if s.busy then busyStep s else idleStep s

/-- The state whose next step runs the command word `w`: the host's write of it to `CMD` is the next
pending statement. There is no stored program (R20, R63); see log entry 3. -/
def State.withFetchWord (s : State) (nbits w : Nat) : State := pendingCommand (tableWord nbits w) s

end Sys2Proof.Machine
end

