-- ==== Sys2Proof/Safety.lean ====
section
/-! DEFINITION. The terms the statements use: how a command ends, what a command leaves unchanged
(10_state R37), the duties of the host (60_exceptions R249, 70_reset R272), the spec's own reference
readings (the window form of the trigger, 44 R194; the order of checks, 60 R225), and the invariant. -/

namespace Sys2Proof.Safety

open Sys2Proof.Machine

/-! ## How a command ends -/

/-- The command ended without error: `STATUS` is `DONE` with `EMPTY` and `TERM` as given, and no error is
reported (R28, R30). -/
def EndsDone (t : State) (empty term : Bool) : Prop :=
  t.status = 0x02#8 ||| (if empty then 0x08#8 else 0) ||| (if term then 0x10#8 else 0) ∧
  t.errcode = 0 ∧ t.errinfo = 0 ∧ t.phase = .idle

/-- The command ended with the error of this code, reporting `info` (R230). -/
def EndsInError (t : State) (code : BitVec 8) (info : Nat) : Prop :=
  t.status = 0x04#8 ∧ t.errcode = code ∧ t.errinfo = info ∧ t.phase = .idle

/-! ## What a command leaves unchanged -/

/-- The places some command writes, besides `STATUS`, `ERRCODE` and `ERRINFO` (R37). -/
inductive Place where
  | bitlen
  | bytelen
  | res0
  | res1
  | res2
  | bitbuf
  | bytebuf
  | img
deriving DecidableEq, Repr

/-- The place holds after what it held before. -/
def Unchanged (s t : State) : Place → Prop
  | .bitlen => t.bitlen = s.bitlen
  | .bytelen => t.bytelen = s.bytelen
  | .res0 => t.res0 = s.res0
  | .res1 => t.res1 = s.res1
  | .res2 => t.res2 = s.res2
  | .bitbuf => t.bitBuf = s.bitBuf
  | .bytebuf => t.byteBuf = s.byteBuf
  | .img => t.img = s.img

/-- What no command writes (R37): the operand registers, `CMD` (written by the host's write that starts
the command), the parameter and the host's own fields. -/
structure SameSetup (s t : State) : Prop where
  dimBits : t.dimBits = s.dimBits
  cmd : t.cmd = s.cmd
  imgW : t.imgW = s.imgW
  imgH : t.imgH = s.imgH
  kreg : t.kreg = s.kreg
  nwin : t.nwin = s.nwin
  arg0 : t.arg0 = s.arg0
  arg1 : t.arg1 = s.arg1
  script : t.script = s.script
  rdata : t.rdata = s.rdata

/-- Everything but the listed places, `STATUS`, `ERRCODE`, `ERRINFO` and the working registers is
unchanged. -/
def FrameExcept (written : List Place) (s t : State) : Prop :=
  SameSetup s t ∧ ∀ p, p ∉ written → Unchanged s t p

/-- The working registers hold what the start of a command leaves in them (R45, R260). -/
def WorkingCleared (t : State) : Prop :=
  t.offs = 0 ∧ t.runLen = 0 ∧ t.runVal = false ∧ t.curX = 0 ∧ t.curY = 0 ∧ t.curC = 0 ∧
  t.pix = { r := 0, g := 0, b := 0 }

/-- The column "w" of R37: what each command may write. -/
def writeSet : Instr → List Place
  | .bytes2bits => [.bitlen, .bitbuf]
  | .text2bits => [.bitlen, .bitbuf]
  | .bits2bytes => [.bytelen, .bytebuf]
  | .bits2text => [.bytelen, .bytebuf]
  | .setlsb _ => [.res0]
  | .getlsb _ => [.res0]
  | .addrH => [.res0, .res1, .res2]
  | .addrV => [.res0, .res1, .res2]
  | .addrD => [.res0, .res1, .res2]
  | .capH => [.res0]
  | .capV => [.res0]
  | .capD => [.res0]
  | .embedH => [.img]
  | .embedV => [.img]
  | .embedD => [.img]
  | .extractH => [.bitlen, .bitbuf]
  | .extractV => [.bitlen, .bitbuf]
  | .extractD => [.bitlen, .bitbuf]
  | .extractnH => [.bitlen, .bitbuf]
  | .extractnV => [.bitlen, .bitbuf]
  | .extractnD => [.bitlen, .bitbuf]

/-- The command `i` ends with this error and has no other effect than `STATUS`, `ERRCODE`, `ERRINFO`
(R230); the working registers hold what its start left in them. -/
def FailsWith (i : Instr) (s : State) (code : BitVec 8) (info : Nat) : Prop :=
  ∃ t, exec i s = .next t ∧ EndsInError t code info ∧ WorkingCleared t ∧ FrameExcept [] s t

/-! ## The directed commands -/

/-- The 21 legal command words of R92. -/
abbrev legalWords : List Nat :=
  [0x1000, 0x2000, 0x3000, 0x4000, 0x5000, 0x6000, 0x7000, 0x7400, 0x7800, 0x8000, 0x8400, 0x8800,
    0x9000, 0x9400, 0x9800, 0xA000, 0xA400, 0xA800, 0xB000, 0xB400, 0xB800]

/-- `ADDR` with its direction. -/
abbrev addrs : List (Instr × Direction) :=
  [(.addrH, .horizontal), (.addrV, .vertical), (.addrD, .diagonal)]

/-- `EMBED` with its direction. -/
abbrev embeds : List (Instr × Direction) :=
  [(.embedH, .horizontal), (.embedV, .vertical), (.embedD, .diagonal)]

/-- `EXTRACT` in the directions where the heuristic is applied. -/
abbrev scans : List (Instr × Direction) := [(.extractH, .horizontal), (.extractV, .vertical)]

/-- `EXTRACT` with its direction. -/
abbrev extracts : List (Instr × Direction) :=
  [(.extractH, .horizontal), (.extractV, .vertical), (.extractD, .diagonal)]

/-- `EXTRACTN` with its direction. -/
abbrev extractns : List (Instr × Direction) :=
  [(.extractnH, .horizontal), (.extractnV, .vertical), (.extractnD, .diagonal)]

/-- `EMBED` and `EXTRACTN` of one direction. -/
abbrev embedExtractPairs : List (Instr × Instr × Direction) :=
  [(.embedH, .extractnH, .horizontal), (.embedV, .extractnV, .vertical),
    (.embedD, .extractnD, .diagonal)]

/-- A direction's shape requirement is met: a diagonal needs a square image (R171, R191). -/
abbrev ShapeOk (d : Direction) (s : State) : Prop := d = .diagonal → s.imgW = s.imgH

/-- The host's duty of R272: the registers do not overstate the shape of the image that is there. -/
abbrev ShapeHonest (s : State) : Prop := s.imgW ≤ s.img.width ∧ s.imgH ≤ s.img.height

/-- `(x, y, c)` names a byte of the image that is there (R60). -/
abbrev IsImgByte (s : State) (x y c : Nat) : Prop := x < s.img.width ∧ y < s.img.height ∧ c < 3

/-- `IMG[x][y][c]` as the machine reads it. -/
def imgByte (s : State) (x y c : Nat) : Byte := channelOf (s.pixRead x y) c

/-- `IMG[x][y][c]` at the place an offset maps to. -/
def offsetByte (d : Direction) (s : State) (i : Nat) : Byte :=
  imgByte s (s.addr d i).x (s.addr d i).y (s.addr d i).c

/-- `S[i]`, the LSB at offset `i` in traversal order (R204). -/
def stream (d : Direction) (s : State) (i : Nat) : Bit := (offsetByte d s i).getLsbD 0

/-! ## The trigger in its window form -/

/-- The elements of `S` at the indices `lo` to `hi - 1` are all equal. -/
abbrev AllEqual (S : Nat → Bit) (lo hi : Nat) : Prop :=
  ∀ a < hi, ∀ b < hi, lo ≤ a → lo ≤ b → S a = S b

/-- The trigger after `n` bits, as R194 states it: (a) and (b). -/
abbrev WindowTrigger (S : Nat → Bit) (k n : Nat) : Prop := 8 * (k + 1) ≤ n ∧ AllEqual S (n - 8 * k) n

/-- `n` is the count at which a scan of `m` bits triggers: the first one (R194). -/
abbrev FirstTrigger (S : Nat → Bit) (k m n : Nat) : Prop :=
  n ≤ m ∧ WindowTrigger S k n ∧ ∀ l < n, ¬ WindowTrigger S k l

/-- `BITBUF[0..BITLEN)` is the first `n` elements of `S`. -/
def HoldsPrefix (t : State) (S : Nat → Bit) (n : Nat) : Prop :=
  t.bitlen = n ∧ ∀ i < n, readBitBuf t.bitBuf i = S i

/-! ## The order of checks -/

/-- The tests of R225, steps 2 to 9, in their order: whether the test applies to the command and fails,
the code it reports and what `ERRINFO` takes. -/
def checkTable (i : Instr) (s : State) : List (Bool × BitVec 8 × Nat) :=
  [ ((match i with | .setlsb pos => pos != 0 | .getlsb pos => pos != 0 | _ => false), 4, 0),
    ((match i with | .setlsb _ => true | .getlsb _ => true | _ => false) && decide (s.arg0 > 255), 5, 0),
    ((match i with | .setlsb _ => true | _ => false) && decide (s.arg1 > 1), 3, 0),
    (decide (i ∈ [Instr.bytes2bits, Instr.text2bits]) &&
      decide (8 * s.bytelen ≥ 2 ^ (2 * s.dimBits)), 5, 0),
    (decide (i ∈ [Instr.extractH, Instr.extractV]) && decide (s.kreg = 0), 5, 0),
    (decide (i ∈ [Instr.embedD, Instr.extractD, Instr.extractnD]) && decide (s.imgW ≠ s.imgH), 1, 0),
    (decide (i ∈ [Instr.embedH, Instr.embedV]) && decide (s.bitlen > s.imgW * s.imgH), 2,
      s.imgW * s.imgH),
    (decide (i = Instr.embedD) && decide (s.bitlen > min s.imgW s.imgH), 2, min s.imgW s.imgH),
    (decide (i ∈ [Instr.extractnH, Instr.extractnV]) && decide (s.nwin > s.imgW * s.imgH), 2,
      s.imgW * s.imgH),
    (decide (i = Instr.extractnD) && decide (s.nwin > min s.imgW s.imgH), 2, min s.imgW s.imgH),
    (decide (i ∈ [Instr.addrH, Instr.addrV]) && decide (s.arg0 ≥ s.imgW * s.imgH), 5, 0),
    (decide (i = Instr.addrD) && decide (s.arg0 ≥ min s.imgW s.imgH), 5, 0) ]

/-- The code and the report of the first test that fails; `(0, 0)` where none does (R225, R220). -/
def firstFailure (i : Instr) (s : State) : BitVec 8 × Nat :=
  match (checkTable i s).find? (fun row => row.1) with
  | some (_, code, info) => (code, info)
  | none => (0, 0)

/-! ## What a command's outcome may depend on -/

/-- Two states agree on everything R37 marks as read by the command `i`: the registers, the valid part of
a buffer it reads, and the part of `IMG` it can reach. -/
def AgreeOnReads (i : Instr) (s t : State) : Prop :=
  let shape := s.imgW = t.imgW ∧ s.imgH = t.imgH
  let bitSeq := s.bitlen = t.bitlen ∧ ∀ k < s.bitlen, readBitBuf s.bitBuf k = readBitBuf t.bitBuf k
  let byteSeq := s.bytelen = t.bytelen ∧ ∀ k < s.bytelen, readByteBuf s.byteBuf k = readByteBuf t.byteBuf k
  let image := ShapeHonest s ∧ ShapeHonest t ∧
    ∀ x < s.imgW, ∀ y < s.imgH, ∀ c < 3, imgByte s x y c = imgByte t x y c
  match i with
  | .bytes2bits => s.dimBits = t.dimBits ∧ byteSeq
  | .text2bits => s.dimBits = t.dimBits ∧ byteSeq
  | .bits2bytes => bitSeq
  | .bits2text => bitSeq
  | .setlsb _ => s.arg0 = t.arg0 ∧ s.arg1 = t.arg1
  | .getlsb _ => s.arg0 = t.arg0
  | .addrH => shape ∧ s.arg0 = t.arg0
  | .addrV => shape ∧ s.arg0 = t.arg0
  | .addrD => shape ∧ s.arg0 = t.arg0
  | .capH => shape
  | .capV => shape
  | .capD => shape
  | .embedH => shape ∧ bitSeq ∧ image
  | .embedV => shape ∧ bitSeq ∧ image
  | .embedD => shape ∧ bitSeq ∧ image
  | .extractH => shape ∧ s.kreg = t.kreg ∧ image
  | .extractV => shape ∧ s.kreg = t.kreg ∧ image
  | .extractD => shape ∧ image
  | .extractnH => shape ∧ s.nwin = t.nwin ∧ image
  | .extractnV => shape ∧ s.nwin = t.nwin ∧ image
  | .extractnD => shape ∧ s.nwin = t.nwin ∧ image

/-- Two states agree on a place a command has written: a register's value, the valid part of a buffer,
the bytes of the image the registers describe. -/
def AgreeOnPlace (s t : State) : Place → Prop
  | .bitlen => s.bitlen = t.bitlen
  | .bytelen => s.bytelen = t.bytelen
  | .res0 => s.res0 = t.res0
  | .res1 => s.res1 = t.res1
  | .res2 => s.res2 = t.res2
  | .bitbuf => ∀ k < s.bitlen, readBitBuf s.bitBuf k = readBitBuf t.bitBuf k
  | .bytebuf => ∀ k < s.bytelen, readByteBuf s.byteBuf k = readByteBuf t.byteBuf k
  | .img => ∀ x < s.imgW, ∀ y < s.imgH, ∀ c < 3, imgByte s x y c = imgByte t x y c

/-! ## The host port -/

/-- The width of an `RW` register, by its index; `none` for the others (R21). -/
def rwWidth (dimBits : Nat) (idx : BitVec 4) : Option Nat :=
  if idx ∈ [0x4#4, 0x5#4] then some dimBits
  else if idx = 0x6#4 then some 8
  else if idx ∈ [0x7#4, 0x8#4, 0x9#4, 0xA#4, 0xB#4] then some (2 * dimBits)
  else none

/-! ## The invariant -/

/-- What holds of the machine between two host statements: idle, a legal `STATUS`, every register within
its width (R10, R21), a legal error code, and the three stores in canonical form. -/
structure Inv (s : State) : Prop where
  status : s.status ∈ [0x00#8, 0x02#8, 0x04#8, 0x0A#8, 0x12#8, 0x1A#8]
  phase : s.phase = .idle
  errcode : s.errcode.toNat ≤ 5
  errFlag : s.status = 0x04#8 ↔ s.errcode ≠ 0
  errinfoZero : s.errcode ≠ 2 → s.errinfo = 0
  dimBits : 1 ≤ s.dimBits
  imgW : s.imgW < 2 ^ s.dimBits
  imgH : s.imgH < 2 ^ s.dimBits
  errinfo : s.errinfo < 2 ^ (2 * s.dimBits)
  nwin : s.nwin < 2 ^ (2 * s.dimBits)
  bitlen : s.bitlen < 2 ^ (2 * s.dimBits)
  bytelen : s.bytelen < 2 ^ (2 * s.dimBits)
  arg0 : s.arg0 < 2 ^ (2 * s.dimBits)
  arg1 : s.arg1 < 2 ^ (2 * s.dimBits)
  res0 : s.res0 < 2 ^ (2 * s.dimBits)
  res1 : s.res1 < 2 ^ (2 * s.dimBits)
  res2 : s.res2 < 2 ^ (2 * s.dimBits)
  offs : s.offs < 2 ^ (2 * s.dimBits)
  runLen : s.runLen ≤ s.offs
  curX : s.curX < 2 ^ s.dimBits
  curY : s.curY < 2 ^ s.dimBits
  curC : s.curC.toNat < 3
  bitCells : Memory.wf s.bitBuf.cells
  byteCells : Memory.wf s.byteBuf.cells
  imgCells : Memory.wf s.img.cells
  imgKeys : ∀ p ∈ s.img.cells, p.1 < 3 * s.img.width * s.img.height

end Sys2Proof.Safety
end

