-- ==== Sys2Proof/Certificates/Slice0/Obligations.lean ====
section
/-! DEFINITION. The statements about the codec, from the numbered rules of spec/. Every statement holds for
every value of the free values (Config.lean) and of the parameter `DIM_BITS`. -/

open Sys2Proof Sys2Proof.Machine Sys2Proof.Safety

/-! ## Command words -/

/-- Decode and encode agree: the word of a well-formed command decodes to it (30_encoding R91 to R93). -/
def Obligations.EncodedCommandsDecodeBack : Prop :=
  ∀ i : Instr, i.wellFormed = true → decode (encode i) = .instr i

/-- A word that names a command is that command's word: no other word names it (R91: every word names
exactly one command or is refused). -/
def Obligations.DecodedWordsReencode : Prop :=
  ∀ (w : CmdWord) (i : Instr), decode w = .instr i → i.wellFormed = true ∧ encode i = w

/-- A few words written out from R92 and V20 decode to what they stand for. -/
def Obligations.SampleWordsDecode : Prop :=
  decode 0x1000#16 = .instr .bytes2bits ∧ decode 0x5003#16 = .instr (.setlsb 3) ∧
  decode 0x7800#16 = .instr .addrD ∧ decode 0x8400#16 = .instr .capV ∧
  decode 0x9000#16 = .instr .embedH ∧ decode 0xA400#16 = .instr .extractV ∧
  decode 0xB800#16 = .instr .extractnD ∧ decode 0x9C00#16 = .bad .reservedDir ∧
  decode 0x5401#16 = .bad .unusedDir ∧ decode 0x0000#16 = .bad .reservedOp

/-- The host's write of any word (R97, R91): a word that fails one of tests 1 to 5 ends with
`IllegalOperand`, else one that fails test 6 ends with `InvalidPosition`, each changing nothing but `CMD`,
`STATUS`, `ERRCODE`, `ERRINFO`; every other word is one of the 21 legal words and runs its command. -/
def Obligations.DecodeTestsDecideTheWord : Prop :=
  ∀ (w : CmdWord) (s : State),
    let op := w.toNat / 4096
    let dir := w.toNat / 1024 % 4
    let fmt := w.toNat / 512 % 2
    let rsv := w.toNat / 8 % 64
    let pos := w.toNat % 8
    let usesDir := 7 ≤ op ∧ op ≤ 11
    let usesPos := op = 5 ∨ op = 6
    let refused := op = 0 ∨ 12 ≤ op ∨ fmt ≠ 0 ∨ rsv ≠ 0 ∨ (¬ usesDir ∧ dir ≠ 0) ∨
      (¬ usesPos ∧ pos ≠ 0) ∨ (usesDir ∧ dir = 3)
    (refused →
      ∃ t, issue w s = .next t ∧ EndsInError t 5 0 ∧ FrameExcept [] { s with cmd := w } t) ∧
    (¬ refused ∧ pos ≠ 0 →
      ∃ t, issue w s = .next t ∧ EndsInError t 4 0 ∧ FrameExcept [] { s with cmd := w } t) ∧
    (¬ refused ∧ pos = 0 →
      w.toNat ∈ legalWords ∧ ∃ i, decode w = .instr i ∧ issue w s = exec i { s with cmd := w })

/-! ## The step -/

/-- A step whose next host statement writes a word to `CMD` issues that word on the state with the statement
taken: a word that decodes runs its command (R22, R77, R240), a word that a decode test refuses ends with
`IllegalOperand` and changes nothing but `CMD`, `STATUS`, `ERRCODE`, `ERRINFO` (R97, R230). `withFetchWord`
places a word so. That the host's statements stand in the state is the model's choice (log entry 3). -/
def Obligations.StepRunsTheDecodedCommand : Prop :=
  (∀ (s : State) (v : Nat) (rest : List HostOp), s.busy = false → s.script = .writeReg 0 v :: rest →
    step s = issue (BitVec.ofNat 16 v) { s with script := rest } ∧
    (∀ i, decode (BitVec.ofNat 16 v) = .instr i →
      step s = exec i { s with script := rest, cmd := BitVec.ofNat 16 v }) ∧
    (∀ e, decode (BitVec.ofNat 16 v) = .bad e →
      ∃ t, step s = .next t ∧ EndsInError t 5 0 ∧
        FrameExcept [] { s with script := rest, cmd := BitVec.ofNat 16 v } t)) ∧
  (∀ (s : State) (w : CmdWord),
    step (s.withFetchWord 16 w.toNat) = issue w { s with status := s.status &&& 0xFE } ∧
    (∀ i, decode w = .instr i →
      step (s.withFetchWord 16 w.toNat) = exec i { s with status := s.status &&& 0xFE, cmd := w }))

/-- While `BUSY = 1` the host has no move: a pending access is stuck, and so is a reset (93 U12, U13,
70_reset R262, R270). That stuck is a named fault is the model's choice (log entry 13). -/
def Obligations.HostIsStuckWhileBusy : Prop :=
  ∀ (s : State) (op : HostOp) (rest : List HostOp), s.busy = true → s.script = op :: rest →
    step s = .fault (if op = .reset then .resetWhileBusy else .hostAccessWhileBusy)

/-- The idle block waits for the host (R262, R248): with no statement pending nothing changes. The model's
choice of a step that stays is log entry 3. -/
def Obligations.IdleBlockWaits : Prop :=
  ∀ s : State, s.busy = false → s.script = [] → step s = .next s

/-- The bit steps refine the atomic command (R240): from the state the `CMD` write of a word that decodes
starts, stepping the phases one at a time reaches the state `exec` gives, within `W × H + 2` steps. That a step
from `BUSY = 1` is one phase step, and that a command without bit steps is one such step, are the model's choices
(log entries 13 and 12). -/
def Obligations.PhaseStepsReachCommandEnd : Prop :=
  ∀ (s : State) (w : CmdWord) (i : Instr) (n : Nat), decode w = .instr i →
    s.imgW * s.imgH + 2 ≤ n →
    Host.Core.run Sys2Proof.core n (startCommand { s with cmd := w, script := [] }) =
      exec i { s with cmd := w, script := [] }

/-- Every command ends (R240, R28): there is always a next state, idle, with exactly one of `DONE` and `ERR`
set and the bits 7:5 of `STATUS` zero. -/
def Obligations.EveryCommandEndsIdle : Prop :=
  ∀ (i : Instr) (s : State), ∃ t, exec i s = .next t ∧ t.busy = false ∧ t.phase = .idle ∧
    t.done = !t.err ∧ t.status.toNat < 32

/-- What the start of a command clears, and that it keeps every other register, the buffers and the image
(R45, R39, R260). That `CURX`, `CURY`, `CURC` and `PIX` are cleared with the working registers that R45 lists is
log entry 10 (DEDUCED). -/
def Obligations.StartClearsOutcomeAndWorking : Prop :=
  ∀ s : State, (startCommand s).status = 0x01 ∧ (startCommand s).errcode = 0 ∧
    (startCommand s).errinfo = 0 ∧ (startCommand s).phase = .check ∧ WorkingCleared (startCommand s) ∧
    FrameExcept [] s (startCommand s)

/-! ## Reset -/

/-- After reset, at power-on or by the reset input, every register reads `0`, the working registers are `0`
and the phase is `IDLE` (R260). -/
def Obligations.ResetRegistersZero : Prop :=
  ∀ t : State, (t = State.reset ∨
      ∃ (s : State) (rest : List HostOp), s.busy = false ∧ s.script = .reset :: rest ∧ step s = .next t) →
    (∀ idx : BitVec 4, hostReadReg idx t = 0) ∧ WorkingCleared t ∧ t.phase = .idle

/-- The reset input leaves the image alone and leaves no element of a buffer specified (R261). That it keeps the
parameter `DIM_BITS` is the model's choice (log entry 14). -/
def Obligations.ResetLeavesImageAlone : Prop :=
  ∀ (s : State) (rest : List HostOp), s.busy = false → s.script = .reset :: rest →
    ∃ t, step s = .next t ∧ t.img = s.img ∧ t.bitlen = 0 ∧ t.bytelen = 0 ∧ t.dimBits = s.dimBits ∧
      ∀ k, Memory.get? t.bitBuf.cells k = none ∧ Memory.get? t.byteBuf.cells k = none

/-- Every command from the reset state (R264, V22): its `STATUS`, its `ERRCODE`, and that it produces
nothing. -/
def Obligations.CommandsFromReset : Prop :=
  ∀ row ∈ [(Instr.bytes2bits, 0x02#8, 0#8), (.text2bits, 0x02, 0), (.bits2bytes, 0x02, 0),
      (.bits2text, 0x02, 0), (.setlsb 0, 0x02, 0), (.getlsb 0, 0x02, 0), (.addrH, 0x04, 5),
      (.addrV, 0x04, 5), (.addrD, 0x04, 5), (.capH, 0x02, 0), (.capV, 0x02, 0), (.capD, 0x02, 0),
      (.embedH, 0x02, 0), (.embedV, 0x02, 0), (.embedD, 0x02, 0), (.extractH, 0x04, 5),
      (.extractV, 0x04, 5), (.extractD, 0x0A, 0), (.extractnH, 0x0A, 0), (.extractnV, 0x0A, 0),
      (.extractnD, 0x0A, 0)],
    ∃ t, exec row.1 State.reset = .next t ∧ t.status = row.2.1 ∧ t.errcode = row.2.2 ∧
      t.errinfo = 0 ∧ t.bitlen = 0 ∧ t.bytelen = 0 ∧ t.res0 = 0 ∧ t.img = State.reset.img

/-! ## The invariant -/

/-- The invariant holds after reset; at the model's `DIM_BITS = 16` (log entry 1). -/
def Obligations.ResetSatisfiesInv : Prop := Inv State.reset

/-- Every step keeps the invariant: the machine is idle between host statements, `STATUS` and `ERRCODE` are
legal, every register stays within its width (R10: nothing wraps), the stores stay canonical. The widths as an
invariant over numbers and the canonical stores are the model's choice (log entries 2 and 9). -/
def Obligations.EveryStepKeepsInv : Prop :=
  ∀ s t : State, Inv s → step s = .next t → Inv t

/-! ## bit_sequence_generator -/

/-- `BYTES2BITS` and `TEXT2BITS` (R121, R122): each byte becomes eight bits, MSB first, and a length that
`BITLEN` cannot hold is refused. That the hidden working registers are after the command as its start left them,
also after a refusal, rests on log entries 10 and 16 (DEDUCED). -/
def Obligations.BytesToBitsResult : Prop :=
  decode 0x1000#16 = .instr .bytes2bits ∧ decode 0x2000#16 = .instr .text2bits ∧
  ∀ (i : Instr) (s : State), i ∈ [Instr.bytes2bits, Instr.text2bits] →
    (8 * s.bytelen < 2 ^ (2 * s.dimBits) →
      ∃ t, exec i s = .next t ∧ EndsDone t false false ∧ WorkingCleared t ∧
        FrameExcept [.bitlen, .bitbuf] s t ∧ t.bitlen = 8 * s.bytelen ∧
        ∀ j < s.bytelen, ∀ k < 8,
          readBitBuf t.bitBuf (8 * j + k) = (readByteBuf s.byteBuf j).getLsbD (7 - k)) ∧
    (2 ^ (2 * s.dimBits) ≤ 8 * s.bytelen → FailsWith i s 5 0)

/-- `BITS2BYTES` (R123): `ceil8(BITLEN)` bytes, bit `k` of byte `j` being bit `8j + k` of the sequence, or `0`
past its end. That the hidden working registers are after the command as its start left them rests on log
entries 10 and 16 (DEDUCED). -/
def Obligations.BitsToBytesResult : Prop :=
  decode 0x3000#16 = .instr .bits2bytes ∧
  ∀ s : State, ∃ t, exec .bits2bytes s = .next t ∧ EndsDone t false false ∧ WorkingCleared t ∧
    FrameExcept [.bytelen, .bytebuf] s t ∧ t.bytelen = (s.bitlen + 7) / 8 ∧
    ∀ j < (s.bitlen + 7) / 8, ∀ k < 8, (readByteBuf t.byteBuf j).getLsbD (7 - k) =
      if 8 * j + k < s.bitlen then readBitBuf s.bitBuf (8 * j + k) else false

/-- `BITS2TEXT` (R124): `floor8(BITLEN)` codes; the last `BITLEN mod 8` bits are dropped. That the hidden
working registers are after the command as its start left them rests on log entries 10 and 16 (DEDUCED). -/
def Obligations.BitsToTextResult : Prop :=
  decode 0x4000#16 = .instr .bits2text ∧
  ∀ s : State, ∃ t, exec .bits2text s = .next t ∧ EndsDone t false false ∧ WorkingCleared t ∧
    FrameExcept [.bytelen, .bytebuf] s t ∧ t.bytelen = s.bitlen / 8 ∧
    ∀ j < s.bitlen / 8, ∀ k < 8,
      (readByteBuf t.byteBuf j).getLsbD (7 - k) = readBitBuf s.bitBuf (8 * j + k)

/-- The round-trip law of the codec (R125): bytes to bits and back, with either command each way, gives the
bytes back, for every sequence `BYTES2BITS` accepts. The byte sequence is cleared between the two commands, so that
what is read back is what the second one wrote. -/
def Obligations.BytesSurviveRoundTrip : Prop :=
  ∀ (c1 c2 : Instr) (s : State), c1 ∈ [Instr.bytes2bits, Instr.text2bits] →
    c2 ∈ [Instr.bits2bytes, Instr.bits2text] → 8 * s.bytelen < 2 ^ (2 * s.dimBits) →
    ∃ t u, exec c1 s = .next t ∧
      exec c2 { t with bytelen := 0, byteBuf := State.reset.byteBuf } = .next u ∧
      u.bytelen = s.bytelen ∧
      ∀ j < s.bytelen, readByteBuf u.byteBuf j = readByteBuf s.byteBuf j

/-- The two decodings differ only on a ragged tail (R126): the elements `BITS2TEXT` yields agree, and for a
ragged length `BITS2BYTES` yields one more, the last `r` bits followed by zeros. -/
def Obligations.DecodingsDifferOnRaggedTail : Prop :=
  ∀ s : State, ∃ t u, exec .bits2bytes s = .next t ∧ exec .bits2text s = .next u ∧
    (∀ j < u.bytelen, readByteBuf t.byteBuf j = readByteBuf u.byteBuf j) ∧
    (s.bitlen % 8 = 0 → t.bytelen = u.bytelen) ∧
    (s.bitlen % 8 ≠ 0 → t.bytelen = u.bytelen + 1 ∧
      ∀ k < 8, (readByteBuf t.byteBuf u.bytelen).getLsbD (7 - k) =
        if k < s.bitlen % 8 then readBitBuf s.bitBuf (s.bitlen - s.bitlen % 8 + k) else false)

/-! ## channel_bit_packer -/

/-- `SETLSB` (R141): the result and the three refusals in the order tested. That the hidden working registers
are after the command as its start left them, also after a refusal, rests on log entries 10 and 16 (DEDUCED).
That a word with `POS` not 0 decodes to the command, which then refuses it, is log entry 18 (DEDUCED). -/
def Obligations.SetlsbResult : Prop :=
  (∀ pos : BitVec 3, decode (0x5000#16 ||| pos.zeroExtend 16) = .instr (.setlsb pos.toNat)) ∧
  ∀ (pos : Nat) (s : State),
    (pos = 0 → s.arg0 ≤ 255 → s.arg1 ≤ 1 →
      ∃ t, exec (.setlsb pos) s = .next t ∧ EndsDone t false false ∧ WorkingCleared t ∧
        FrameExcept [.res0] s t ∧ t.res0 = s.arg0 / 2 * 2 + s.arg1) ∧
    (pos ≠ 0 → FailsWith (.setlsb pos) s 4 0) ∧
    (pos = 0 → 255 < s.arg0 → FailsWith (.setlsb pos) s 5 0) ∧
    (pos = 0 → s.arg0 ≤ 255 → 1 < s.arg1 → FailsWith (.setlsb pos) s 3 0)

/-- `GETLSB` (R142): the result and the two refusals in the order tested. That the hidden working registers are
after the command as its start left them, also after a refusal, rests on log entries 10 and 16 (DEDUCED). That a
word with `POS` not 0 decodes to the command, which then refuses it, is log entry 18 (DEDUCED). -/
def Obligations.GetlsbResult : Prop :=
  (∀ pos : BitVec 3, decode (0x6000#16 ||| pos.zeroExtend 16) = .instr (.getlsb pos.toNat)) ∧
  ∀ (pos : Nat) (s : State),
    (pos = 0 → s.arg0 ≤ 255 →
      ∃ t, exec (.getlsb pos) s = .next t ∧ EndsDone t false false ∧ WorkingCleared t ∧
        FrameExcept [.res0] s t ∧ t.res0 = s.arg0 % 2) ∧
    (pos ≠ 0 → FailsWith (.getlsb pos) s 4 0) ∧
    (pos = 0 → 255 < s.arg0 → FailsWith (.getlsb pos) s 5 0)

/-- The laws of the pair (R143). -/
def Obligations.LsbLaws : Prop :=
  ∀ (v : Byte) (b b' : Bit),
    getLsb (setLsb v b) = b ∧ setLsb v (getLsb v) = v ∧ setLsb (setLsb v b) b = setLsb v b ∧
    setLsb (setLsb v b) b' = setLsb v b' ∧ (setLsb v b).toNat / 2 = v.toNat / 2 ∧
    ((setLsb v b).toNat : Int) - v.toNat ∈ [-1, 0, 1] ∧ (setLsb v b = v ↔ v.getLsbD 0 = b) ∧
    (setLsb v b).toNat ≤ 255

/-! ## pixel_address_mapper -/

/-- `ADDR` (R150 to R153, R160): the coordinate and the channel of a legal offset, and the refusal of an offset
at or beyond the capacity. There is no shape check. That the hidden working registers are after the command as
its start left them, also after a refusal, rests on log entries 10 and 16 (DEDUCED). -/
def Obligations.AddrResult : Prop :=
  decode 0x7000#16 = .instr .addrH ∧ decode 0x7400#16 = .instr .addrV ∧
  decode 0x7800#16 = .instr .addrD ∧ decode 0x7C00#16 = .bad .reservedDir ∧
  ∀ s : State,
    (s.arg0 < s.imgW * s.imgH →
      (∃ t, exec .addrH s = .next t ∧ EndsDone t false false ∧ WorkingCleared t ∧
        FrameExcept [.res0, .res1, .res2] s t ∧
        t.res0 = s.arg0 % s.imgW ∧ t.res1 = s.arg0 / s.imgW ∧ t.res2 = s.arg0 % 3) ∧
      (∃ t, exec .addrV s = .next t ∧ EndsDone t false false ∧ WorkingCleared t ∧
        FrameExcept [.res0, .res1, .res2] s t ∧
        t.res0 = s.arg0 / s.imgH ∧ t.res1 = s.arg0 % s.imgH ∧ t.res2 = s.arg0 % 3)) ∧
    (s.arg0 < min s.imgW s.imgH →
      ∃ t, exec .addrD s = .next t ∧ EndsDone t false false ∧ WorkingCleared t ∧
        FrameExcept [.res0, .res1, .res2] s t ∧
        t.res0 = s.arg0 ∧ t.res1 = s.arg0 ∧ t.res2 = s.arg0 % 3) ∧
    (s.imgW * s.imgH ≤ s.arg0 → FailsWith .addrH s 5 0 ∧ FailsWith .addrV s 5 0) ∧
    (min s.imgW s.imgH ≤ s.arg0 → FailsWith .addrD s 5 0)

/-- `CAP` (R154): the capacity in bits; no error and no shape check. That the hidden working registers are after
the command as its start left them rests on log entries 10 and 16 (DEDUCED). -/
def Obligations.CapResult : Prop :=
  decode 0x8000#16 = .instr .capH ∧ decode 0x8400#16 = .instr .capV ∧
  decode 0x8800#16 = .instr .capD ∧ decode 0x8C00#16 = .bad .reservedDir ∧
  ∀ (s : State) (i : Instr) (c : Nat),
    (i, c) ∈ [(Instr.capH, s.imgW * s.imgH), (Instr.capV, s.imgW * s.imgH),
      (Instr.capD, min s.imgW s.imgH)] →
    ∃ t, exec i s = .next t ∧ EndsDone t false false ∧ WorkingCleared t ∧
      FrameExcept [.res0] s t ∧ t.res0 = c

/-- Every offset below the capacity maps inside the image (R157). -/
def Obligations.MappingStaysInImage : Prop :=
  ∀ (d : Direction) (i w h : Nat), i < cap d w h →
    (addr d i w h).x < w ∧ (addr d i w h).y < h ∧ (addr d i w h).c ≤ 2

/-- No two offsets below the capacity visit the same pixel, and the mappings are onto: the horizontal and the
vertical one onto the image, the diagonal one onto the pixels `(t, t)` (R158). -/
def Obligations.MappingVisitsEachPixelOnce : Prop :=
  (∀ (d : Direction) (i j w h : Nat), i < cap d w h → j < cap d w h →
    (addr d i w h).x = (addr d j w h).x → (addr d i w h).y = (addr d j w h).y → i = j) ∧
  (∀ (d : Direction) (w h x y : Nat), d ≠ .diagonal → x < w → y < h →
    ∃ i < cap d w h, (addr d i w h).x = x ∧ (addr d i w h).y = y) ∧
  (∀ w h t : Nat, t < min w h →
    ∃ i < cap .diagonal w h, (addr .diagonal i w h).x = t ∧ (addr .diagonal i w h).y = t)

/-! ## embed_sequencer -/

/-- A successful `EMBED` (R175): it completes whenever its two checks pass, makes `BITLEN` bit steps, sets the
LSB of the byte each offset maps to, and changes no other byte of the image that is there. That `OFFS`, `RUNLEN`
and `RUNVAL` keep after the command what its last step left in them is log entry 16 (DEDUCED); that bytes not
mapped to keep their value also where the registers overstate the image rests on log entry 8, the lost write
outside the true image (U16). -/
def Obligations.EmbedResult : Prop :=
  ∀ (i : Instr) (d : Direction) (s : State), (i, d) ∈ embeds → ShapeOk d s → s.bitlen ≤ s.cap d →
    ∃ t, exec i s = .next t ∧ EndsDone t false false ∧ t.offs = s.bitlen ∧ t.runLen = 0 ∧
      t.runVal = false ∧ FrameExcept [.img] s t ∧
      t.img.width = s.img.width ∧ t.img.height = s.img.height ∧
      (ShapeHonest s → ∀ k < s.bitlen,
        (offsetByte d t k).toNat =
            (offsetByte d s k).toNat / 2 * 2 + (readBitBuf s.bitBuf k).toNat ∧
        ∀ l < s.bitlen, s.addr d l = s.addr d k → l = k) ∧
      (∀ x y c, IsImgByte s x y c →
        (∀ k < s.bitlen, s.addr d k ≠ { x := x, y := y, c := c }) → imgByte t x y c = imgByte s x y c)

/-- The refusals of `EMBED` (R171, R172): the shape is checked first, then the capacity, which is reported in
bits; nothing is written. Nothing else changes (R230); that the hidden working registers are as the start of the
command left them (R39, R45, R260) rests on log entries 10 and 16 (DEDUCED). -/
def Obligations.EmbedRefusals : Prop :=
  ∀ (i : Instr) (d : Direction) (s : State), (i, d) ∈ embeds →
    (¬ ShapeOk d s → FailsWith i s 1 0) ∧
    (ShapeOk d s → s.cap d < s.bitlen → FailsWith i s 2 (s.cap d))

/-- LSB-only mutation (R176): whatever an `EMBED` ends with, bits 7 to 1 of every byte of the image are
unchanged, and at most one byte of a pixel changes. Where the registers overstate the image (U16) this rests on
the model's choice that a write outside the true image is lost: log entry 8. -/
def Obligations.EmbedTouchesOnlyLsbs : Prop :=
  ∀ (i : Instr) (d : Direction) (s t : State), (i, d) ∈ embeds → exec i s = .next t →
    (∀ x y c, IsImgByte s x y c → (imgByte t x y c).toNat / 2 = (imgByte s x y c).toNat / 2) ∧
    (∀ x y c c', IsImgByte s x y c → IsImgByte s x y c' → imgByte t x y c ≠ imgByte s x y c →
      imgByte t x y c' ≠ imgByte s x y c' → c = c')

/-- No terminator (R174): the LSB at offset `BITLEN` and at every later one keeps the cover's value. -/
def Obligations.EmbedWritesNoTerminator : Prop :=
  ∀ (i : Instr) (d : Direction) (s t : State), (i, d) ∈ embeds → ShapeHonest s →
    exec i s = .next t → ∀ k, s.bitlen ≤ k → k < s.cap d → stream d t k = stream d s k

/-! ## extract_sequencer: the known-length window -/

/-- `EXTRACTN` (R202): the window's bits in traversal order, or one of its two refusals. That `OFFS` keeps its
last value after the command, and the working registers after a refusal, rest on log entries 16 and 10
(DEDUCED). -/
def Obligations.ExtractnResult : Prop :=
  decode 0xB000#16 = .instr .extractnH ∧ decode 0xB400#16 = .instr .extractnV ∧
  decode 0xB800#16 = .instr .extractnD ∧ decode 0xBC00#16 = .bad .reservedDir ∧
  ∀ (i : Instr) (d : Direction) (s : State), (i, d) ∈ extractns →
    (ShapeOk d s → s.nwin ≤ s.cap d →
      ∃ t, exec i s = .next t ∧ EndsDone t (s.nwin == 0) false ∧ t.offs = s.nwin ∧
        FrameExcept [.bitlen, .bitbuf] s t ∧ t.bitlen = s.nwin ∧
        (ShapeHonest s → HoldsPrefix t (stream d s) s.nwin)) ∧
    (¬ ShapeOk d s → FailsWith i s 1 0) ∧
    (ShapeOk d s → s.cap d < s.nwin → FailsWith i s 2 (s.cap d))

/-- What an extraction reads after an `EMBED` (R177): the LSB at every embedded offset is the payload bit, and
`EXTRACTN` of `BITLEN` bits in the same direction gives the embedded bit sequence back. The bit sequence is
cleared before it (95 P1 step 6), so that what is read back comes from the image. -/
def Obligations.KnownLengthReadsBackPayload : Prop :=
  ∀ (e x : Instr) (d : Direction) (s : State), (e, x, d) ∈ embedExtractPairs → ShapeOk d s →
    ShapeHonest s → s.bitlen ≤ s.cap d →
    ∃ t u, exec e s = .next t ∧ (∀ k < s.bitlen, stream d t k = readBitBuf s.bitBuf k) ∧
      exec x { t with nwin := s.bitlen, bitlen := 0, bitBuf := State.reset.bitBuf } = .next u ∧
      HoldsPrefix u (readBitBuf s.bitBuf) s.bitlen

/-- The round trip of a payload (30_encoding R102, V10): `BYTES2BITS`, `EMBED`, then `EXTRACTN` of as many bits
and `BITS2BYTES` give every byte of the payload back, in every direction that has room. Both sequences are
cleared after the `EMBED`, so that what is read back comes from the image. -/
def Obligations.PayloadSurvivesEmbedding : Prop :=
  ∀ (e x : Instr) (d : Direction) (s : State), (e, x, d) ∈ embedExtractPairs → ShapeOk d s →
    ShapeHonest s → 8 * s.bytelen ≤ s.cap d → 8 * s.bytelen < 2 ^ (2 * s.dimBits) →
    ∃ t1 t2 t3 t4, exec .bytes2bits s = .next t1 ∧ exec e t1 = .next t2 ∧
      exec x { t2 with
        nwin := 8 * s.bytelen, bitlen := 0, bitBuf := State.reset.bitBuf
        bytelen := 0, byteBuf := State.reset.byteBuf } = .next t3 ∧
      exec .bits2bytes t3 = .next t4 ∧ t4.bytelen = s.bytelen ∧
      ∀ j < s.bytelen, readByteBuf t4.byteBuf j = readByteBuf s.byteBuf j

/-! ## extract_sequencer: the scan -/

/-- `EXTRACT.h` and `EXTRACT.v` complete for every legal threshold (R190), whatever the image holds; they write
the bit sequence and nothing else (R201), after at most `W × H` bit steps (R280). That `OFFS` keeps after the
command what its last step left in it is log entry 16 (DEDUCED). -/
def Obligations.ScanCompletes : Prop :=
  ∀ (i : Instr) (d : Direction) (s : State), (i, d) ∈ scans → s.kreg ≠ 0 →
    ∃ t empty term, exec i s = .next t ∧ EndsDone t empty term ∧
      FrameExcept [.bitlen, .bitbuf] s t ∧ t.offs ≤ s.imgW * s.imgH ∧ t.bitlen ≤ t.offs ∧
      t.img = s.img

/-- No bit read (R196): on an empty image the scan yields the empty sequence without a trigger. That `OFFS`
keeps after the command what its last step left in it is log entry 16 (DEDUCED). -/
def Obligations.EmptyImageYieldsNothing : Prop :=
  ∀ (i : Instr) (d : Direction) (s : State), (i, d) ∈ scans → s.kreg ≠ 0 → s.imgW * s.imgH = 0 →
    ∃ t, exec i s = .next t ∧ EndsDone t true false ∧ t.bitlen = 0 ∧ t.offs = 0 ∧
      FrameExcept [.bitlen, .bitbuf] s t

/-- Exhaustion (R197): a scan that never triggers returns all `W × H` bits, and an image of fewer than `8 × (K +
1)` pixels can never trigger. That `OFFS` keeps after the command what its last step left in it is log entry 16
(DEDUCED). -/
def Obligations.ExhaustedScanReturnsAll : Prop :=
  ∀ (i : Instr) (d : Direction) (s : State), (i, d) ∈ scans → s.kreg ≠ 0 → ShapeHonest s →
    ((∀ n ≤ s.imgW * s.imgH, ¬ WindowTrigger (stream d s) s.kreg.toNat n) →
      ∃ t, exec i s = .next t ∧ EndsDone t (s.imgW * s.imgH == 0) false ∧
        t.offs = s.imgW * s.imgH ∧ HoldsPrefix t (stream d s) (s.imgW * s.imgH)) ∧
    (s.imgW * s.imgH < 8 * (s.kreg.toNat + 1) →
      ∀ n ≤ s.imgW * s.imgH, ¬ WindowTrigger (stream d s) s.kreg.toNat n)

/-- The trigger (R194, R198, R199): the scan stops at the first count at which the last `8K` bits are all equal
and `8(K + 1)` bits have been read. It returns nothing if all bits read are equal, which can only happen at `8(K
+ 1)`, else all but the last `8K`; after `8(K + 1)` the run that stops it is exactly `8K` long. That `OFFS`
keeps after the command what its last step left in it is log entry 16 (DEDUCED). -/
def Obligations.ScanStopsAtFirstTrigger : Prop :=
  ∀ (i : Instr) (d : Direction) (s : State) (n : Nat), (i, d) ∈ scans → s.kreg ≠ 0 →
    ShapeHonest s → FirstTrigger (stream d s) s.kreg.toNat (s.imgW * s.imgH) n →
    ∃ t, exec i s = .next t ∧ t.offs = n ∧ FrameExcept [.bitlen, .bitbuf] s t ∧
      (AllEqual (stream d s) 0 n →
        EndsDone t true true ∧ t.bitlen = 0 ∧ n = 8 * (s.kreg.toNat + 1)) ∧
      (¬ AllEqual (stream d s) 0 n →
        EndsDone t false true ∧ HoldsPrefix t (stream d s) (n - 8 * s.kreg.toNat)) ∧
      (8 * (s.kreg.toNat + 1) < n →
        stream d s (n - 8 * s.kreg.toNat - 1) ≠ stream d s (n - 8 * s.kreg.toNat))

/-- The run counter and the window agree (R195): after `n` bit steps `RUNLEN` is the length of the longest
run of equal bits ending at the last one; it is at least `8K` exactly when the window test holds, and equal to
`n` exactly when all bits are the same. -/
def Obligations.RunCounterAgreesWithWindow : Prop :=
  ∀ (d : Direction) (s : State) (n : Nat),
    let t := (extractBitStep d)^[n] (startCommand s)
    let S := readBitBuf t.bitBuf
    t.runLen ≤ n ∧ AllEqual S (n - t.runLen) n ∧
    (∀ r ≤ n, AllEqual S (n - r) n → r ≤ t.runLen) ∧
    (∀ k ≥ 1, 8 * k ≤ n → (AllEqual S (n - 8 * k) n ↔ 8 * k ≤ t.runLen)) ∧
    (AllEqual S 0 n ↔ t.runLen = n)

/-- The empty-extraction property (R209): an image whose first `8(K + 1)` LSBs are all equal yields "no data
found"; on an image too small for them the scan returns all of it instead. -/
def Obligations.UniformStartYieldsNothing : Prop :=
  ∀ (i : Instr) (d : Direction) (s : State), (i, d) ∈ scans → s.kreg ≠ 0 → ShapeHonest s →
    (8 * (s.kreg.toNat + 1) ≤ s.imgW * s.imgH →
      AllEqual (stream d s) 0 (8 * (s.kreg.toNat + 1)) →
      ∃ t, exec i s = .next t ∧ EndsDone t true true ∧ t.bitlen = 0) ∧
    (s.imgW * s.imgH < 8 * (s.kreg.toNat + 1) →
      ∃ t, exec i s = .next t ∧ t.term = false ∧ t.bitlen = s.imgW * s.imgH)

/-- The termination property with its true preconditions (R204 special case, R208): a payload of `N` bits
followed by at least `8(K + 1)` zeros, its last `1` at index `e - 1`, with no earlier trigger. -/
def Obligations.PayloadThenZerosIsRecovered : Prop :=
  ∀ (i : Instr) (d : Direction) (s : State) (N e : Nat), (i, d) ∈ scans → s.kreg ≠ 0 →
    ShapeHonest s → N + 8 * (s.kreg.toNat + 1) ≤ s.imgW * s.imgH → e ≤ N →
    (∀ k < s.imgW * s.imgH, e ≤ k → stream d s k = false) →
    (0 < e → stream d s (e - 1) = true) →
    (∀ n < max (e + 8 * s.kreg.toNat) (8 * s.kreg.toNat + 8),
      ¬ WindowTrigger (stream d s) s.kreg.toNat n) →
    ∃ t, exec i s = .next t ∧ t.term = true ∧
      (e = 0 → t.empty = true ∧ t.bitlen = 0) ∧
      (0 < e → e < 8 → t.empty = false ∧ HoldsPrefix t (stream d s) 8) ∧
      (8 ≤ e → t.empty = false ∧ HoldsPrefix t (stream d s) e)

/-- The same with a tail of ones (R204: `Z` all ones, `z` counting trailing one bits): the payload's last `0`
at index `e - 1`, with no earlier trigger. -/
def Obligations.PayloadThenOnesIsRecovered : Prop :=
  ∀ (i : Instr) (d : Direction) (s : State) (N e : Nat), (i, d) ∈ scans → s.kreg ≠ 0 →
    ShapeHonest s → N + 8 * (s.kreg.toNat + 1) ≤ s.imgW * s.imgH → e ≤ N →
    (∀ k < s.imgW * s.imgH, e ≤ k → stream d s k = true) →
    (0 < e → stream d s (e - 1) = false) →
    (∀ n < max (e + 8 * s.kreg.toNat) (8 * s.kreg.toNat + 8),
      ¬ WindowTrigger (stream d s) s.kreg.toNat n) →
    ∃ t, exec i s = .next t ∧ t.term = true ∧
      (e = 0 → t.empty = true ∧ t.bitlen = 0) ∧
      (0 < e → e < 8 → t.empty = false ∧ HoldsPrefix t (stream d s) 8) ∧
      (8 ≤ e → t.empty = false ∧ HoldsPrefix t (stream d s) e)

/-- When the result is exactly the payload (R208): a payload of `N` bits with a last `1` at index `e - 1`,
followed by at least `8(K + 1)` zeros, is returned bit for bit if and only if nothing triggers early and either
`N ≥ 8` and its last bit is `1`, or `N = 8`. -/
def Obligations.PayloadIsReturnedExactlyWhen : Prop :=
  ∀ (i : Instr) (d : Direction) (s : State) (N e : Nat), (i, d) ∈ scans → s.kreg ≠ 0 →
    ShapeHonest s → N + 8 * (s.kreg.toNat + 1) ≤ s.imgW * s.imgH → 0 < e → e ≤ N →
    (∀ k < s.imgW * s.imgH, e ≤ k → stream d s k = false) → stream d s (e - 1) = true →
    ∃ t, exec i s = .next t ∧
      (HoldsPrefix t (stream d s) N ↔
        (∀ n < max (e + 8 * s.kreg.toNat) (8 * s.kreg.toNat + 8),
          ¬ WindowTrigger (stream d s) s.kreg.toNat n) ∧
        (8 ≤ N ∧ e = N ∨ N = 8))

/-- The payload at the level of bytes (R204, R208, R126): where `N` is a multiple of 8 and the last byte of the
payload is not zero, `BITS2BYTES` after the scan gives every byte back; `BITS2TEXT` does if the last bit is `1` or
`N = 8`, and otherwise loses the last byte. The tail is of zeros, with which `BITS2BYTES` pads (R123); a tail of
ones is log entry 22. -/
def Obligations.PayloadBytesAreRecovered : Prop :=
  ∀ (i : Instr) (d : Direction) (s : State) (N e : Nat), (i, d) ∈ scans → s.kreg ≠ 0 →
    ShapeHonest s → N + 8 * (s.kreg.toNat + 1) ≤ s.imgW * s.imgH → N % 8 = 0 → N - 8 < e → e ≤ N →
    (∀ k < s.imgW * s.imgH, e ≤ k → stream d s k = false) → stream d s (e - 1) = true →
    (∀ n < max (e + 8 * s.kreg.toNat) (8 * s.kreg.toNat + 8),
      ¬ WindowTrigger (stream d s) s.kreg.toNat n) →
    ∃ t u v, exec i s = .next t ∧
      exec .bits2bytes { t with bytelen := 0, byteBuf := State.reset.byteBuf } = .next u ∧
      exec .bits2text { t with bytelen := 0, byteBuf := State.reset.byteBuf } = .next v ∧
      u.bytelen = N / 8 ∧
      (∀ j < N / 8, ∀ k < 8,
        (readByteBuf u.byteBuf j).getLsbD (7 - k) = stream d s (8 * j + k)) ∧
      (e = N ∨ N = 8 → v.bytelen = N / 8) ∧
      (e ≠ N → N ≠ 8 → v.bytelen = N / 8 - 1) ∧
      (∀ j < v.bytelen, readByteBuf v.byteBuf j = readByteBuf u.byteBuf j)

/-- False termination (R205): `8K` equal bits ending at any count `n` from `8(K + 1)` on, inside the payload or
not, stop the scan at `n` or before; everything from `n - 8K` on is lost. That `OFFS` keeps after the command
what its last step left in it is log entry 16 (DEDUCED). -/
def Obligations.RunsCutThePayload : Prop :=
  ∀ (i : Instr) (d : Direction) (s : State) (n : Nat), (i, d) ∈ scans → s.kreg ≠ 0 →
    ShapeHonest s → n ≤ s.imgW * s.imgH → WindowTrigger (stream d s) s.kreg.toNat n →
    ∃ t, exec i s = .next t ∧ t.term = true ∧ t.offs ≤ n ∧ t.bitlen ≤ n - 8 * s.kreg.toNat

/-- `EXTRACT.d` (R200): exactly the bits of the diagonal, channel `i mod 3` of pixel `(i, i)`, whatever `KREG`
holds; nothing is discarded. That `OFFS` keeps after the command what its last step left in it is log entry 16
(DEDUCED). -/
def Obligations.DiagonalExtractReadsAll : Prop :=
  ∀ s : State, s.imgW = s.imgH →
    ∃ t, exec .extractD s = .next t ∧ EndsDone t (s.imgW == 0) false ∧ t.offs = min s.imgW s.imgH ∧
      FrameExcept [.bitlen, .bitbuf] s t ∧ t.bitlen = min s.imgW s.imgH ∧
      (ShapeHonest s →
        HoldsPrefix t (fun k => (imgByte s k k (k % 3)).getLsbD 0) (min s.imgW s.imgH))

/-- The refusals of `EXTRACT` (R191): the shape in the diagonal, `K = 0` in the other two; it never ends with
`CapacityExceeded`. Nothing else changes (R230); that the hidden working registers are as the start of the
command left them (R39, R45, R260) rests on log entries 10 and 16 (DEDUCED). -/
def Obligations.ExtractRefusals : Prop :=
  (∀ s : State, s.imgW ≠ s.imgH → FailsWith .extractD s 1 0) ∧
  (∀ (i : Instr) (d : Direction) (s : State), (i, d) ∈ scans → s.kreg = 0 → FailsWith i s 5 0) ∧
  (∀ (i : Instr) (d : Direction) (s t : State), (i, d) ∈ extracts → exec i s = .next t →
    t.errcode ≠ 2)

/-- `EMPTY` (R31): set exactly when an extraction command ends without error with `BITLEN = 0`. -/
def Obligations.EmptyFlagMeansNoBits : Prop :=
  ∀ (i : Instr) (s t : State), exec i s = .next t →
    (t.empty = true ↔
      (∃ d, (i, d) ∈ extracts ∨ (i, d) ∈ extractns) ∧ t.err = false ∧ t.bitlen = 0)

/-- `TERM` (R32): set exactly when an `EXTRACT` in the horizontal or vertical direction stopped by the
trigger, and clear after every other command. -/
def Obligations.TermFlagMeansTriggered : Prop :=
  ∀ (i : Instr) (s t : State), ShapeHonest s → exec i s = .next t →
    (t.term = true ↔ ∃ d, (i, d) ∈ scans ∧ s.kreg ≠ 0 ∧
      ∃ n, FirstTrigger (stream d s) s.kreg.toNat (s.imgW * s.imgH) n)

/-! ## Errors -/

/-- Ending in error is precise (R230): whatever the command, `ERR` set means that nothing but `STATUS`,
`ERRCODE`, `ERRINFO` changed, the other flags are clear and only `CapacityExceeded` reports a size. -/
def Obligations.ErrorsArePrecise : Prop :=
  ∀ (i : Instr) (s t : State), exec i s = .next t → t.err = true →
    FrameExcept [] s t ∧ t.status = 0x04 ∧ t.phase = .idle ∧ 1 ≤ t.errcode.toNat ∧
      t.errcode.toNat ≤ 5 ∧ (t.errcode ≠ 2 → t.errinfo = 0)

/-- The order of checks (R225): the word's decode tests first, then the table's tests in their order; the
first that fails is the one reported, and none is reported where none fails. -/
def Obligations.FirstFailureIsReported : Prop :=
  ∀ (w : CmdWord) (s t : State), issue w s = .next t →
    (t.errcode, t.errinfo) = (match decode w with
      | .bad _ => (5, 0)
      | .instr i => firstFailure i s) ∧
    (t.err = true ↔ t.errcode ≠ 0)

/-! ## The machine as a whole -/

/-- Which command writes which state (R37): everything outside the command's column "w" is unchanged, for
every command and every outcome. -/
def Obligations.CommandsWriteOnlyTheirTargets : Prop :=
  ∀ (i : Instr) (s t : State), exec i s = .next t → FrameExcept (writeSet i) s t

/-- What a command's outcome may depend on (R46): two states that agree on what R37 marks as read end with the
same `STATUS`, `ERRCODE` and `ERRINFO`, and without error with the same written state. -/
def Obligations.OutcomeDependsOnOperandsOnly : Prop :=
  ∀ (i : Instr) (s1 s2 t1 t2 : State), AgreeOnReads i s1 s2 →
    exec i s1 = .next t1 → exec i s2 = .next t2 →
    t1.status = t2.status ∧ t1.errcode = t2.errcode ∧ t1.errinfo = t2.errinfo ∧
    (t1.err = false → ∀ p ∈ writeSet i, AgreeOnPlace t1 t2 p)

/-- No command remembers an earlier one (R46, R45, R231): the outcome registers and the working registers of
the previous command do not matter at all. -/
def Obligations.EarlierOutcomeIsForgotten : Prop :=
  ∀ (i : Instr) (s s' : State),
    exec i { s with
      status := s'.status, errcode := s'.errcode, errinfo := s'.errinfo, offs := s'.offs,
      phase := s'.phase, runLen := s'.runLen, runVal := s'.runVal, curX := s'.curX,
      curY := s'.curY, curC := s'.curC, pix := s'.pix } = exec i s

/-! ## The host port -/

/-- A host write to a register other than `CMD` (R21): an `RW` register keeps the low bits, any other ignores
the write; every other register and every memory is unchanged. -/
def Obligations.HostWritesKeepLowBits : Prop :=
  ∀ (s : State) (idx : BitVec 4) (v : Nat) (rest : List HostOp), s.busy = false → idx ≠ 0 →
    s.script = .writeReg idx v :: rest →
    ∃ t, step s = .next t ∧ t.script = rest ∧
      hostReadReg idx t = (match rwWidth s.dimBits idx with
        | some width => v % 2 ^ width
        | none => hostReadReg idx s) ∧
      (∀ other : BitVec 4, other ≠ idx → hostReadReg other t = hostReadReg other s) ∧
      t.bitBuf = s.bitBuf ∧ t.byteBuf = s.byteBuf ∧ t.img = s.img

/-- A host read of a register (R21): what each index of the register map returns, `0xF` reading `0`; nothing
else changes. That the value read stands in `rdata` is the model's choice (log entry 4). -/
def Obligations.HostReadsChangeNothing : Prop :=
  ∀ (s : State) (idx : BitVec 4) (v : Nat) (rest : List HostOp), s.busy = false →
    s.script = .readReg idx :: rest →
    (idx, v) ∈ [(0x0#4, s.cmd.toNat), (0x1, s.status.toNat), (0x2, s.errcode.toNat), (0x3, s.errinfo),
      (0x4, s.imgW), (0x5, s.imgH), (0x6, s.kreg.toNat), (0x7, s.nwin), (0x8, s.bitlen),
      (0x9, s.bytelen), (0xA, s.arg0), (0xB, s.arg1), (0xC, s.res0), (0xD, s.res1), (0xE, s.res2),
      (0xF, 0)] →
    step s = .next { s with script := rest, rdata := [v] }

/-- `CMD` reads back the last word written, whatever the word does (R22). -/
def Obligations.CmdReadsBackLastWord : Prop :=
  ∀ (s t : State) (v : Nat) (rest : List HostOp), s.busy = false →
    s.script = .writeReg 0 v :: rest → step s = .next t → hostReadReg 0 t = v % 65536

/-- The buffers and the image are plain storage (R68): an element reads back what the host last wrote in it,
every other element reads as before, and a host read of an element or a pixel returns it and changes nothing. The
place of the value read, and the counter a pixel read advances, are the model's own (log entries 4 and 5); outside
the true image a pixel read returns any three bytes (U16, log entry 8). -/
def Obligations.StorageReadsLastWrite : Prop :=
  (∀ (s : State) (i : Nat) (b : Bit) (rest : List HostOp), s.busy = false →
    s.script = .writeBit i b :: rest →
    ∃ t, step s = .next t ∧ readBitBuf t.bitBuf i = b ∧
      ∀ k, k ≠ i → readBitBuf t.bitBuf k = readBitBuf s.bitBuf k) ∧
  (∀ (s : State) (j : Nat) (v : Byte) (rest : List HostOp), s.busy = false →
    s.script = .writeByte j v :: rest →
    ∃ t, step s = .next t ∧ readByteBuf t.byteBuf j = v ∧
      ∀ k, k ≠ j → readByteBuf t.byteBuf k = readByteBuf s.byteBuf k) ∧
  (∀ (s : State) (x y : Nat) (p : Pixel) (rest : List HostOp), s.busy = false →
    s.script = .writePixel x y p :: rest → x < s.img.width → y < s.img.height →
    ∃ t, step s = .next t ∧ t.pixRead x y = p ∧
      ∀ x' y', x' < s.img.width → y' < s.img.height → (x', y') ≠ (x, y) →
        t.pixRead x' y' = s.pixRead x' y') ∧
  (∀ (s : State) (i : Nat) (rest : List HostOp), s.busy = false → s.script = .readBit i :: rest →
    step s = .next { s with script := rest, rdata := [(readBitBuf s.bitBuf i).toNat] }) ∧
  (∀ (s : State) (j : Nat) (rest : List HostOp), s.busy = false → s.script = .readByte j :: rest →
    step s = .next { s with script := rest, rdata := [(readByteBuf s.byteBuf j).toNat] }) ∧
  (∀ (s : State) (x y : Nat) (rest : List HostOp), s.busy = false →
    s.script = .readPixel x y :: rest →
    ∃ data, step s =
        .next { s with script := rest, rdata := data, freeCount := s.freeCount + 1 } ∧
      data.length = 3 ∧
      (x < s.img.width → y < s.img.height →
        data = [(s.pixRead x y).r.toNat, (s.pixRead x y).g.toNat, (s.pixRead x y).b.toNat]))

/-- `ld` (R101): loading bits or bytes stores them from index 0 and sets the length register; loading an
image sets `IMG_W`, `IMG_H` and every channel byte. The row-by-row order of an image's list is the model's
choice (log entry 17). -/
def Obligations.LoadsFillTheMemories : Prop :=
  (∀ (s : State) (bits : List Bit) (rest : List HostOp), s.busy = false →
    s.script = .loadBits bits :: rest → bits.length < 2 ^ (2 * s.dimBits) →
    ∃ t, step s = .next t ∧ t.bitlen = bits.length ∧
      ∀ k < bits.length, readBitBuf t.bitBuf k = bits.getD k false) ∧
  (∀ (s : State) (bytes : List Byte) (rest : List HostOp), s.busy = false →
    s.script = .loadBytes bytes :: rest → bytes.length < 2 ^ (2 * s.dimBits) →
    ∃ t, step s = .next t ∧ t.bytelen = bytes.length ∧
      ∀ k < bytes.length, readByteBuf t.byteBuf k = bytes.getD k 0) ∧
  (∀ (s : State) (w h : Nat) (bytes : List Byte) (rest : List HostOp), s.busy = false →
    s.script = .loadImage w h bytes :: rest → w < 2 ^ s.dimBits → h < 2 ^ s.dimBits →
    bytes.length = 3 * w * h →
    ∃ t, step s = .next t ∧ t.imgW = w ∧ t.imgH = h ∧ ShapeHonest t ∧
      ∀ x < w, ∀ y < h, ∀ c < 3, imgByte t x y c = bytes.getD (3 * (y * w + x) + c) 0)
end

