-- ==== Sys2Proof/Laws/State.lean ====
section
/-! SUPPORT. The small lemmas of the state: what each field holds after each update, so that no later
proof unfolds a record update. -/

namespace Sys2Proof.Machine

/-- The pixel an `EMBED` bit step writes back (R173). -/
def embeddedPixel (d : Direction) (s : State) : Pixel :=
  withChannel (s.pixRead (s.addr d s.offs).x (s.addr d s.offs).y) (s.addr d s.offs).c
    (setLsb (channelOf (s.pixRead (s.addr d s.offs).x (s.addr d s.offs).y) (s.addr d s.offs).c)
      (readBitBuf s.bitBuf s.offs))

/-! ## The start of a command -/

@[simp] theorem startCommand_dimBits (s : State) : (startCommand s).dimBits = s.dimBits := rfl
@[simp] theorem startCommand_cmd (s : State) : (startCommand s).cmd = s.cmd := rfl
@[simp] theorem startCommand_status (s : State) : (startCommand s).status = statusWord true false false false false := rfl
@[simp] theorem startCommand_errcode (s : State) : (startCommand s).errcode = 0 := rfl
@[simp] theorem startCommand_errinfo (s : State) : (startCommand s).errinfo = 0 := rfl
@[simp] theorem startCommand_imgW (s : State) : (startCommand s).imgW = s.imgW := rfl
@[simp] theorem startCommand_imgH (s : State) : (startCommand s).imgH = s.imgH := rfl
@[simp] theorem startCommand_kreg (s : State) : (startCommand s).kreg = s.kreg := rfl
@[simp] theorem startCommand_nwin (s : State) : (startCommand s).nwin = s.nwin := rfl
@[simp] theorem startCommand_bitlen (s : State) : (startCommand s).bitlen = s.bitlen := rfl
@[simp] theorem startCommand_bytelen (s : State) : (startCommand s).bytelen = s.bytelen := rfl
@[simp] theorem startCommand_arg0 (s : State) : (startCommand s).arg0 = s.arg0 := rfl
@[simp] theorem startCommand_arg1 (s : State) : (startCommand s).arg1 = s.arg1 := rfl
@[simp] theorem startCommand_res0 (s : State) : (startCommand s).res0 = s.res0 := rfl
@[simp] theorem startCommand_res1 (s : State) : (startCommand s).res1 = s.res1 := rfl
@[simp] theorem startCommand_res2 (s : State) : (startCommand s).res2 = s.res2 := rfl
@[simp] theorem startCommand_bitBuf (s : State) : (startCommand s).bitBuf = s.bitBuf := rfl
@[simp] theorem startCommand_byteBuf (s : State) : (startCommand s).byteBuf = s.byteBuf := rfl
@[simp] theorem startCommand_img (s : State) : (startCommand s).img = s.img := rfl
@[simp] theorem startCommand_offs (s : State) : (startCommand s).offs = 0 := rfl
@[simp] theorem startCommand_phase (s : State) : (startCommand s).phase = .check := rfl
@[simp] theorem startCommand_runLen (s : State) : (startCommand s).runLen = 0 := rfl
@[simp] theorem startCommand_runVal (s : State) : (startCommand s).runVal = false := rfl
@[simp] theorem startCommand_curX (s : State) : (startCommand s).curX = 0 := rfl
@[simp] theorem startCommand_curY (s : State) : (startCommand s).curY = 0 := rfl
@[simp] theorem startCommand_curC (s : State) : (startCommand s).curC = 0 := rfl
@[simp] theorem startCommand_pix (s : State) : (startCommand s).pix = { r := 0, g := 0, b := 0 } := rfl
@[simp] theorem startCommand_script (s : State) : (startCommand s).script = s.script := rfl
@[simp] theorem startCommand_rdata (s : State) : (startCommand s).rdata = s.rdata := rfl
@[simp] theorem startCommand_freeCount (s : State) : (startCommand s).freeCount = s.freeCount + 1 := rfl

/-! ## Ending in error -/

@[simp] theorem raise_dimBits (e : ErrorKind) (info : Nat) (s : State) : (raise e info s).dimBits = s.dimBits := rfl
@[simp] theorem raise_cmd (e : ErrorKind) (info : Nat) (s : State) : (raise e info s).cmd = s.cmd := rfl
@[simp] theorem raise_status (e : ErrorKind) (info : Nat) (s : State) : (raise e info s).status = statusWord false false true false false := rfl
@[simp] theorem raise_errcode (e : ErrorKind) (info : Nat) (s : State) : (raise e info s).errcode = codeOfError e := rfl
@[simp] theorem raise_errinfo (e : ErrorKind) (info : Nat) (s : State) : (raise e info s).errinfo = errorInfo e info := rfl
@[simp] theorem raise_imgW (e : ErrorKind) (info : Nat) (s : State) : (raise e info s).imgW = s.imgW := rfl
@[simp] theorem raise_imgH (e : ErrorKind) (info : Nat) (s : State) : (raise e info s).imgH = s.imgH := rfl
@[simp] theorem raise_kreg (e : ErrorKind) (info : Nat) (s : State) : (raise e info s).kreg = s.kreg := rfl
@[simp] theorem raise_nwin (e : ErrorKind) (info : Nat) (s : State) : (raise e info s).nwin = s.nwin := rfl
@[simp] theorem raise_bitlen (e : ErrorKind) (info : Nat) (s : State) : (raise e info s).bitlen = s.bitlen := rfl
@[simp] theorem raise_bytelen (e : ErrorKind) (info : Nat) (s : State) : (raise e info s).bytelen = s.bytelen := rfl
@[simp] theorem raise_arg0 (e : ErrorKind) (info : Nat) (s : State) : (raise e info s).arg0 = s.arg0 := rfl
@[simp] theorem raise_arg1 (e : ErrorKind) (info : Nat) (s : State) : (raise e info s).arg1 = s.arg1 := rfl
@[simp] theorem raise_res0 (e : ErrorKind) (info : Nat) (s : State) : (raise e info s).res0 = s.res0 := rfl
@[simp] theorem raise_res1 (e : ErrorKind) (info : Nat) (s : State) : (raise e info s).res1 = s.res1 := rfl
@[simp] theorem raise_res2 (e : ErrorKind) (info : Nat) (s : State) : (raise e info s).res2 = s.res2 := rfl
@[simp] theorem raise_bitBuf (e : ErrorKind) (info : Nat) (s : State) : (raise e info s).bitBuf = s.bitBuf := rfl
@[simp] theorem raise_byteBuf (e : ErrorKind) (info : Nat) (s : State) : (raise e info s).byteBuf = s.byteBuf := rfl
@[simp] theorem raise_img (e : ErrorKind) (info : Nat) (s : State) : (raise e info s).img = s.img := rfl
@[simp] theorem raise_offs (e : ErrorKind) (info : Nat) (s : State) : (raise e info s).offs = s.offs := rfl
@[simp] theorem raise_phase (e : ErrorKind) (info : Nat) (s : State) : (raise e info s).phase = .idle := rfl
@[simp] theorem raise_runLen (e : ErrorKind) (info : Nat) (s : State) : (raise e info s).runLen = s.runLen := rfl
@[simp] theorem raise_runVal (e : ErrorKind) (info : Nat) (s : State) : (raise e info s).runVal = s.runVal := rfl
@[simp] theorem raise_curX (e : ErrorKind) (info : Nat) (s : State) : (raise e info s).curX = s.curX := rfl
@[simp] theorem raise_curY (e : ErrorKind) (info : Nat) (s : State) : (raise e info s).curY = s.curY := rfl
@[simp] theorem raise_curC (e : ErrorKind) (info : Nat) (s : State) : (raise e info s).curC = s.curC := rfl
@[simp] theorem raise_pix (e : ErrorKind) (info : Nat) (s : State) : (raise e info s).pix = s.pix := rfl
@[simp] theorem raise_script (e : ErrorKind) (info : Nat) (s : State) : (raise e info s).script = s.script := rfl
@[simp] theorem raise_rdata (e : ErrorKind) (info : Nat) (s : State) : (raise e info s).rdata = s.rdata := rfl
@[simp] theorem raise_freeCount (e : ErrorKind) (info : Nat) (s : State) : (raise e info s).freeCount = s.freeCount := rfl

/-! ## Ending without error -/

@[simp] theorem complete_dimBits (empty term : Bool) (s : State) : (complete empty term s).dimBits = s.dimBits := rfl
@[simp] theorem complete_cmd (empty term : Bool) (s : State) : (complete empty term s).cmd = s.cmd := rfl
@[simp] theorem complete_status (empty term : Bool) (s : State) : (complete empty term s).status = statusWord false true false empty term := rfl
@[simp] theorem complete_errcode (empty term : Bool) (s : State) : (complete empty term s).errcode = s.errcode := rfl
@[simp] theorem complete_errinfo (empty term : Bool) (s : State) : (complete empty term s).errinfo = s.errinfo := rfl
@[simp] theorem complete_imgW (empty term : Bool) (s : State) : (complete empty term s).imgW = s.imgW := rfl
@[simp] theorem complete_imgH (empty term : Bool) (s : State) : (complete empty term s).imgH = s.imgH := rfl
@[simp] theorem complete_kreg (empty term : Bool) (s : State) : (complete empty term s).kreg = s.kreg := rfl
@[simp] theorem complete_nwin (empty term : Bool) (s : State) : (complete empty term s).nwin = s.nwin := rfl
@[simp] theorem complete_bitlen (empty term : Bool) (s : State) : (complete empty term s).bitlen = s.bitlen := rfl
@[simp] theorem complete_bytelen (empty term : Bool) (s : State) : (complete empty term s).bytelen = s.bytelen := rfl
@[simp] theorem complete_arg0 (empty term : Bool) (s : State) : (complete empty term s).arg0 = s.arg0 := rfl
@[simp] theorem complete_arg1 (empty term : Bool) (s : State) : (complete empty term s).arg1 = s.arg1 := rfl
@[simp] theorem complete_res0 (empty term : Bool) (s : State) : (complete empty term s).res0 = s.res0 := rfl
@[simp] theorem complete_res1 (empty term : Bool) (s : State) : (complete empty term s).res1 = s.res1 := rfl
@[simp] theorem complete_res2 (empty term : Bool) (s : State) : (complete empty term s).res2 = s.res2 := rfl
@[simp] theorem complete_bitBuf (empty term : Bool) (s : State) : (complete empty term s).bitBuf = s.bitBuf := rfl
@[simp] theorem complete_byteBuf (empty term : Bool) (s : State) : (complete empty term s).byteBuf = s.byteBuf := rfl
@[simp] theorem complete_img (empty term : Bool) (s : State) : (complete empty term s).img = s.img := rfl
@[simp] theorem complete_offs (empty term : Bool) (s : State) : (complete empty term s).offs = s.offs := rfl
@[simp] theorem complete_phase (empty term : Bool) (s : State) : (complete empty term s).phase = .idle := rfl
@[simp] theorem complete_runLen (empty term : Bool) (s : State) : (complete empty term s).runLen = s.runLen := rfl
@[simp] theorem complete_runVal (empty term : Bool) (s : State) : (complete empty term s).runVal = s.runVal := rfl
@[simp] theorem complete_curX (empty term : Bool) (s : State) : (complete empty term s).curX = s.curX := rfl
@[simp] theorem complete_curY (empty term : Bool) (s : State) : (complete empty term s).curY = s.curY := rfl
@[simp] theorem complete_curC (empty term : Bool) (s : State) : (complete empty term s).curC = s.curC := rfl
@[simp] theorem complete_pix (empty term : Bool) (s : State) : (complete empty term s).pix = s.pix := rfl
@[simp] theorem complete_script (empty term : Bool) (s : State) : (complete empty term s).script = s.script := rfl
@[simp] theorem complete_rdata (empty term : Bool) (s : State) : (complete empty term s).rdata = s.rdata := rfl
@[simp] theorem complete_freeCount (empty term : Bool) (s : State) : (complete empty term s).freeCount = s.freeCount := rfl

/-! ## Entering the bit steps -/

@[simp] theorem embedEnter_dimBits (s : State) : (embedEnter s).dimBits = s.dimBits := rfl
@[simp] theorem embedEnter_cmd (s : State) : (embedEnter s).cmd = s.cmd := rfl
@[simp] theorem embedEnter_status (s : State) : (embedEnter s).status = s.status := rfl
@[simp] theorem embedEnter_errcode (s : State) : (embedEnter s).errcode = s.errcode := rfl
@[simp] theorem embedEnter_errinfo (s : State) : (embedEnter s).errinfo = s.errinfo := rfl
@[simp] theorem embedEnter_imgW (s : State) : (embedEnter s).imgW = s.imgW := rfl
@[simp] theorem embedEnter_imgH (s : State) : (embedEnter s).imgH = s.imgH := rfl
@[simp] theorem embedEnter_kreg (s : State) : (embedEnter s).kreg = s.kreg := rfl
@[simp] theorem embedEnter_nwin (s : State) : (embedEnter s).nwin = s.nwin := rfl
@[simp] theorem embedEnter_bitlen (s : State) : (embedEnter s).bitlen = s.bitlen := rfl
@[simp] theorem embedEnter_bytelen (s : State) : (embedEnter s).bytelen = s.bytelen := rfl
@[simp] theorem embedEnter_arg0 (s : State) : (embedEnter s).arg0 = s.arg0 := rfl
@[simp] theorem embedEnter_arg1 (s : State) : (embedEnter s).arg1 = s.arg1 := rfl
@[simp] theorem embedEnter_res0 (s : State) : (embedEnter s).res0 = s.res0 := rfl
@[simp] theorem embedEnter_res1 (s : State) : (embedEnter s).res1 = s.res1 := rfl
@[simp] theorem embedEnter_res2 (s : State) : (embedEnter s).res2 = s.res2 := rfl
@[simp] theorem embedEnter_bitBuf (s : State) : (embedEnter s).bitBuf = s.bitBuf := rfl
@[simp] theorem embedEnter_byteBuf (s : State) : (embedEnter s).byteBuf = s.byteBuf := rfl
@[simp] theorem embedEnter_img (s : State) : (embedEnter s).img = s.img := rfl
@[simp] theorem embedEnter_offs (s : State) : (embedEnter s).offs = s.offs := rfl
@[simp] theorem embedEnter_phase (s : State) : (embedEnter s).phase = if s.bitlen = 0 then .finish else .run := rfl
@[simp] theorem embedEnter_runLen (s : State) : (embedEnter s).runLen = s.runLen := rfl
@[simp] theorem embedEnter_runVal (s : State) : (embedEnter s).runVal = s.runVal := rfl
@[simp] theorem embedEnter_curX (s : State) : (embedEnter s).curX = s.curX := rfl
@[simp] theorem embedEnter_curY (s : State) : (embedEnter s).curY = s.curY := rfl
@[simp] theorem embedEnter_curC (s : State) : (embedEnter s).curC = s.curC := rfl
@[simp] theorem embedEnter_pix (s : State) : (embedEnter s).pix = s.pix := rfl
@[simp] theorem embedEnter_script (s : State) : (embedEnter s).script = s.script := rfl
@[simp] theorem embedEnter_rdata (s : State) : (embedEnter s).rdata = s.rdata := rfl
@[simp] theorem embedEnter_freeCount (s : State) : (embedEnter s).freeCount = s.freeCount := rfl

@[simp] theorem extractEnter_dimBits (d : Direction) (s : State) : (extractEnter d s).dimBits = s.dimBits := rfl
@[simp] theorem extractEnter_cmd (d : Direction) (s : State) : (extractEnter d s).cmd = s.cmd := rfl
@[simp] theorem extractEnter_status (d : Direction) (s : State) : (extractEnter d s).status = s.status := rfl
@[simp] theorem extractEnter_errcode (d : Direction) (s : State) : (extractEnter d s).errcode = s.errcode := rfl
@[simp] theorem extractEnter_errinfo (d : Direction) (s : State) : (extractEnter d s).errinfo = s.errinfo := rfl
@[simp] theorem extractEnter_imgW (d : Direction) (s : State) : (extractEnter d s).imgW = s.imgW := rfl
@[simp] theorem extractEnter_imgH (d : Direction) (s : State) : (extractEnter d s).imgH = s.imgH := rfl
@[simp] theorem extractEnter_kreg (d : Direction) (s : State) : (extractEnter d s).kreg = s.kreg := rfl
@[simp] theorem extractEnter_nwin (d : Direction) (s : State) : (extractEnter d s).nwin = s.nwin := rfl
@[simp] theorem extractEnter_bitlen (d : Direction) (s : State) : (extractEnter d s).bitlen = s.bitlen := rfl
@[simp] theorem extractEnter_bytelen (d : Direction) (s : State) : (extractEnter d s).bytelen = s.bytelen := rfl
@[simp] theorem extractEnter_arg0 (d : Direction) (s : State) : (extractEnter d s).arg0 = s.arg0 := rfl
@[simp] theorem extractEnter_arg1 (d : Direction) (s : State) : (extractEnter d s).arg1 = s.arg1 := rfl
@[simp] theorem extractEnter_res0 (d : Direction) (s : State) : (extractEnter d s).res0 = s.res0 := rfl
@[simp] theorem extractEnter_res1 (d : Direction) (s : State) : (extractEnter d s).res1 = s.res1 := rfl
@[simp] theorem extractEnter_res2 (d : Direction) (s : State) : (extractEnter d s).res2 = s.res2 := rfl
@[simp] theorem extractEnter_bitBuf (d : Direction) (s : State) : (extractEnter d s).bitBuf = s.bitBuf := rfl
@[simp] theorem extractEnter_byteBuf (d : Direction) (s : State) : (extractEnter d s).byteBuf = s.byteBuf := rfl
@[simp] theorem extractEnter_img (d : Direction) (s : State) : (extractEnter d s).img = s.img := rfl
@[simp] theorem extractEnter_offs (d : Direction) (s : State) : (extractEnter d s).offs = s.offs := rfl
@[simp] theorem extractEnter_phase (d : Direction) (s : State) : (extractEnter d s).phase = if s.cap d = 0 then .finish else .run := rfl
@[simp] theorem extractEnter_runLen (d : Direction) (s : State) : (extractEnter d s).runLen = s.runLen := rfl
@[simp] theorem extractEnter_runVal (d : Direction) (s : State) : (extractEnter d s).runVal = s.runVal := rfl
@[simp] theorem extractEnter_curX (d : Direction) (s : State) : (extractEnter d s).curX = s.curX := rfl
@[simp] theorem extractEnter_curY (d : Direction) (s : State) : (extractEnter d s).curY = s.curY := rfl
@[simp] theorem extractEnter_curC (d : Direction) (s : State) : (extractEnter d s).curC = s.curC := rfl
@[simp] theorem extractEnter_pix (d : Direction) (s : State) : (extractEnter d s).pix = s.pix := rfl
@[simp] theorem extractEnter_script (d : Direction) (s : State) : (extractEnter d s).script = s.script := rfl
@[simp] theorem extractEnter_rdata (d : Direction) (s : State) : (extractEnter d s).rdata = s.rdata := rfl
@[simp] theorem extractEnter_freeCount (d : Direction) (s : State) : (extractEnter d s).freeCount = s.freeCount := rfl

@[simp] theorem extractnEnter_dimBits (s : State) : (extractnEnter s).dimBits = s.dimBits := rfl
@[simp] theorem extractnEnter_cmd (s : State) : (extractnEnter s).cmd = s.cmd := rfl
@[simp] theorem extractnEnter_status (s : State) : (extractnEnter s).status = s.status := rfl
@[simp] theorem extractnEnter_errcode (s : State) : (extractnEnter s).errcode = s.errcode := rfl
@[simp] theorem extractnEnter_errinfo (s : State) : (extractnEnter s).errinfo = s.errinfo := rfl
@[simp] theorem extractnEnter_imgW (s : State) : (extractnEnter s).imgW = s.imgW := rfl
@[simp] theorem extractnEnter_imgH (s : State) : (extractnEnter s).imgH = s.imgH := rfl
@[simp] theorem extractnEnter_kreg (s : State) : (extractnEnter s).kreg = s.kreg := rfl
@[simp] theorem extractnEnter_nwin (s : State) : (extractnEnter s).nwin = s.nwin := rfl
@[simp] theorem extractnEnter_bitlen (s : State) : (extractnEnter s).bitlen = s.bitlen := rfl
@[simp] theorem extractnEnter_bytelen (s : State) : (extractnEnter s).bytelen = s.bytelen := rfl
@[simp] theorem extractnEnter_arg0 (s : State) : (extractnEnter s).arg0 = s.arg0 := rfl
@[simp] theorem extractnEnter_arg1 (s : State) : (extractnEnter s).arg1 = s.arg1 := rfl
@[simp] theorem extractnEnter_res0 (s : State) : (extractnEnter s).res0 = s.res0 := rfl
@[simp] theorem extractnEnter_res1 (s : State) : (extractnEnter s).res1 = s.res1 := rfl
@[simp] theorem extractnEnter_res2 (s : State) : (extractnEnter s).res2 = s.res2 := rfl
@[simp] theorem extractnEnter_bitBuf (s : State) : (extractnEnter s).bitBuf = s.bitBuf := rfl
@[simp] theorem extractnEnter_byteBuf (s : State) : (extractnEnter s).byteBuf = s.byteBuf := rfl
@[simp] theorem extractnEnter_img (s : State) : (extractnEnter s).img = s.img := rfl
@[simp] theorem extractnEnter_offs (s : State) : (extractnEnter s).offs = s.offs := rfl
@[simp] theorem extractnEnter_phase (s : State) : (extractnEnter s).phase = if s.nwin = 0 then .finish else .run := rfl
@[simp] theorem extractnEnter_runLen (s : State) : (extractnEnter s).runLen = s.runLen := rfl
@[simp] theorem extractnEnter_runVal (s : State) : (extractnEnter s).runVal = s.runVal := rfl
@[simp] theorem extractnEnter_curX (s : State) : (extractnEnter s).curX = s.curX := rfl
@[simp] theorem extractnEnter_curY (s : State) : (extractnEnter s).curY = s.curY := rfl
@[simp] theorem extractnEnter_curC (s : State) : (extractnEnter s).curC = s.curC := rfl
@[simp] theorem extractnEnter_pix (s : State) : (extractnEnter s).pix = s.pix := rfl
@[simp] theorem extractnEnter_script (s : State) : (extractnEnter s).script = s.script := rfl
@[simp] theorem extractnEnter_rdata (s : State) : (extractnEnter s).rdata = s.rdata := rfl
@[simp] theorem extractnEnter_freeCount (s : State) : (extractnEnter s).freeCount = s.freeCount := rfl

/-! ## One bit step of EMBED -/

@[simp] theorem embedBitStep_dimBits (d : Direction) (s : State) : (embedBitStep d s).dimBits = s.dimBits := rfl
@[simp] theorem embedBitStep_cmd (d : Direction) (s : State) : (embedBitStep d s).cmd = s.cmd := rfl
@[simp] theorem embedBitStep_status (d : Direction) (s : State) : (embedBitStep d s).status = s.status := rfl
@[simp] theorem embedBitStep_errcode (d : Direction) (s : State) : (embedBitStep d s).errcode = s.errcode := rfl
@[simp] theorem embedBitStep_errinfo (d : Direction) (s : State) : (embedBitStep d s).errinfo = s.errinfo := rfl
@[simp] theorem embedBitStep_imgW (d : Direction) (s : State) : (embedBitStep d s).imgW = s.imgW := rfl
@[simp] theorem embedBitStep_imgH (d : Direction) (s : State) : (embedBitStep d s).imgH = s.imgH := rfl
@[simp] theorem embedBitStep_kreg (d : Direction) (s : State) : (embedBitStep d s).kreg = s.kreg := rfl
@[simp] theorem embedBitStep_nwin (d : Direction) (s : State) : (embedBitStep d s).nwin = s.nwin := rfl
@[simp] theorem embedBitStep_bitlen (d : Direction) (s : State) : (embedBitStep d s).bitlen = s.bitlen := rfl
@[simp] theorem embedBitStep_bytelen (d : Direction) (s : State) : (embedBitStep d s).bytelen = s.bytelen := rfl
@[simp] theorem embedBitStep_arg0 (d : Direction) (s : State) : (embedBitStep d s).arg0 = s.arg0 := rfl
@[simp] theorem embedBitStep_arg1 (d : Direction) (s : State) : (embedBitStep d s).arg1 = s.arg1 := rfl
@[simp] theorem embedBitStep_res0 (d : Direction) (s : State) : (embedBitStep d s).res0 = s.res0 := rfl
@[simp] theorem embedBitStep_res1 (d : Direction) (s : State) : (embedBitStep d s).res1 = s.res1 := rfl
@[simp] theorem embedBitStep_res2 (d : Direction) (s : State) : (embedBitStep d s).res2 = s.res2 := rfl
@[simp] theorem embedBitStep_bitBuf (d : Direction) (s : State) : (embedBitStep d s).bitBuf = s.bitBuf := rfl
@[simp] theorem embedBitStep_byteBuf (d : Direction) (s : State) : (embedBitStep d s).byteBuf = s.byteBuf := rfl
@[simp] theorem embedBitStep_img (d : Direction) (s : State) : (embedBitStep d s).img = s.img.pixWrite (s.addr d s.offs).x (s.addr d s.offs).y (embeddedPixel d s) := rfl
@[simp] theorem embedBitStep_offs (d : Direction) (s : State) : (embedBitStep d s).offs = s.offs + 1 := rfl
@[simp] theorem embedBitStep_phase (d : Direction) (s : State) : (embedBitStep d s).phase = if s.offs + 1 = s.bitlen then .finish else .run := rfl
@[simp] theorem embedBitStep_runLen (d : Direction) (s : State) : (embedBitStep d s).runLen = s.runLen := rfl
@[simp] theorem embedBitStep_runVal (d : Direction) (s : State) : (embedBitStep d s).runVal = s.runVal := rfl
@[simp] theorem embedBitStep_curX (d : Direction) (s : State) : (embedBitStep d s).curX = (s.addr d s.offs).x := rfl
@[simp] theorem embedBitStep_curY (d : Direction) (s : State) : (embedBitStep d s).curY = (s.addr d s.offs).y := rfl
@[simp] theorem embedBitStep_curC (d : Direction) (s : State) : (embedBitStep d s).curC = BitVec.ofNat 2 (s.addr d s.offs).c := rfl
@[simp] theorem embedBitStep_pix (d : Direction) (s : State) : (embedBitStep d s).pix = embeddedPixel d s := rfl
@[simp] theorem embedBitStep_script (d : Direction) (s : State) : (embedBitStep d s).script = s.script := rfl
@[simp] theorem embedBitStep_rdata (d : Direction) (s : State) : (embedBitStep d s).rdata = s.rdata := rfl
@[simp] theorem embedBitStep_freeCount (d : Direction) (s : State) : (embedBitStep d s).freeCount = s.freeCount := rfl

/-! ## One bit step of EXTRACT -/

@[simp] theorem extractBitStep_dimBits (d : Direction) (s : State) : (extractBitStep d s).dimBits = s.dimBits := rfl
@[simp] theorem extractBitStep_cmd (d : Direction) (s : State) : (extractBitStep d s).cmd = s.cmd := rfl
@[simp] theorem extractBitStep_status (d : Direction) (s : State) : (extractBitStep d s).status = s.status := rfl
@[simp] theorem extractBitStep_errcode (d : Direction) (s : State) : (extractBitStep d s).errcode = s.errcode := rfl
@[simp] theorem extractBitStep_errinfo (d : Direction) (s : State) : (extractBitStep d s).errinfo = s.errinfo := rfl
@[simp] theorem extractBitStep_imgW (d : Direction) (s : State) : (extractBitStep d s).imgW = s.imgW := rfl
@[simp] theorem extractBitStep_imgH (d : Direction) (s : State) : (extractBitStep d s).imgH = s.imgH := rfl
@[simp] theorem extractBitStep_kreg (d : Direction) (s : State) : (extractBitStep d s).kreg = s.kreg := rfl
@[simp] theorem extractBitStep_nwin (d : Direction) (s : State) : (extractBitStep d s).nwin = s.nwin := rfl
@[simp] theorem extractBitStep_bitlen (d : Direction) (s : State) : (extractBitStep d s).bitlen = s.bitlen := rfl
@[simp] theorem extractBitStep_bytelen (d : Direction) (s : State) : (extractBitStep d s).bytelen = s.bytelen := rfl
@[simp] theorem extractBitStep_arg0 (d : Direction) (s : State) : (extractBitStep d s).arg0 = s.arg0 := rfl
@[simp] theorem extractBitStep_arg1 (d : Direction) (s : State) : (extractBitStep d s).arg1 = s.arg1 := rfl
@[simp] theorem extractBitStep_res0 (d : Direction) (s : State) : (extractBitStep d s).res0 = s.res0 := rfl
@[simp] theorem extractBitStep_res1 (d : Direction) (s : State) : (extractBitStep d s).res1 = s.res1 := rfl
@[simp] theorem extractBitStep_res2 (d : Direction) (s : State) : (extractBitStep d s).res2 = s.res2 := rfl
@[simp] theorem extractBitStep_bitBuf (d : Direction) (s : State) : (extractBitStep d s).bitBuf = s.bitBuf.write s.offs (lsbAt d s s.offs) := rfl
@[simp] theorem extractBitStep_byteBuf (d : Direction) (s : State) : (extractBitStep d s).byteBuf = s.byteBuf := rfl
@[simp] theorem extractBitStep_img (d : Direction) (s : State) : (extractBitStep d s).img = s.img := rfl
@[simp] theorem extractBitStep_offs (d : Direction) (s : State) : (extractBitStep d s).offs = s.offs + 1 := rfl
@[simp] theorem extractBitStep_phase (d : Direction) (s : State) : (extractBitStep d s).phase = 
      if heuristic d && triggered s.kreg (s.offs + 1) (nextRunLen s.runLen s.runVal (lsbAt d s s.offs)) then
        .finish
      else if s.offs + 1 = s.cap d then .finish else .run := rfl
@[simp] theorem extractBitStep_runLen (d : Direction) (s : State) : (extractBitStep d s).runLen = nextRunLen s.runLen s.runVal (lsbAt d s s.offs) := rfl
@[simp] theorem extractBitStep_runVal (d : Direction) (s : State) : (extractBitStep d s).runVal = lsbAt d s s.offs := rfl
@[simp] theorem extractBitStep_curX (d : Direction) (s : State) : (extractBitStep d s).curX = (s.addr d s.offs).x := rfl
@[simp] theorem extractBitStep_curY (d : Direction) (s : State) : (extractBitStep d s).curY = (s.addr d s.offs).y := rfl
@[simp] theorem extractBitStep_curC (d : Direction) (s : State) : (extractBitStep d s).curC = BitVec.ofNat 2 (s.addr d s.offs).c := rfl
@[simp] theorem extractBitStep_pix (d : Direction) (s : State) : (extractBitStep d s).pix = s.pixRead (s.addr d s.offs).x (s.addr d s.offs).y := rfl
@[simp] theorem extractBitStep_script (d : Direction) (s : State) : (extractBitStep d s).script = s.script := rfl
@[simp] theorem extractBitStep_rdata (d : Direction) (s : State) : (extractBitStep d s).rdata = s.rdata := rfl
@[simp] theorem extractBitStep_freeCount (d : Direction) (s : State) : (extractBitStep d s).freeCount = s.freeCount := rfl

/-! ## One bit step of EXTRACTN -/

@[simp] theorem extractnBitStep_dimBits (d : Direction) (s : State) : (extractnBitStep d s).dimBits = s.dimBits := rfl
@[simp] theorem extractnBitStep_cmd (d : Direction) (s : State) : (extractnBitStep d s).cmd = s.cmd := rfl
@[simp] theorem extractnBitStep_status (d : Direction) (s : State) : (extractnBitStep d s).status = s.status := rfl
@[simp] theorem extractnBitStep_errcode (d : Direction) (s : State) : (extractnBitStep d s).errcode = s.errcode := rfl
@[simp] theorem extractnBitStep_errinfo (d : Direction) (s : State) : (extractnBitStep d s).errinfo = s.errinfo := rfl
@[simp] theorem extractnBitStep_imgW (d : Direction) (s : State) : (extractnBitStep d s).imgW = s.imgW := rfl
@[simp] theorem extractnBitStep_imgH (d : Direction) (s : State) : (extractnBitStep d s).imgH = s.imgH := rfl
@[simp] theorem extractnBitStep_kreg (d : Direction) (s : State) : (extractnBitStep d s).kreg = s.kreg := rfl
@[simp] theorem extractnBitStep_nwin (d : Direction) (s : State) : (extractnBitStep d s).nwin = s.nwin := rfl
@[simp] theorem extractnBitStep_bitlen (d : Direction) (s : State) : (extractnBitStep d s).bitlen = s.bitlen := rfl
@[simp] theorem extractnBitStep_bytelen (d : Direction) (s : State) : (extractnBitStep d s).bytelen = s.bytelen := rfl
@[simp] theorem extractnBitStep_arg0 (d : Direction) (s : State) : (extractnBitStep d s).arg0 = s.arg0 := rfl
@[simp] theorem extractnBitStep_arg1 (d : Direction) (s : State) : (extractnBitStep d s).arg1 = s.arg1 := rfl
@[simp] theorem extractnBitStep_res0 (d : Direction) (s : State) : (extractnBitStep d s).res0 = s.res0 := rfl
@[simp] theorem extractnBitStep_res1 (d : Direction) (s : State) : (extractnBitStep d s).res1 = s.res1 := rfl
@[simp] theorem extractnBitStep_res2 (d : Direction) (s : State) : (extractnBitStep d s).res2 = s.res2 := rfl
@[simp] theorem extractnBitStep_bitBuf (d : Direction) (s : State) : (extractnBitStep d s).bitBuf = s.bitBuf.write s.offs (lsbAt d s s.offs) := rfl
@[simp] theorem extractnBitStep_byteBuf (d : Direction) (s : State) : (extractnBitStep d s).byteBuf = s.byteBuf := rfl
@[simp] theorem extractnBitStep_img (d : Direction) (s : State) : (extractnBitStep d s).img = s.img := rfl
@[simp] theorem extractnBitStep_offs (d : Direction) (s : State) : (extractnBitStep d s).offs = s.offs + 1 := rfl
@[simp] theorem extractnBitStep_phase (d : Direction) (s : State) : (extractnBitStep d s).phase = if s.offs + 1 = s.nwin then .finish else .run := rfl
@[simp] theorem extractnBitStep_runLen (d : Direction) (s : State) : (extractnBitStep d s).runLen = s.runLen := rfl
@[simp] theorem extractnBitStep_runVal (d : Direction) (s : State) : (extractnBitStep d s).runVal = s.runVal := rfl
@[simp] theorem extractnBitStep_curX (d : Direction) (s : State) : (extractnBitStep d s).curX = (s.addr d s.offs).x := rfl
@[simp] theorem extractnBitStep_curY (d : Direction) (s : State) : (extractnBitStep d s).curY = (s.addr d s.offs).y := rfl
@[simp] theorem extractnBitStep_curC (d : Direction) (s : State) : (extractnBitStep d s).curC = BitVec.ofNat 2 (s.addr d s.offs).c := rfl
@[simp] theorem extractnBitStep_pix (d : Direction) (s : State) : (extractnBitStep d s).pix = s.pixRead (s.addr d s.offs).x (s.addr d s.offs).y := rfl
@[simp] theorem extractnBitStep_script (d : Direction) (s : State) : (extractnBitStep d s).script = s.script := rfl
@[simp] theorem extractnBitStep_rdata (d : Direction) (s : State) : (extractnBitStep d s).rdata = s.rdata := rfl
@[simp] theorem extractnBitStep_freeCount (d : Direction) (s : State) : (extractnBitStep d s).freeCount = s.freeCount := rfl

/-! ## The flags -/

theorem statusWord_busy (b d e m t : Bool) : (statusWord b d e m t).getLsbD 0 = b := by
  cases b <;> cases d <;> cases e <;> cases m <;> cases t <;> rfl

theorem statusWord_done (b d e m t : Bool) : (statusWord b d e m t).getLsbD 1 = d := by
  cases b <;> cases d <;> cases e <;> cases m <;> cases t <;> rfl

theorem statusWord_err (b d e m t : Bool) : (statusWord b d e m t).getLsbD 2 = e := by
  cases b <;> cases d <;> cases e <;> cases m <;> cases t <;> rfl

theorem statusWord_empty (b d e m t : Bool) : (statusWord b d e m t).getLsbD 3 = m := by
  cases b <;> cases d <;> cases e <;> cases m <;> cases t <;> rfl

theorem statusWord_term (b d e m t : Bool) : (statusWord b d e m t).getLsbD 4 = t := by
  cases b <;> cases d <;> cases e <;> cases m <;> cases t <;> rfl

@[simp] theorem complete_busy (m t : Bool) (s : State) : (complete m t s).busy = false :=
  statusWord_busy _ _ _ _ _

@[simp] theorem complete_done (m t : Bool) (s : State) : (complete m t s).done = true :=
  statusWord_done _ _ _ _ _

@[simp] theorem complete_err (m t : Bool) (s : State) : (complete m t s).err = false :=
  statusWord_err _ _ _ _ _

@[simp] theorem complete_empty (m t : Bool) (s : State) : (complete m t s).empty = m :=
  statusWord_empty _ _ _ _ _

@[simp] theorem complete_term (m t : Bool) (s : State) : (complete m t s).term = t :=
  statusWord_term _ _ _ _ _

@[simp] theorem raise_busy (e : ErrorKind) (n : Nat) (s : State) : (raise e n s).busy = false :=
  statusWord_busy _ _ _ _ _

@[simp] theorem raise_done (e : ErrorKind) (n : Nat) (s : State) : (raise e n s).done = false :=
  statusWord_done _ _ _ _ _

@[simp] theorem raise_err (e : ErrorKind) (n : Nat) (s : State) : (raise e n s).err = true :=
  statusWord_err _ _ _ _ _

@[simp] theorem raise_empty (e : ErrorKind) (n : Nat) (s : State) : (raise e n s).empty = false :=
  statusWord_empty _ _ _ _ _

@[simp] theorem raise_term (e : ErrorKind) (n : Nat) (s : State) : (raise e n s).term = false :=
  statusWord_term _ _ _ _ _

@[simp] theorem startCommand_busy (s : State) : (startCommand s).busy = true :=
  statusWord_busy _ _ _ _ _

@[simp] theorem startCommand_cap (d : Direction) (s : State) : (startCommand s).cap d = s.cap d := rfl

@[simp] theorem startCommand_addr (d : Direction) (s : State) (i : Nat) :
    (startCommand s).addr d i = s.addr d i := rfl

/-- `checked` answers one of two states: the error, or what the command does once its checks passed. -/
theorem checked_cases (failure : Option (ErrorKind × Nat)) (s : State) (go : State → State) :
    (∃ e info, failure = some (e, info) ∧ checked failure s go = raise e info s) ∨
      (failure = none ∧ checked failure s go = go s) := by
  rcases failure with _ | ⟨e, info⟩
  · exact .inr ⟨rfl, rfl⟩
  · exact .inl ⟨e, info, rfl, rfl⟩

end Sys2Proof.Machine
end

