-- ==== Sys2Proof/Laws/Memory.lean ====
section
/-! SUPPORT. The laws of the sparse store and of the two buffers: a read after a write, that every operation
keeps the canonical form, and what a produced or cut buffer holds (20_memory R64, R68). -/

namespace Sys2Proof.Machine

variable {α : Type}

/-! ## Reads after writes -/

@[simp] theorem Memory.get?_set_same (m : Memory α) (a : Nat) (v : α) :
    Memory.get? (Memory.set m a v) a = some v := by
  induction m with
  | nil => simp [Memory.set, Memory.get?]
  | cons p m ih =>
    obtain ⟨k, w⟩ := p
    simp only [Memory.set]
    split_ifs with h1 h2 <;> simp [Memory.get?, *]

theorem Memory.get?_set_other (m : Memory α) {a b : Nat} (v : α) (hne : b ≠ a) :
    Memory.get? (Memory.set m a v) b = Memory.get? m b := by
  induction m with
  | nil => simp [Memory.set, Memory.get?, hne]
  | cons p m ih =>
    obtain ⟨k, w⟩ := p
    simp only [Memory.set]
    split_ifs with h1 h2
    · simp [Memory.get?, hne]
    · subst h2; simp [Memory.get?, hne]
    · simp [Memory.get?, ih]

theorem Memory.get?_set (m : Memory α) (a b : Nat) (v : α) :
    Memory.get? (Memory.set m a v) b = if b = a then some v else Memory.get? m b := by
  split_ifs with h
  · subst h; simp
  · exact Memory.get?_set_other m v h

theorem Memory.get?_ofList (vs : List α) (start a : Nat) :
    Memory.get? (Memory.ofList start vs) a = if start ≤ a then vs[a - start]? else none := by
  induction vs generalizing start with
  | nil => simp [Memory.ofList, Memory.get?]
  | cons v vs ih =>
    simp only [Memory.ofList, Memory.get?, ih]
    by_cases h1 : a = start
    · subst h1; simp
    · by_cases h2 : start ≤ a
      · obtain ⟨k, rfl⟩ : ∃ k, a = start + 1 + k := ⟨a - start - 1, by omega⟩
        have e1 : start + 1 + k - start = k + 1 := by omega
        have e2 : start + 1 + k - (start + 1) = k := by omega
        rw [if_neg h1, if_pos (by omega), if_pos h2, e1, e2, List.getElem?_cons_succ]
      · simp [h1, h2, show ¬ start + 1 ≤ a by omega]

theorem Memory.get?_cut (m : Memory α) (n a : Nat) :
    Memory.get? (Memory.cut m n) a = if a < n then Memory.get? m a else none := by
  induction m with
  | nil => simp [Memory.cut, Memory.get?]
  | cons p m ih =>
    obtain ⟨k, w⟩ := p
    simp only [Memory.cut] at ih
    by_cases hk : k < n
    · by_cases ha : a = k
      · subst ha; simp [Memory.cut, Memory.get?, hk]
      · simp [Memory.cut, Memory.get?, hk, ih, ha]
    · by_cases ha : a = k
      · subst ha; simp [Memory.cut, hk, ih]
      · simp [Memory.cut, Memory.get?, hk, ih, ha]

theorem Memory.get?_setList (m : Memory α) (vs : List α) (start a : Nat) :
    Memory.get? (Memory.setList m start vs) a =
      if start ≤ a ∧ a < start + vs.length then vs[a - start]? else Memory.get? m a := by
  induction vs generalizing start m with
  | nil => simp [Memory.setList]
  | cons v vs ih =>
    simp only [Memory.setList, ih, Memory.get?_set, List.length_cons]
    by_cases h1 : a = start
    · subst h1; simp
    · by_cases h2 : start + 1 ≤ a ∧ a < start + 1 + vs.length
      · obtain ⟨k, rfl⟩ : ∃ k, a = start + 1 + k := ⟨a - start - 1, by omega⟩
        have e1 : start + 1 + k - start = k + 1 := by omega
        have hk : k < vs.length := by omega
        simp [e1, hk, show start ≤ start + 1 + k by omega,
          show start + 1 + k < start + (vs.length + 1) by omega]
      · rw [if_neg h2, if_neg h1, if_neg (by omega)]

/-! ## The canonical form -/

theorem Memory.mem_set {m : Memory α} {a : Nat} {v : α} {p : Nat × α} (h : p ∈ Memory.set m a v) :
    p = (a, v) ∨ p ∈ m := by
  induction m with
  | nil => simpa [Memory.set] using h
  | cons q m ih =>
    obtain ⟨k, w⟩ := q
    simp only [Memory.set] at h
    split_ifs at h <;> simp only [List.mem_cons] at h ⊢ <;> tauto

theorem Memory.wf_set {m : Memory α} (a : Nat) (v : α) (h : Memory.wf m) :
    Memory.wf (Memory.set m a v) := by
  induction m with
  | nil => simp [Memory.set]
  | cons q m ih =>
    obtain ⟨k, w⟩ := q
    rw [Memory.wf, List.pairwise_cons] at h
    simp only [Memory.set]
    split_ifs with h1 h2
    · refine List.pairwise_cons.2 ⟨fun p hp => ?_, List.pairwise_cons.2 h⟩
      rcases List.mem_cons.1 hp with rfl | hp
      · exact h1
      · exact h1.trans (h.1 p hp)
    · subst h2; exact List.pairwise_cons.2 h
    · refine List.pairwise_cons.2 ⟨fun p hp => ?_, ih h.2⟩
      rcases Memory.mem_set hp with rfl | hp
      · show k < a; omega
      · exact h.1 p hp

theorem Memory.mem_ofList {vs : List α} {start : Nat} {p : Nat × α}
    (h : p ∈ Memory.ofList start vs) : start ≤ p.1 ∧ p.1 < start + vs.length := by
  induction vs generalizing start with
  | nil => simp [Memory.ofList] at h
  | cons v vs ih =>
    simp only [Memory.ofList, List.mem_cons] at h
    rcases h with rfl | h
    · simp
    · have := ih h; simp only [List.length_cons]; omega

theorem Memory.wf_ofList (vs : List α) (start : Nat) : Memory.wf (Memory.ofList start vs) := by
  induction vs generalizing start with
  | nil => simp [Memory.ofList]
  | cons v vs ih =>
    refine List.pairwise_cons.2 ⟨fun p hp => ?_, ih (start + 1)⟩
    have := (Memory.mem_ofList hp).1
    show start < p.1; omega

theorem Memory.wf_cut {m : Memory α} (n : Nat) (h : Memory.wf m) : Memory.wf (Memory.cut m n) :=
  List.Pairwise.filter _ h

theorem Memory.wf_setList {m : Memory α} (vs : List α) (start : Nat) (h : Memory.wf m) :
    Memory.wf (Memory.setList m start vs) := by
  induction vs generalizing start m with
  | nil => exact h
  | cons v vs ih => exact ih (start + 1) (Memory.wf_set start v h)

/-- The stores of the machine after reset have the canonical form. -/
theorem reset_stores_wf : Memory.wf State.reset.bitBuf.cells ∧ Memory.wf State.reset.byteBuf.cells ∧
    Memory.wf State.reset.img.cells := by decide

/-! ## The buffers -/

@[simp] theorem readBitBuf_write_same (b : Buffer Bit) (i : Nat) (v : Bit) :
    readBitBuf (b.write i v) i = v := by simp [readBitBuf, Buffer.write]

theorem readBitBuf_write_other (b : Buffer Bit) {i k : Nat} (v : Bit) (h : k ≠ i) :
    readBitBuf (b.write i v) k = readBitBuf b k := by
  simp [readBitBuf, Buffer.write, Memory.get?_set_other _ _ h]

@[simp] theorem readByteBuf_write_same (b : Buffer Byte) (i : Nat) (v : Byte) :
    readByteBuf (b.write i v) i = v := by simp [readByteBuf, Buffer.write]

theorem readByteBuf_write_other (b : Buffer Byte) {i k : Nat} (v : Byte) (h : k ≠ i) :
    readByteBuf (b.write i v) k = readByteBuf b k := by
  simp [readByteBuf, Buffer.write, Memory.get?_set_other _ _ h]

/-- A produced buffer holds the sequence. -/
theorem readBitBuf_produced (stamp : Nat) (vs : List Bit) {i : Nat} (h : i < vs.length) :
    readBitBuf (Buffer.produced stamp vs) i = vs[i] := by
  simp [readBitBuf, Buffer.produced, Memory.get?_ofList, h]

/-- A produced buffer holds the sequence. -/
theorem readByteBuf_produced (stamp : Nat) (vs : List Byte) {i : Nat} (h : i < vs.length) :
    readByteBuf (Buffer.produced stamp vs) i = vs[i] := by
  simp [readByteBuf, Buffer.produced, Memory.get?_ofList, h]

/-- Below the cut a buffer keeps what is specified in it. -/
theorem readBitBuf_cut (b : Buffer Bit) (stamp : Nat) {n i : Nat} {v : Bit} (h : i < n)
    (hv : Memory.get? b.cells i = some v) : readBitBuf (b.cut stamp n) i = readBitBuf b i := by
  simp [readBitBuf, Buffer.cut, Memory.get?_cut, h, hv]

theorem Buffer.wf_write {b : Buffer α} (i : Nat) (v : α) (h : Memory.wf b.cells) :
    Memory.wf (b.write i v).cells := Memory.wf_set i v h

theorem Buffer.wf_produced (stamp : Nat) (vs : List α) :
    Memory.wf (Buffer.produced stamp vs).cells := Memory.wf_ofList vs 0

theorem Buffer.wf_cut {b : Buffer α} (stamp n : Nat) (h : Memory.wf b.cells) :
    Memory.wf (b.cut stamp n).cells := Memory.wf_cut n h

@[simp] theorem bits_length (s : State) : s.bits.length = s.bitlen := by simp [State.bits]

@[simp] theorem bytes_length (s : State) : s.bytes.length = s.bytelen := by simp [State.bytes]

end Sys2Proof.Machine
end

