-- ==== Sys2Proof/Laws/BitCodec.lean ====
section
/-! SUPPORT. The laws of the bit codec and of the LSB pair on sequences and bytes: which bit stands where in an
expanded byte sequence and in a packed byte (40 R120, 41 R140). -/

namespace Sys2Proof.Machine

theorem bitsOfByte_length (v : Byte) : (bitsOfByte v).length = 8 := by simp [bitsOfByte]

theorem bitsOfBytes_length (l : List Byte) : (bitsOfBytes l).length = 8 * l.length := by
  induction l with
  | nil => rfl
  | cons v l ih =>
    simp only [bitsOfBytes, List.flatMap_cons, List.length_append, bitsOfByte_length,
      List.length_cons] at ih ⊢
    omega

/-- Bit `8j + k` of the expanded sequence is bit `7 - k` of byte `j`. -/
theorem bitsOfBytes_getElem? (l : List Byte) (j k : Nat) (hj : j < l.length) (hk : k < 8) :
    (bitsOfBytes l)[8 * j + k]? = some (l[j].getLsbD (7 - k)) := by
  induction l generalizing j with
  | nil => simp at hj
  | cons v l ih =>
    simp only [bitsOfBytes, List.flatMap_cons] at ih ⊢
    have hl := bitsOfByte_length v
    cases j with
    | zero =>
      rw [List.getElem?_append_left (by omega)]
      simp [bitsOfByte, bitOfByte, hk]
    | succ j =>
      rw [List.getElem?_append_right (by omega), hl, show 8 * (j + 1) + k - 8 = 8 * j + k by omega]
      simpa using ih j (by simpa using hj)

/-- The `k`-th argument of `byte(b0, ..., b7)` is bit `7 - k` of its value. -/
theorem byteValue_getLsbD (b0 b1 b2 b3 b4 b5 b6 b7 : Bool) (k : Nat) (hk : k < 8) :
    (BitVec.ofNat 8 (byteValue b0 b1 b2 b3 b4 b5 b6 b7)).getLsbD (7 - k) =
      [b0, b1, b2, b3, b4, b5, b6, b7].getD k false := by
  interval_cases k <;> revert b0 b1 b2 b3 b4 b5 b6 b7 <;> decide

/-- Bit `7 - k` of byte `j` of a packed sequence is its element `8j + k`, `0` past its end. -/
theorem byteAt_getLsbD (bits : List Bit) (j k : Nat) (hk : k < 8) :
    (byteAt bits j).getLsbD (7 - k) = bits.getD (8 * j + k) false := by
  unfold byteAt
  rw [byteValue_getLsbD _ _ _ _ _ _ _ _ k hk]
  interval_cases k <;> rfl

/-- The current bit sequence, element by element (R26). -/
theorem bits_getD (s : State) (i : Nat) :
    s.bits.getD i false = if i < s.bitlen then readBitBuf s.bitBuf i else false := by
  split_ifs with h <;> simp [State.bits, h]

/-- A byte of a packed sequence, read back from the buffer it was produced in. -/
theorem readByteBuf_packed (stamp m : Nat) (bits : List Bit) {j : Nat} (hj : j < m) :
    readByteBuf (Buffer.produced stamp (bytesOfBits m bits)) j = byteAt bits j := by
  rw [readByteBuf_produced _ _ (by simpa [bytesOfBits] using hj)]; simp [bytesOfBits]

/-- A bit of an expanded sequence, read back from the buffer it was produced in. -/
theorem readBitBuf_expanded (stamp : Nat) (l : List Byte) {j k : Nat} (hj : j < l.length)
    (hk : k < 8) :
    readBitBuf (Buffer.produced stamp (bitsOfBytes l)) (8 * j + k) = l[j].getLsbD (7 - k) := by
  have hlen : 8 * j + k < (bitsOfBytes l).length := by rw [bitsOfBytes_length]; omega
  have h := bitsOfBytes_getElem? l j k hj hk
  rw [List.getElem?_eq_getElem hlen, Option.some_inj] at h
  rw [readBitBuf_produced _ _ hlen, h]

/-- Two bytes with the same bits, in sequence order, are equal. -/
theorem byte_ext {v w : Byte} (h : ∀ k < 8, v.getLsbD (7 - k) = w.getLsbD (7 - k)) : v = w := by
  apply BitVec.eq_of_getLsbD_eq
  intro i hi
  have := h (7 - i) (by omega)
  rwa [show 7 - (7 - i) = i by omega] at this

/-- `setLsb` as a number: the seven upper bits kept, the lowest replaced. -/
theorem setLsb_toNat (v : Byte) (b : Bit) : (setLsb v b).toNat = v.toNat / 2 * 2 + b.toNat := by
  revert v b; decide

theorem getLsb_setLsb (v : Byte) (b : Bit) : getLsb (setLsb v b) = b := by revert v b; decide

end Sys2Proof.Machine
end

