-- ==== Sys2Proof/Laws/Image.lean ====
section
/-! SUPPORT. The laws of the image: a pixel reads back what was written, every other pixel of the image that
is there reads as before, and the store stays canonical (20_memory R66, R68; 93 U16). -/

namespace Sys2Proof.Machine

/-! ## Pixels and channels -/

@[simp] theorem channelOf_withChannel_same (p : Pixel) (c : Nat) (v : Byte) :
    channelOf (withChannel p c v) c = v := by
  match c with
  | 0 => rfl
  | 1 => rfl
  | _ + 2 => rfl

theorem channelOf_withChannel_other (p : Pixel) {c c' : Nat} (v : Byte) (hc : c < 3) (hc' : c' < 3)
    (h : c' ≠ c) : channelOf (withChannel p c v) c' = channelOf p c' := by
  have h1 : c = 0 ∨ c = 1 ∨ c = 2 := by omega
  have h2 : c' = 0 ∨ c' = 1 ∨ c' = 2 := by omega
  rcases h1 with rfl | rfl | rfl <;> rcases h2 with rfl | rfl | rfl <;>
    first | rfl | exact absurd rfl h

/-! ## Which bytes are there -/

theorem Image.has_iff (img : Image) (x y : Nat) :
    img.has x y = true ↔ x < img.width ∧ y < img.height := by simp [Image.has]

@[simp] theorem Image.pixWrite_width (img : Image) (x y : Nat) (p : Pixel) :
    (img.pixWrite x y p).width = img.width := by unfold Image.pixWrite; split <;> rfl

@[simp] theorem Image.pixWrite_height (img : Image) (x y : Nat) (p : Pixel) :
    (img.pixWrite x y p).height = img.height := by unfold Image.pixWrite; split <;> rfl

@[simp] theorem Image.pixWrite_stamp (img : Image) (x y : Nat) (p : Pixel) :
    (img.pixWrite x y p).stamp = img.stamp := by unfold Image.pixWrite; split <;> rfl

@[simp] theorem Image.pixWrite_has (img : Image) (x y : Nat) (p : Pixel) (x' y' : Nat) :
    (img.pixWrite x y p).has x' y' = img.has x' y' := by simp [Image.has]

/-- Outside the image a write goes nowhere (U16). -/
theorem Image.pixWrite_outside (img : Image) {x y : Nat} (p : Pixel) (h : img.has x y = false) :
    img.pixWrite x y p = img := by simp [Image.pixWrite, h]

/-- The keys of two bytes of the image are equal only for one byte. -/
theorem imageKey_inj (img : Image) {x y c x' y' c' : Nat} (hx : x < img.width) (hx' : x' < img.width)
    (hc : c < 3) (hc' : c' < 3) (h : imageKey img x y c = imageKey img x' y' c') :
    x = x' ∧ y = y' ∧ c = c' := by
  simp only [imageKey] at h
  obtain ⟨h1, rfl⟩ : y * img.width + x = y' * img.width + x' ∧ c = c' := by omega
  rcases Nat.lt_trichotomy y y' with hy | hy | hy
  · have := Nat.mul_le_mul_right img.width (Nat.succ_le_of_lt hy)
    rw [Nat.succ_mul] at this; omega
  · subst hy; exact ⟨by omega, rfl, rfl⟩
  · have := Nat.mul_le_mul_right img.width (Nat.succ_le_of_lt hy)
    rw [Nat.succ_mul] at this; omega

/-- Inside the image a read does not depend on the moment of the access. -/
theorem Image.readByte_inside (img : Image) {x y : Nat} (c n n' : Nat) (h : img.has x y = true) :
    img.readByte n x y c = img.readByte n' x y c := by simp [Image.readByte, h]

/-- Inside the image a read does not depend on the moment of the access. -/
theorem Image.pixRead_inside (img : Image) {x y : Nat} (n n' : Nat) (h : img.has x y = true) :
    img.pixRead n x y = img.pixRead n' x y := by simp [Image.pixRead, Image.readByte, h]

theorem channelOf_pixRead (img : Image) (n x y : Nat) {c : Nat} (hc : c < 3) :
    channelOf (img.pixRead n x y) c = img.readByte n x y c := by
  have h1 : c = 0 ∨ c = 1 ∨ c = 2 := by omega
  rcases h1 with rfl | rfl | rfl <;> rfl

/-- Inside the image a pixel reads back what was written (R68). -/
theorem Image.pixRead_pixWrite_same (img : Image) (n : Nat) {x y : Nat} (p : Pixel)
    (h : img.has x y = true) : (img.pixWrite x y p).pixRead n x y = p := by
  have hw := (img.has_iff x y).1 h
  have key : ∀ c, imageKey (img.pixWrite x y p) x y c = imageKey img x y c := fun c => by
    simp [imageKey]
  have n01 : imageKey img x y 0 ≠ imageKey img x y 1 := by simp [imageKey]
  have n02 : imageKey img x y 0 ≠ imageKey img x y 2 := by simp [imageKey]
  have n12 : imageKey img x y 1 ≠ imageKey img x y 2 := by simp [imageKey]
  have hread : ∀ c, (img.pixWrite x y p).readByte n x y c =
      (Memory.get? (img.pixWrite x y p).cells (imageKey img x y c)).getD
        (Config.unwrittenChannel img.stamp x y c) := fun c => by
    simp only [Image.readByte, Image.pixWrite_has, h, if_true, key, Image.pixWrite_stamp]
  have hcells : (img.pixWrite x y p).cells = Memory.set (Memory.set (Memory.set img.cells
      (imageKey img x y 0) p.r) (imageKey img x y 1) p.g) (imageKey img x y 2) p.b := by
    simp [Image.pixWrite, h]
  simp only [Image.pixRead, hread, hcells, Memory.get?_set, n01, n02, n12, if_true, if_false,
    Option.getD_some]

/-- Any other pixel of the image reads as before (R68). -/
theorem Image.pixRead_pixWrite_other (img : Image) (n : Nat) {x y x' y' : Nat} (p : Pixel)
    (h : img.has x' y' = true) (hne : (x', y') ≠ (x, y)) :
    (img.pixWrite x y p).pixRead n x' y' = img.pixRead n x' y' := by
  rcases hxy : img.has x y with _ | _
  · rw [Image.pixWrite_outside img p hxy]
  · have hw := (img.has_iff x y).1 hxy
    have hw' := (img.has_iff x' y').1 h
    have hk : ∀ c < 3, ∀ c' < 3, imageKey img x' y' c ≠ imageKey img x y c' := by
      intro c hc c' hc' e
      have := imageKey_inj img hw'.1 hw.1 hc hc' e
      exact hne (by rw [this.1, this.2.1])
    have key : ∀ c, imageKey (img.pixWrite x y p) x' y' c = imageKey img x' y' c := fun c => by
      simp [imageKey]
    have hcells : (img.pixWrite x y p).cells = Memory.set (Memory.set (Memory.set img.cells
        (imageKey img x y 0) p.r) (imageKey img x y 1) p.g) (imageKey img x y 2) p.b := by
      simp [Image.pixWrite, hxy]
    have hread : ∀ c < 3, (img.pixWrite x y p).readByte n x' y' c = img.readByte n x' y' c := by
      intro c hc
      simp only [Image.readByte, Image.pixWrite_has, h, if_true, key, hcells, Image.pixWrite_stamp,
        Memory.get?_set, hk c hc 0 (by omega), hk c hc 1 (by omega), hk c hc 2 (by omega), if_false]
    simp only [Image.pixRead, hread 0 (by omega), hread 1 (by omega), hread 2 (by omega)]

/-! ## The canonical form -/

/-- The image's store is canonical and lists only bytes of the image. -/
def ImageWf (img : Image) : Prop :=
  Memory.wf img.cells ∧ ∀ p ∈ img.cells, p.1 < 3 * img.width * img.height

theorem imageKey_lt (img : Image) {x y c : Nat} (hx : x < img.width) (hy : y < img.height)
    (hc : c < 3) : imageKey img x y c < 3 * img.width * img.height := by
  have h := Nat.mul_le_mul_right img.width (Nat.succ_le_of_lt hy)
  rw [Nat.succ_mul] at h
  have e : 3 * img.width * img.height = 3 * (img.height * img.width) := by ring
  simp only [imageKey, e]; omega

theorem imageWf_pixWrite {img : Image} (x y : Nat) (p : Pixel) (h : ImageWf img) :
    ImageWf (img.pixWrite x y p) := by
  rcases hxy : img.has x y with _ | _
  · rwa [Image.pixWrite_outside img p hxy]
  · have hw := (img.has_iff x y).1 hxy
    have hcells : (img.pixWrite x y p).cells = Memory.set (Memory.set (Memory.set img.cells
        (imageKey img x y 0) p.r) (imageKey img x y 1) p.g) (imageKey img x y 2) p.b := by
      simp [Image.pixWrite, hxy]
    refine ⟨?_, fun q hq => ?_⟩
    · rw [hcells]
      exact Memory.wf_set _ _ (Memory.wf_set _ _ (Memory.wf_set _ _ h.1))
    · rw [hcells] at hq
      simp only [Image.pixWrite_width, Image.pixWrite_height]
      rcases Memory.mem_set hq with rfl | hq
      · exact imageKey_lt img hw.1 hw.2 (by omega)
      rcases Memory.mem_set hq with rfl | hq
      · exact imageKey_lt img hw.1 hw.2 (by omega)
      rcases Memory.mem_set hq with rfl | hq
      · exact imageKey_lt img hw.1 hw.2 (by omega)
      · exact h.2 q hq

theorem imageWf_attach (stamp w h : Nat) (bytes : List Byte) :
    ImageWf (Image.attach stamp w h bytes) := by
  refine ⟨Memory.wf_ofList _ _, fun p hp => ?_⟩
  have := Memory.mem_ofList hp
  simp only [List.length_take] at this
  simp only [Image.attach]; omega

end Sys2Proof.Machine
end

