-- ==== Sys2Proof/Laws/Loop.lean ====
section
/-! SUPPORT. The laws of the bit-step loop (10_state R41): an invariant of the bit step is an invariant of the
loop, and a loop whose bit step stays in `RUN` for exactly `n` steps is the bit step iterated `n` times. -/

namespace Sys2Proof.Machine

/-- What every bit step keeps, the loop keeps. -/
theorem runPhase_keeps {P : State → Prop} {f : State → State} (fuel : Nat) {s : State}
    (hf : ∀ t, t.phase = .run → P t → P (f t)) (hs : P s) : P (runPhase f fuel s) := by
  induction fuel generalizing s with
  | zero => exact hs
  | succ n ih =>
    simp only [runPhase]
    split_ifs with h
    · exact ih (hf s h hs)
    · exact hs

@[simp] theorem runPhase_stopped (f : State → State) (fuel : Nat) {s : State} (h : s.phase ≠ .run) :
    runPhase f fuel s = s := by cases fuel <;> simp [runPhase, h]

/-- A loop that stays in `RUN` before each of its `n` steps is the step iterated `n` times. -/
theorem runPhase_iterate (f : State → State) (n : Nat) (s : State)
    (h : ∀ k < n, (f^[k] s).phase = .run) : runPhase f n s = f^[n] s := by
  induction n generalizing s with
  | zero => rfl
  | succ n ih =>
    have h0 : s.phase = .run := h 0 (by omega)
    simp only [runPhase, h0, if_true, Function.iterate_succ_apply]
    exact ih (f s) fun k hk => by
      simpa [Function.iterate_succ_apply] using h (k + 1) (by omega)

/-- A loop that leaves `RUN` after `n` steps, with fuel left, is the step iterated `n` times. -/
theorem runPhase_leaves (f : State → State) {n fuel : Nat} (s : State) (hn : n ≤ fuel)
    (h : ∀ k < n, (f^[k] s).phase = .run) (hend : (f^[n] s).phase ≠ .run) :
    runPhase f fuel s = f^[n] s := by
  induction n generalizing s fuel with
  | zero => exact runPhase_stopped f fuel hend
  | succ n ih =>
    obtain ⟨fuel, rfl⟩ : ∃ m, fuel = m + 1 := ⟨fuel - 1, by omega⟩
    have h0 : s.phase = .run := h 0 (by omega)
    simp only [runPhase, h0, if_true, Function.iterate_succ_apply]
    exact ih (f s) (by omega)
      (fun k hk => by simpa [Function.iterate_succ_apply] using h (k + 1) (by omega))
      (by simpa [Function.iterate_succ_apply] using hend)

/-- What the bit steps of a command leave alone: everything but the working registers, `BITBUF` and `IMG`. -/
structure SameButWork (s t : State) : Prop where
  dimBits : t.dimBits = s.dimBits
  cmd : t.cmd = s.cmd
  status : t.status = s.status
  errcode : t.errcode = s.errcode
  errinfo : t.errinfo = s.errinfo
  imgW : t.imgW = s.imgW
  imgH : t.imgH = s.imgH
  kreg : t.kreg = s.kreg
  nwin : t.nwin = s.nwin
  bitlen : t.bitlen = s.bitlen
  bytelen : t.bytelen = s.bytelen
  arg0 : t.arg0 = s.arg0
  arg1 : t.arg1 = s.arg1
  res0 : t.res0 = s.res0
  res1 : t.res1 = s.res1
  res2 : t.res2 = s.res2
  byteBuf : t.byteBuf = s.byteBuf
  imgWidth : t.img.width = s.img.width
  imgHeight : t.img.height = s.img.height
  imgStamp : t.img.stamp = s.img.stamp
  bitStamp : t.bitBuf.stamp = s.bitBuf.stamp
  script : t.script = s.script
  rdata : t.rdata = s.rdata
  freeCount : t.freeCount = s.freeCount

theorem SameButWork.refl (s : State) : SameButWork s s := by constructor <;> rfl

theorem SameButWork.trans {s t u : State} (h1 : SameButWork s t) (h2 : SameButWork t u) :
    SameButWork s u := by
  constructor
  · exact h2.dimBits.trans h1.dimBits
  · exact h2.cmd.trans h1.cmd
  · exact h2.status.trans h1.status
  · exact h2.errcode.trans h1.errcode
  · exact h2.errinfo.trans h1.errinfo
  · exact h2.imgW.trans h1.imgW
  · exact h2.imgH.trans h1.imgH
  · exact h2.kreg.trans h1.kreg
  · exact h2.nwin.trans h1.nwin
  · exact h2.bitlen.trans h1.bitlen
  · exact h2.bytelen.trans h1.bytelen
  · exact h2.arg0.trans h1.arg0
  · exact h2.arg1.trans h1.arg1
  · exact h2.res0.trans h1.res0
  · exact h2.res1.trans h1.res1
  · exact h2.res2.trans h1.res2
  · exact h2.byteBuf.trans h1.byteBuf
  · exact h2.imgWidth.trans h1.imgWidth
  · exact h2.imgHeight.trans h1.imgHeight
  · exact h2.imgStamp.trans h1.imgStamp
  · exact h2.bitStamp.trans h1.bitStamp
  · exact h2.script.trans h1.script
  · exact h2.rdata.trans h1.rdata
  · exact h2.freeCount.trans h1.freeCount

theorem SameButWork.cap {s t : State} (h : SameButWork s t) (d : Direction) : t.cap d = s.cap d := by
  simp only [State.cap, h.imgW, h.imgH]

theorem SameButWork.addr {s t : State} (h : SameButWork s t) (d : Direction) (i : Nat) :
    t.addr d i = s.addr d i := by simp only [State.addr, h.imgW, h.imgH]

theorem sameButWork_embedEnter (s : State) : SameButWork s (embedEnter s) := by constructor <;> rfl

theorem sameButWork_embedBitStep (d : Direction) (s : State) : SameButWork s (embedBitStep d s) := by
  constructor <;> simp

theorem sameButWork_extractEnter (d : Direction) (s : State) : SameButWork s (extractEnter d s) := by
  constructor <;> rfl

theorem sameButWork_extractBitStep (d : Direction) (s : State) :
    SameButWork s (extractBitStep d s) := by constructor <;> rfl

theorem sameButWork_extractnEnter (s : State) : SameButWork s (extractnEnter s) := by
  constructor <;> rfl

theorem sameButWork_extractnBitStep (d : Direction) (s : State) :
    SameButWork s (extractnBitStep d s) := by constructor <;> rfl

/-- The bit steps of `EMBED` read `BITBUF` and never write it. -/
theorem embedBitStep_iterate_bitBuf (d : Direction) (k : Nat) (s : State) :
    ((embedBitStep d)^[k] s).bitBuf = s.bitBuf := by
  induction k with
  | zero => rfl
  | succ k ih => simp [Function.iterate_succ_apply', ih]

/-- Any number of steps that each leave something alone leave it alone. -/
theorem sameButWork_iterate {f : State → State} (hf : ∀ t, SameButWork t (f t)) (k : Nat) (s : State) :
    SameButWork s (f^[k] s) := by
  induction k with
  | zero => exact .refl s
  | succ k ih => rw [Function.iterate_succ_apply']; exact ih.trans (hf _)

/-- Each bit step moves `OFFS` by one (R40). -/
theorem offs_iterate {f : State → State} (hf : ∀ t, (f t).offs = t.offs + 1) (k : Nat) (s : State) :
    (f^[k] s).offs = s.offs + k := by
  induction k with
  | zero => rfl
  | succ k ih => rw [Function.iterate_succ_apply', hf, ih]; omega

/-- The extraction steps never write the image (R201). -/
theorem img_iterate {f : State → State} (hf : ∀ t, (f t).img = t.img) (k : Nat) (s : State) :
    (f^[k] s).img = s.img := by
  induction k with
  | zero => rfl
  | succ k ih => rw [Function.iterate_succ_apply', hf, ih]

/-- The bit at an offset depends on the image, the shape registers and the moment only. -/
theorem lsbAt_congr {s t : State} (h : SameButWork s t) (himg : t.img = s.img) (d : Direction)
    (i : Nat) : lsbAt d t i = lsbAt d s i := by
  simp only [lsbAt, h.addr, State.pixRead, himg, h.freeCount]

end Sys2Proof.Machine
end

