-- ==== Sys2Proof/Laws/Sequencer.lean ====
section
/-! SUPPORT. What the three sequenced commands are, once their checks have passed: their bit step iterated a
known number of times, between the entry and the end (43 R173, 44 R193, R202). Proofs about a command cite
these and never unfold the loop. -/

namespace Sys2Proof.Machine

/-- The state in which the bit steps of an `EMBED` begin. -/
def embedBegin (s : State) : State := embedEnter (startCommand s)

/-- The state in which the bit steps of an `EXTRACT` begin. -/
def extractBegin (d : Direction) (s : State) : State := extractEnter d (startCommand s)

/-- The state in which the bit steps of an `EXTRACTN` begin. -/
def extractnBegin (s : State) : State := extractnEnter (startCommand s)

@[simp] theorem embedBegin_offs (s : State) : (embedBegin s).offs = 0 := rfl
@[simp] theorem extractBegin_offs (d : Direction) (s : State) : (extractBegin d s).offs = 0 := rfl
@[simp] theorem extractnBegin_offs (s : State) : (extractnBegin s).offs = 0 := rfl

/-! ## EMBED -/

theorem embed_offs (d : Direction) (k : Nat) (s : State) :
    ((embedBitStep d)^[k] (embedBegin s)).offs = k := by
  rw [offs_iterate (fun t => embedBitStep_offs d t)]; simp

theorem embed_same (d : Direction) (k : Nat) (s : State) :
    SameButWork (embedBegin s) ((embedBitStep d)^[k] (embedBegin s)) :=
  sameButWork_iterate (sameButWork_embedBitStep d) k _

theorem embed_running (d : Direction) {k : Nat} (s : State) (hk : k < s.bitlen) :
    ((embedBitStep d)^[k] (embedBegin s)).phase = .run := by
  cases k with
  | zero => simp [embedBegin, show s.bitlen ≠ 0 by omega]
  | succ k =>
    rw [Function.iterate_succ_apply', embedBitStep_phase, embed_offs, (embed_same d k s).bitlen]
    simp [embedBegin, show k + 1 ≠ s.bitlen by omega]

/-- `EMBED` past its checks: `BITLEN` bit steps (R173, R280). -/
theorem embedGo_eq (d : Direction) (s : State) :
    embedGo d (startCommand s) = complete false false ((embedBitStep d)^[s.bitlen] (embedBegin s)) :=
  congrArg (complete false false)
    (runPhase_iterate (embedBitStep d) s.bitlen (embedBegin s) fun _ hk => embed_running d s hk)

/-- `EMBED` answers one of two states: the error of its check, or the end of its `BITLEN` bit steps. -/
theorem embedBody_cases (d : Direction) (s : State) :
    (∃ e info, embedCheck d s = some (e, info) ∧
        embedBody d (startCommand s) = raise e info (startCommand s)) ∨
      (embedCheck d s = none ∧ embedBody d (startCommand s) =
        complete false false ((embedBitStep d)^[s.bitlen] (embedBegin s))) := by
  rcases checked_cases (embedCheck d s) (startCommand s) (embedGo d) with ⟨e, info, h1, h2⟩ | ⟨h1, h2⟩
  · exact .inl ⟨e, info, h1, h2⟩
  · exact .inr ⟨h1, h2.trans (embedGo_eq d s)⟩

theorem embedCheck_none {d : Direction} {s : State} :
    embedCheck d s = none ↔ shapeMismatch d s.imgW s.imgH = false ∧ s.bitlen ≤ s.cap d := by
  unfold embedCheck; split_ifs with h1 h2 <;> simp_all

/-! ## EXTRACTN -/

theorem extractn_offs (d : Direction) (k : Nat) (s : State) :
    ((extractnBitStep d)^[k] (extractnBegin s)).offs = k := by
  rw [offs_iterate (fun t => extractnBitStep_offs d t)]; simp

theorem extractn_same (d : Direction) (k : Nat) (s : State) :
    SameButWork (extractnBegin s) ((extractnBitStep d)^[k] (extractnBegin s)) :=
  sameButWork_iterate (sameButWork_extractnBitStep d) k _

theorem extractn_img (d : Direction) (k : Nat) (s : State) :
    ((extractnBitStep d)^[k] (extractnBegin s)).img = s.img :=
  img_iterate (fun t => extractnBitStep_img d t) k _

theorem extractn_running (d : Direction) {k : Nat} (s : State) (hk : k < s.nwin) :
    ((extractnBitStep d)^[k] (extractnBegin s)).phase = .run := by
  cases k with
  | zero => simp [extractnBegin, show s.nwin ≠ 0 by omega]
  | succ k =>
    rw [Function.iterate_succ_apply', extractnBitStep_phase, extractn_offs, (extractn_same d k s).nwin]
    simp [extractnBegin, show k + 1 ≠ s.nwin by omega]

/-- `EXTRACTN` past its checks: `NWIN` bit steps (R202, R280). -/
theorem extractnGo_eq (d : Direction) (s : State) :
    extractnGo d (startCommand s) =
      extractnFinish ((extractnBitStep d)^[s.nwin] (extractnBegin s)) :=
  congrArg extractnFinish
    (runPhase_iterate (extractnBitStep d) s.nwin (extractnBegin s) fun _ hk => extractn_running d s hk)

/-- `EXTRACTN` answers one of two states: the error of its check, or the end of its `NWIN` bit steps. -/
theorem extractnBody_cases (d : Direction) (s : State) :
    (∃ e info, extractnCheck d s = some (e, info) ∧
        extractnBody d (startCommand s) = raise e info (startCommand s)) ∨
      (extractnCheck d s = none ∧ extractnBody d (startCommand s) =
        extractnFinish ((extractnBitStep d)^[s.nwin] (extractnBegin s))) := by
  rcases checked_cases (extractnCheck d s) (startCommand s) (extractnGo d) with
    ⟨e, info, h1, h2⟩ | ⟨h1, h2⟩
  · exact .inl ⟨e, info, h1, h2⟩
  · exact .inr ⟨h1, h2.trans (extractnGo_eq d s)⟩

theorem extractnCheck_none {d : Direction} {s : State} :
    extractnCheck d s = none ↔ shapeMismatch d s.imgW s.imgH = false ∧ s.nwin ≤ s.cap d := by
  unfold extractnCheck; split_ifs with h1 h2 <;> simp_all

/-- After `k` bit steps `BITBUF` holds the `k` bits read, in order. -/
theorem extractn_bits (d : Direction) (k : Nat) (s : State) {i : Nat} (hi : i < k) :
    Memory.get? ((extractnBitStep d)^[k] (extractnBegin s)).bitBuf.cells i =
      some (lsbAt d (startCommand s) i) := by
  induction k with
  | zero => omega
  | succ k ih =>
    have hl : lsbAt d ((extractnBitStep d)^[k] (extractnBegin s)) k = lsbAt d (startCommand s) k :=
      lsbAt_congr ((sameButWork_extractnEnter _).trans (extractn_same d k s)) (extractn_img d k s) d k
    rw [Function.iterate_succ_apply', extractnBitStep_bitBuf, extractn_offs, hl, Buffer.write,
      Memory.get?_set]
    split_ifs with h
    · rw [h]
    · exact ih (by omega)

/-! ## EXTRACT -/

theorem extract_offs (d : Direction) (k : Nat) (s : State) :
    ((extractBitStep d)^[k] (extractBegin d s)).offs = k := by
  rw [offs_iterate (fun t => extractBitStep_offs d t)]; simp

theorem extract_same (d : Direction) (k : Nat) (s : State) :
    SameButWork (extractBegin d s) ((extractBitStep d)^[k] (extractBegin d s)) :=
  sameButWork_iterate (sameButWork_extractBitStep d) k _

theorem extract_img (d : Direction) (k : Nat) (s : State) :
    ((extractBitStep d)^[k] (extractBegin d s)).img = s.img :=
  img_iterate (fun t => extractBitStep_img d t) k _

/-- Each bit read depends on the state before the command only. -/
theorem extract_lsbAt (d : Direction) (k i : Nat) (s : State) :
    lsbAt d ((extractBitStep d)^[k] (extractBegin d s)) i = lsbAt d (startCommand s) i :=
  lsbAt_congr ((sameButWork_extractEnter d _).trans (extract_same d k s)) (extract_img d k s) d i

/-- After `k` bit steps `BITBUF` holds the `k` bits read, in order. -/
theorem extract_bits (d : Direction) (k : Nat) (s : State) {i : Nat} (hi : i < k) :
    Memory.get? ((extractBitStep d)^[k] (extractBegin d s)).bitBuf.cells i =
      some (lsbAt d (startCommand s) i) := by
  induction k with
  | zero => omega
  | succ k ih =>
    rw [Function.iterate_succ_apply', extractBitStep_bitBuf, extract_offs, extract_lsbAt,
      Buffer.write, Memory.get?_set]
    split_ifs with h
    · rw [h]
    · exact ih (by omega)

/-- `RUNLEN` and `RUNVAL` after `k` bit steps. -/
theorem extract_runLen_succ (d : Direction) (k : Nat) (s : State) :
    ((extractBitStep d)^[k + 1] (extractBegin d s)).runLen =
      nextRunLen ((extractBitStep d)^[k] (extractBegin d s)).runLen
        ((extractBitStep d)^[k] (extractBegin d s)).runVal (lsbAt d (startCommand s) k) := by
  rw [Function.iterate_succ_apply', extractBitStep_runLen, extract_offs, extract_lsbAt]

theorem extract_runVal_succ (d : Direction) (k : Nat) (s : State) :
    ((extractBitStep d)^[k + 1] (extractBegin d s)).runVal = lsbAt d (startCommand s) k := by
  rw [Function.iterate_succ_apply', extractBitStep_runVal, extract_offs, extract_lsbAt]

/-- Whether the scan stops by the trigger after `k` bit steps, read from the working registers. -/
def stopsAt (d : Direction) (s : State) (k : Nat) : Bool :=
  heuristic d && triggered s.kreg k ((extractBitStep d)^[k] (extractBegin d s)).runLen

/-- The phase after a bit step: stopped by the trigger, by exhaustion, or going on (R193). -/
theorem extract_phase_succ (d : Direction) (k : Nat) (s : State) :
    ((extractBitStep d)^[k + 1] (extractBegin d s)).phase =
      if stopsAt d s (k + 1) then .finish else if k + 1 = s.cap d then .finish else .run := by
  have h := extract_same d k s
  rw [stopsAt, extract_runLen_succ, Function.iterate_succ_apply', extractBitStep_phase, extract_offs,
    extract_lsbAt, h.cap, h.kreg]
  rfl

/-- `EXTRACT` past its checks: as many bit steps as come before the first stop (R193). -/
theorem extractGo_eq (d : Direction) (s : State) {n : Nat} (hn : n ≤ s.cap d)
    (hgo : ∀ k, 0 < k → k < n → stopsAt d s k = false)
    (hstop : n = s.cap d ∨ (0 < n ∧ stopsAt d s n = true)) :
    extractGo d (startCommand s) = extractFinish d ((extractBitStep d)^[n] (extractBegin d s)) := by
  refine congrArg (extractFinish d)
    (runPhase_leaves (extractBitStep d) (extractBegin d s) hn (fun k hk => ?_) ?_)
  · cases k with
    | zero => simp [extractBegin, show s.cap d ≠ 0 by omega]
    | succ k =>
      rw [extract_phase_succ, hgo (k + 1) (by omega) hk]
      simp [show k + 1 ≠ s.cap d by omega]
  · cases n with
    | zero =>
      have h0 : s.cap d = 0 := by
        rcases hstop with h | ⟨h, -⟩
        · exact h.symm
        · omega
      simp [extractBegin, h0]
    | succ k =>
      rw [extract_phase_succ]
      rcases hstop with h | ⟨-, h⟩
      · simp [h]
      · simp [h]

/-- `EXTRACT` answers one of two states: the error of its check, or what its scan ends with. -/
theorem extractBody_cases (d : Direction) (s : State) :
    (∃ e info, extractCheck d s = some (e, info) ∧
        extractBody d (startCommand s) = raise e info (startCommand s)) ∨
      (extractCheck d s = none ∧ extractBody d (startCommand s) = extractGo d (startCommand s)) := by
  rcases checked_cases (extractCheck d s) (startCommand s) (extractGo d) with
    ⟨e, info, h1, h2⟩ | ⟨h1, h2⟩
  · exact .inl ⟨e, info, h1, h2⟩
  · exact .inr ⟨h1, h2⟩

theorem extractCheck_none {d : Direction} {s : State} :
    extractCheck d s = none ↔
      (heuristic d && s.kreg == 0) = false ∧ shapeMismatch d s.imgW s.imgH = false := by
  unfold extractCheck; split_ifs with h1 h2 <;> simp_all

/-! ## What an extraction ends with -/

/-- `EXTRACTN` leaves the bits it read, in order, in `BITBUF`. -/
theorem extractnFinish_read (d : Direction) (s : State) {i : Nat} (hi : i < s.nwin) :
    readBitBuf (extractnFinish ((extractnBitStep d)^[s.nwin] (extractnBegin s))).bitBuf i =
      lsbAt d (startCommand s) i := by
  have h := (extractn_same d s.nwin s).nwin
  have hb : (extractnFinish ((extractnBitStep d)^[s.nwin] (extractnBegin s))).bitBuf =
      ((extractnBitStep d)^[s.nwin] (extractnBegin s)).bitBuf.cut
        ((extractnBitStep d)^[s.nwin] (extractnBegin s)).freeCount s.nwin :=
    congrArg (Buffer.cut _ _) h
  rw [hb, readBitBuf_cut _ _ hi (extractn_bits d s.nwin s hi)]
  simp [readBitBuf, extractn_bits d s.nwin s hi]

/-- Every scan makes some number of bit steps, at most the capacity, and stops there for the first time. -/
theorem extract_stops (d : Direction) (s : State) :
    ∃ n ≤ s.cap d, (∀ k, 0 < k → k < n → stopsAt d s k = false) ∧
      (n = s.cap d ∨ (0 < n ∧ stopsAt d s n = true)) := by
  by_cases h : ∃ n, 0 < n ∧ n ≤ s.cap d ∧ stopsAt d s n = true
  · have hn := Nat.find_spec h
    refine ⟨Nat.find h, hn.2.1, fun k h0 hk => ?_, .inr ⟨hn.1, hn.2.2⟩⟩
    by_contra hs
    exact Nat.find_min h hk ⟨h0, by omega, by simpa using hs⟩
  · push Not at h
    exact ⟨s.cap d, le_rfl, fun k h0 hk => by simpa using h k h0 (by omega), .inl rfl⟩

/-- The length a scan of `n` bit steps ends with. -/
def scanLen (d : Direction) (s : State) (n : Nat) : Nat :=
  extractedLen s.kreg (stopsAt d s n) n ((extractBitStep d)^[n] (extractBegin d s)).runLen

theorem scanLen_le (d : Direction) (s : State) (n : Nat) : scanLen d s n ≤ n := by
  unfold scanLen extractedLen; split_ifs <;> omega

theorem scanTriggered_eq (d : Direction) (s : State) (n : Nat) :
    scanTriggered d ((extractBitStep d)^[n] (extractBegin d s)) = stopsAt d s n := by
  have h := (extract_same d n s).kreg
  unfold scanTriggered stopsAt
  rw [h, extract_offs]; rfl

theorem extractFinish_bitlen (d : Direction) (s : State) (n : Nat) :
    (extractFinish d ((extractBitStep d)^[n] (extractBegin d s))).bitlen = scanLen d s n := by
  have h := (extract_same d n s).kreg
  show extractedLen _ _ _ _ = _
  rw [scanTriggered_eq, h, extract_offs]; rfl

theorem extractFinish_status (d : Direction) (s : State) (n : Nat) :
    (extractFinish d ((extractBitStep d)^[n] (extractBegin d s))).status =
      statusWord false true false (scanLen d s n == 0) (stopsAt d s n) := by
  have h := (extract_same d n s).kreg
  show statusWord _ _ _ _ _ = _
  rw [scanTriggered_eq, h, extract_offs]; rfl

/-- `EXTRACT` leaves the bits it read, in order, in `BITBUF`, up to the length it ends with. -/
theorem extractFinish_read (d : Direction) (s : State) (n : Nat) {i : Nat} (hi : i < scanLen d s n) :
    readBitBuf (extractFinish d ((extractBitStep d)^[n] (extractBegin d s))).bitBuf i =
      lsbAt d (startCommand s) i := by
  have hin : i < n := lt_of_lt_of_le hi (scanLen_le d s n)
  have hb : (extractFinish d ((extractBitStep d)^[n] (extractBegin d s))).bitBuf =
      ((extractBitStep d)^[n] (extractBegin d s)).bitBuf.cut
        ((extractBitStep d)^[n] (extractBegin d s)).freeCount (scanLen d s n) :=
    congrArg (Buffer.cut _ _) (extractFinish_bitlen d s n)
  rw [hb, readBitBuf_cut _ _ hi (extract_bits d n s hin)]
  simp [readBitBuf, extract_bits d n s hin]

end Sys2Proof.Machine
end

