-- ==== Sys2Proof/Laws/Commands.lean ====
section
/-! SUPPORT. What each command without bit steps, a host statement and a step can answer: one inversion lemma
each, so that no proof about them unfolds a meaning twice (40, 41, 42; 10_state R21, R22). -/

namespace Sys2Proof.Machine

/-! ## The commands without bit steps -/

/-- `BYTES2BITS` and `TEXT2BITS`: the length does not fit, or the expansion. -/
theorem bytesToBitsBody_cases (s : State) :
    (2 ^ Config.offsetBits s.dimBits ≤ 8 * s.bytelen ∧
        bytesToBitsBody (startCommand s) = raise .illegalOperand 0 (startCommand s)) ∨
      (8 * s.bytelen < 2 ^ Config.offsetBits s.dimBits ∧
        bytesToBitsBody (startCommand s) = bytesToBitsGo (startCommand s)) := by
  rcases Nat.lt_or_ge (8 * s.bytelen) (2 ^ Config.offsetBits s.dimBits) with h | h
  · exact .inr ⟨h, by simp [bytesToBitsBody, bytesToBitsCheck, checked, Nat.not_le.2 h]⟩
  · exact .inl ⟨h, by simp [bytesToBitsBody, bytesToBitsCheck, checked, h]⟩

/-- `SETLSB`: one of its three refusals, in their order, or its result. -/
theorem setlsbBody_cases (pos : Nat) (s : State) :
    (pos ≠ 0 ∧ setlsbBody pos (startCommand s) = raise .invalidPosition 0 (startCommand s)) ∨
      (pos = 0 ∧ 255 < s.arg0 ∧
        setlsbBody pos (startCommand s) = raise .illegalOperand 0 (startCommand s)) ∨
      (pos = 0 ∧ s.arg0 ≤ 255 ∧ 1 < s.arg1 ∧
        setlsbBody pos (startCommand s) = raise .invalidBit 0 (startCommand s)) ∨
      (pos = 0 ∧ s.arg0 ≤ 255 ∧ s.arg1 ≤ 1 ∧
        setlsbBody pos (startCommand s) = setlsbGo (startCommand s)) := by
  by_cases h1 : pos = 0
  · by_cases h2 : 255 < s.arg0
    · exact .inr (.inl ⟨h1, h2, by simp [setlsbBody, setlsbCheck, checked, h1, h2]⟩)
    · by_cases h3 : 1 < s.arg1
      · exact .inr (.inr (.inl ⟨h1, by omega, h3,
          by simp [setlsbBody, setlsbCheck, checked, h1, h2, h3]⟩))
      · exact .inr (.inr (.inr ⟨h1, by omega, by omega,
          by simp [setlsbBody, setlsbCheck, checked, h1, h2, h3]⟩))
  · exact .inl ⟨h1, by simp [setlsbBody, setlsbCheck, checked, h1]⟩

/-- `GETLSB`: one of its two refusals, in their order, or its result. -/
theorem getlsbBody_cases (pos : Nat) (s : State) :
    (pos ≠ 0 ∧ getlsbBody pos (startCommand s) = raise .invalidPosition 0 (startCommand s)) ∨
      (pos = 0 ∧ 255 < s.arg0 ∧
        getlsbBody pos (startCommand s) = raise .illegalOperand 0 (startCommand s)) ∨
      (pos = 0 ∧ s.arg0 ≤ 255 ∧
        getlsbBody pos (startCommand s) = getlsbGo (startCommand s)) := by
  by_cases h1 : pos = 0
  · by_cases h2 : 255 < s.arg0
    · exact .inr (.inl ⟨h1, h2, by simp [getlsbBody, getlsbCheck, checked, h1, h2]⟩)
    · exact .inr (.inr ⟨h1, by omega, by simp [getlsbBody, getlsbCheck, checked, h1, h2]⟩)
  · exact .inl ⟨h1, by simp [getlsbBody, getlsbCheck, checked, h1]⟩

/-- `ADDR`: the offset is at or beyond the capacity, or its result. -/
theorem addrBody_cases (d : Direction) (s : State) :
    (s.cap d ≤ s.arg0 ∧ addrBody d (startCommand s) = raise .illegalOperand 0 (startCommand s)) ∨
      (s.arg0 < s.cap d ∧ addrBody d (startCommand s) = addrGo d (startCommand s)) := by
  have hc : (startCommand s).cap d = s.cap d := rfl
  rcases Nat.lt_or_ge s.arg0 (s.cap d) with h | h
  · exact .inr ⟨h, by simp [addrBody, addrCheck, checked, hc, Nat.not_le.2 h]⟩
  · exact .inl ⟨h, by simp [addrBody, addrCheck, checked, hc, h]⟩

/-! ## The host's statements and the step -/

/-- A word written to `CMD` is refused by a decode test, or runs the command it names (R22, R97). -/
theorem issue_cases (w : CmdWord) (s : State) :
    (∃ e, decode w = .bad e ∧
        issue w s = .next (raise .illegalOperand 0 (startCommand { s with cmd := w }))) ∨
      (∃ i, decode w = .instr i ∧ issue w s = exec i { s with cmd := w }) := by
  rcases h : decode w with i | e
  · exact .inr ⟨i, rfl, by simp [issue, h]⟩
  · exact .inl ⟨e, rfl, by simp [issue, h]⟩

/-- A step that answers a next state was a phase step, a stay of the idle block, or a host statement. -/
theorem step_cases {s t : State} (h : step s = .next t) :
    (s.busy = true ∧ s.script = [] ∧ t = tick s) ∨
      (s.busy = false ∧ s.script = [] ∧ t = s) ∨
      (s.busy = false ∧ ∃ op rest, s.script = op :: rest ∧
        hostStep op { s with script := rest } = .next t) := by
  rcases hb : s.busy with _ | _ <;> rcases hs : s.script with _ | ⟨op, rest⟩
  · simp only [step, hb, idleStep, hs] at h
    exact .inr (.inl ⟨rfl, rfl, by simpa using h.symm⟩)
  · simp only [step, hb, idleStep, hs] at h
    exact .inr (.inr ⟨rfl, op, rest, rfl, by simpa using h⟩)
  · simp only [step, hb, busyStep, hs] at h
    exact .inl ⟨rfl, rfl, by simpa using h.symm⟩
  · cases op <;> simp [step, hb, busyStep, hs] at h

/-- The table's numbering of a word is the word (R90: one 16-bit word). -/
@[simp] theorem tableWord_toNat (w : CmdWord) : tableWord 16 w.toNat = w := by
  apply BitVec.eq_of_toNat_eq
  have h : w.toNat < 65536 := w.isLt
  simp [tableWord, h]

/-- The placed word finds the block idle (R22). -/
@[simp] theorem withFetchWord_busy (s : State) (nbits w : Nat) :
    (s.withFetchWord nbits w).busy = false := by simp [State.withFetchWord, pendingCommand, State.busy]

/-- A step from an idle state takes the first host statement. -/
theorem step_idle {s : State} {op : HostOp} {rest : List HostOp} (hb : s.busy = false)
    (hs : s.script = op :: rest) : step s = hostStep op { s with script := rest } := by
  simp [step, hb, idleStep, hs]

end Sys2Proof.Machine
end

