-- ==== Sys2Proof/Laws/PerInstr.lean ====
section
/-! SUPPORT. Families of statements made per instruction, one lemma per constructor of `Instr`. -/

namespace Sys2Proof.Laws.FieldsClear

/-- The fields that must be zero in every legal word, `FMT` and `RSV`, are zero in the encoder's word of a
well-formed command (30_encoding R91, R97 test 2). -/
def Statement (i : Instr) : Prop :=
  i.wellFormed = true → fieldFmt (encode i) = 0 ∧ fieldRsv (encode i) = 0

/-- `FMT` and `RSV` are zero in every word put together from its fields. -/
theorem wordOfFields_clear (op : BitVec 4) (dir : BitVec 2) (pos : BitVec 3) :
    fieldFmt (wordOfFields op dir pos) = 0 ∧ fieldRsv (wordOfFields op dir pos) = 0 := by
  revert op dir pos; decide

theorem bytes2bits : Statement .bytes2bits := fun _ => wordOfFields_clear _ _ _
theorem text2bits : Statement .text2bits := fun _ => wordOfFields_clear _ _ _
theorem bits2bytes : Statement .bits2bytes := fun _ => wordOfFields_clear _ _ _
theorem bits2text : Statement .bits2text := fun _ => wordOfFields_clear _ _ _
theorem setlsb (pos : Nat) : Statement (.setlsb pos) := fun _ => wordOfFields_clear _ _ _
theorem getlsb (pos : Nat) : Statement (.getlsb pos) := fun _ => wordOfFields_clear _ _ _
theorem addrH : Statement .addrH := fun _ => wordOfFields_clear _ _ _
theorem addrV : Statement .addrV := fun _ => wordOfFields_clear _ _ _
theorem addrD : Statement .addrD := fun _ => wordOfFields_clear _ _ _
theorem capH : Statement .capH := fun _ => wordOfFields_clear _ _ _
theorem capV : Statement .capV := fun _ => wordOfFields_clear _ _ _
theorem capD : Statement .capD := fun _ => wordOfFields_clear _ _ _
theorem embedH : Statement .embedH := fun _ => wordOfFields_clear _ _ _
theorem embedV : Statement .embedV := fun _ => wordOfFields_clear _ _ _
theorem embedD : Statement .embedD := fun _ => wordOfFields_clear _ _ _
theorem extractH : Statement .extractH := fun _ => wordOfFields_clear _ _ _
theorem extractV : Statement .extractV := fun _ => wordOfFields_clear _ _ _
theorem extractD : Statement .extractD := fun _ => wordOfFields_clear _ _ _
theorem extractnH : Statement .extractnH := fun _ => wordOfFields_clear _ _ _
theorem extractnV : Statement .extractnV := fun _ => wordOfFields_clear _ _ _
theorem extractnD : Statement .extractnD := fun _ => wordOfFields_clear _ _ _

end Sys2Proof.Laws.FieldsClear
end

