-- ==== Sys2Proof/Tests/Slice0.lean ====
section
/-! SUPPORT. Tests: well-formedness, the decoding of words written out from R91 to R93, one or two small steps per
command with the results of 95_test_vectors, and one witness per statement that has hypotheses. -/

namespace Sys2Proof.Tests

open Sys2Proof.Machine Sys2Proof.Safety

set_option maxRecDepth 20000

/-! ## Small states -/

/-- A state with an image of this shape, every channel byte `v`. -/
def canvas (w h : Nat) (v : Byte) : State :=
  { State.reset with
    imgW := w, imgH := h, img := Image.attach 0 w h (List.replicate (3 * w * h) v) }

/-- A state with an image of one row whose pixel `i` has all three channels equal to bit `i`: the stream of
its LSBs in horizontal order is `bits`. -/
def strip (k : BitVec 8) (bits : List Bit) : State :=
  { State.reset with
    imgW := bits.length, imgH := 1, kreg := k
    img := Image.attach 0 bits.length 1
      (bits.flatMap fun b => List.replicate 3 (if b then 1#8 else 0#8)) }

/-- The state with a bit sequence. -/
def withBits (bits : List Bit) (s : State) : State :=
  { s with bitBuf := Buffer.produced 0 bits, bitlen := bits.length }

/-- The state with a byte sequence. -/
def withBytes (bytes : List Byte) (s : State) : State :=
  { s with byteBuf := Buffer.produced 0 bytes, bytelen := bytes.length }

/-- The state with these operand registers. -/
def withArgs (a0 a1 : Nat) (s : State) : State := { s with arg0 := a0, arg1 := a1 }

/-- The state with the shape registers only; no image is read. -/
def withShape (w h : Nat) (s : State) : State := { s with imgW := w, imgH := h }

/-- What a command leaves, through `f`; `none` at a stop. -/
def after {α : Type} (f : State → α) (i : Instr) (s : State) : Option α :=
  match exec i s with
  | .next t => some (f t)
  | .fault _ => none
  | .refused _ => none

/-- `STATUS`, `ERRCODE`, `ERRINFO`. -/
def report (t : State) : Nat × Nat × Nat := (t.status.toNat, t.errcode.toNat, t.errinfo)

/-- `"Hi"` as bits (V1). -/
def hi : List Bit :=
  [false, true, false, false, true, false, false, false, false, true, true, false, true, false, false, true]

/-! ## Well-formed and ill-formed terms (R91) -/

theorem test_setlsb_field_fits : (Instr.setlsb 7).wellFormed = true := by decide
theorem test_setlsb_field_too_wide : (Instr.setlsb 8).wellFormed = false := by decide
theorem test_getlsb_field_fits : (Instr.getlsb 7).wellFormed = true := by decide
theorem test_getlsb_field_too_wide : (Instr.getlsb 8).wellFormed = false := by decide

/-! ## Decoding: words written out as OP, DIR, FMT, RSV, POS (R91, R92, R93) -/

theorem test_decode_bytes2bits : decode 0b0001_00_0_000000_000#16 = .instr .bytes2bits := by decide
theorem test_decode_text2bits : decode 0b0010_00_0_000000_000#16 = .instr .text2bits := by decide
theorem test_decode_bits2bytes : decode 0b0011_00_0_000000_000#16 = .instr .bits2bytes := by decide
theorem test_decode_bits2text : decode 0b0100_00_0_000000_000#16 = .instr .bits2text := by decide
theorem test_decode_setlsb : decode 0b0101_00_0_000000_000#16 = .instr (.setlsb 0) := by decide
theorem test_decode_setlsb_pos : decode 0b0101_00_0_000000_110#16 = .instr (.setlsb 6) := by decide
theorem test_decode_getlsb : decode 0b0110_00_0_000000_000#16 = .instr (.getlsb 0) := by decide
theorem test_decode_getlsb_pos : decode 0b0110_00_0_000000_011#16 = .instr (.getlsb 3) := by decide
theorem test_decode_addrH : decode 0b0111_00_0_000000_000#16 = .instr .addrH := by decide
theorem test_decode_addrV : decode 0b0111_01_0_000000_000#16 = .instr .addrV := by decide
theorem test_decode_addrD : decode 0b0111_10_0_000000_000#16 = .instr .addrD := by decide
theorem test_decode_capH : decode 0b1000_00_0_000000_000#16 = .instr .capH := by decide
theorem test_decode_capV : decode 0b1000_01_0_000000_000#16 = .instr .capV := by decide
theorem test_decode_capD : decode 0b1000_10_0_000000_000#16 = .instr .capD := by decide
theorem test_decode_embedH : decode 0b1001_00_0_000000_000#16 = .instr .embedH := by decide
theorem test_decode_embedV : decode 0b1001_01_0_000000_000#16 = .instr .embedV := by decide
theorem test_decode_embedD : decode 0b1001_10_0_000000_000#16 = .instr .embedD := by decide
theorem test_decode_extractH : decode 0b1010_00_0_000000_000#16 = .instr .extractH := by decide
theorem test_decode_extractV : decode 0b1010_01_0_000000_000#16 = .instr .extractV := by decide
theorem test_decode_extractD : decode 0b1010_10_0_000000_000#16 = .instr .extractD := by decide
theorem test_decode_extractnH : decode 0b1011_00_0_000000_000#16 = .instr .extractnH := by decide
theorem test_decode_extractnV : decode 0b1011_01_0_000000_000#16 = .instr .extractnV := by decide
theorem test_decode_extractnD : decode 0b1011_10_0_000000_000#16 = .instr .extractnD := by decide
theorem test_decode_reserved_op : decode 0b1100_00_0_000000_000#16 = .bad .reservedOp := by decide
theorem test_decode_fmt_set : decode 0b1001_00_1_000000_000#16 = .bad .reservedBits := by decide
theorem test_decode_rsv_set : decode 0b1001_00_0_000001_000#16 = .bad .reservedBits := by decide
theorem test_decode_unused_dir : decode 0b0101_01_0_000000_001#16 = .bad .unusedDir := by decide
theorem test_decode_unused_pos : decode 0b1001_00_0_000000_001#16 = .bad .unusedPos := by decide
theorem test_decode_reserved_dir : decode 0b1001_11_0_000000_000#16 = .bad .reservedDir := by decide

/-- The table's numbering: a row's word, as the host gives it. -/
theorem test_decode_table_word : decodeTableWord 16 0xB400 = some .extractnV := by decide

/-! ## One step per command -/

/-- V11: `0xA5` is `10100101`. -/
theorem test_bytes2bits : after State.bits .bytes2bits (withBytes [0xA5] State.reset) =
    some [true, false, true, false, false, true, false, true] := by decide

/-- V11: a length that does not fit `BITLEN` is refused; here `OFFSET_BITS = 4`. -/
theorem test_bytes2bits_too_long :
    after report .bytes2bits { withBytes [1, 2] State.reset with dimBits := 2 } = some (4, 5, 0) := by
  decide

/-- V1, V11: `"Hi"`. -/
theorem test_text2bits : after State.bits .text2bits (withBytes [0x48, 0x69] State.reset) = some hi := by
  decide

/-- V11: `01001000011` pads to `0x48, 0x60`. -/
theorem test_bits2bytes : after State.bytes .bits2bytes (withBits (hi.take 11) State.reset) =
    some [0x48, 0x60] := by decide

/-- V11: `01001000011` drops its tail. -/
theorem test_bits2text : after State.bytes .bits2text (withBits (hi.take 11) State.reset) =
    some [0x48] := by decide

/-- V18. -/
theorem test_setlsb : after (fun t => t.res0) (.setlsb 0) (withArgs 254 1 State.reset) = some 255 := by
  decide

/-- V18: a position other than 0 is reported before a value out of range. -/
theorem test_setlsb_position : after report (.setlsb 3) (withArgs 256 2 State.reset) = some (4, 4, 0) := by
  decide

/-- V18. -/
theorem test_getlsb : after (fun t => t.res0) (.getlsb 0) (withArgs 0x69 0 State.reset) = some 1 := by
  decide

/-- V18. -/
theorem test_getlsb_range : after report (.getlsb 0) (withArgs 300 0 State.reset) = some (4, 5, 0) := by
  decide

/-- V19: `5 x 3`, offset 14. -/
theorem test_addrH : after (fun t => (t.res0, t.res1, t.res2)) .addrH
    (withArgs 14 0 (withShape 5 3 State.reset)) = some (4, 2, 2) := by decide

/-- V19: `5 x 3`, offset 5. -/
theorem test_addrV : after (fun t => (t.res0, t.res1, t.res2)) .addrV
    (withArgs 5 0 (withShape 5 3 State.reset)) = some (1, 2, 2) := by decide

/-- V6: `4 x 3`, offset 2. -/
theorem test_addrD : after (fun t => (t.res0, t.res1, t.res2)) .addrD
    (withArgs 2 0 (withShape 4 3 State.reset)) = some (2, 2, 2) := by decide

/-- V19: the offset at the capacity. -/
theorem test_addrD_beyond : after report .addrD (withArgs 4 0 (withShape 4 4 State.reset)) =
    some (4, 5, 0) := by decide

/-- V19. -/
theorem test_capH : after (fun t => t.res0) .capH (withShape 65535 65535 State.reset) =
    some 4294836225 := by decide

/-- V19. -/
theorem test_capV : after (fun t => t.res0) .capV (withShape 5 3 State.reset) = some 15 := by decide

/-- V6. -/
theorem test_capD : after (fun t => t.res0) .capD (withShape 4 3 State.reset) = some 3 := by decide

/-- V1: offset 4 of a `4 x 4` image is the green byte of pixel `(0, 1)`. -/
theorem test_embedH : after (fun t => (imgByte t 1 0 1, imgByte t 0 1 1, imgByte t 0 1 0)) .embedH
    (withBits (hi.take 5) (canvas 4 4 0)) = some (1, 1, 0) := by decide

/-- V5: one bit over the capacity is refused and reports the capacity in bits. -/
theorem test_embedH_too_long : after report .embedH (withBits hi (canvas 3 5 0)) = some (4, 2, 15) := by
  decide

/-- V17: `0x64 = 01100100` in a `3 x 5` image, vertically. -/
theorem test_embedV : after (fun t => (imgByte t 0 1 1, imgByte t 0 2 2, imgByte t 1 0 2)) .embedV
    (withBits [false, true, true, false, false, true, false, false] (canvas 3 5 0)) =
    some (1, 1, 1) := by decide

/-- V7: `1010` on the diagonal of an all-255 image. -/
theorem test_embedD : after (fun t => (imgByte t 1 1 1, imgByte t 3 3 0, imgByte t 2 2 2)) .embedD
    (withBits [true, false, true, false] (canvas 4 4 255)) = some (254, 254, 255) := by decide

/-- V6: a diagonal needs a square image. -/
theorem test_embedD_shape : after report .embedD (withBits [true] (canvas 4 3 0)) = some (4, 1, 0) := by
  decide

/-- V13: `01000001` followed by zeros, `K = 1`: trigger at 16, eight bits kept. -/
theorem test_extractH : after (fun t => (t.bits, t.offs, t.runLen, t.status)) .extractH
    (strip 1 ([false, true, false, false, false, false, false, true] ++ List.replicate 16 false)) =
    some ([false, true, false, false, false, false, false, true], 16, 8, 0x12) := by decide

/-- R152, R197: a `2 x 2` image read column by column to its end: `(0,0).R`, `(0,1).G`, `(1,0).B`,
`(1,1).R`. -/
theorem test_extractV : after (fun t => (t.bits, report t)) .extractV
    { withShape 2 2 State.reset with
      kreg := 1, img := Image.attach 0 2 2 [1, 0, 0, 0, 0, 1, 0, 0, 0, 0, 0, 0] } =
    some ([true, false, true, false], 2, 0, 0) := by decide

/-- V22: `K = 0` is refused. -/
theorem test_extractV_k_zero : after report .extractV (canvas 2 2 0) = some (4, 5, 0) := by decide

/-- V7: the diagonal reads channel `i mod 3` of pixel `(i, i)`, whatever `KREG` holds. -/
theorem test_extractD : after (fun t => (t.bits, report t)) .extractD (canvas 3 3 255) =
    some ([true, true, true], 2, 0, 0) := by decide

/-- V24: the first `NWIN` bits. -/
theorem test_extractnH : after State.bits .extractnH
    { strip 0 (hi.take 8) with nwin := 5 } = some (hi.take 5) := by decide

/-- V3: a window longer than the capacity. -/
theorem test_extractnV : after report .extractnV { canvas 4 4 0 with nwin := 17 } = some (4, 2, 16) := by
  decide

/-- V24: an empty window. -/
theorem test_extractnD : after (fun t => (t.bitlen, report t)) .extractnD (canvas 2 2 0) =
    some (0, 0x0A, 0, 0) := by decide

/-! ## The step -/

/-- The placed word runs (R22): `CAP.h` on a `2 x 3` image. -/
theorem test_placed_word_runs :
    (match step (State.withFetchWord (canvas 2 3 0) 16 0x8000) with
      | .next t => some (t.res0, t.cmd)
      | .fault _ => none
      | .refused _ => none) = some (6, 0x8000) := by decide

/-- V20: a refused word reads back from `CMD`. -/
theorem test_refused_word :
    (match step (State.withFetchWord State.reset 16 0xFFFF) with
      | .next t => some (report t, t.cmd)
      | .fault _ => none
      | .refused _ => none) = some ((4, 5, 0), 0xFFFF) := by decide

/-- R40, R173: a command word started by hand goes through `CHECK` and makes one bit step. -/
theorem test_phase_steps :
    (match core.run 2 { startCommand (withBits [true, true] (canvas 2 2 0)) with cmd := 0x9000 } with
      | .next t => some (t.phase, t.offs, t.curX, t.curY, t.curC, t.pix)
      | .fault _ => none
      | .refused _ => none) = some (.run, 1, 0, 0, 0, { r := 1, g := 0, b := 0 }) := by decide

/-- U12, U13: the reset input and a host access while `BUSY = 1` are stuck. -/
theorem test_busy_is_stuck :
    [HostOp.reset, .readReg 1].map (fun op =>
      match step { startCommand State.reset with script := [op] } with
      | .next _ => none
      | .fault r => some r
      | .refused _ => none) = [some .resetWhileBusy, some .hostAccessWhileBusy] := by decide

/-! ## Witnesses: every statement with hypotheses has a case that meets them -/

theorem witness_EncodedCommandsDecodeBack :
    (Instr.setlsb 7).wellFormed = true ∧ Instr.extractnD.wellFormed = true := by decide

theorem witness_DecodedWordsReencode : decode 0x6007#16 = .instr (.getlsb 7) := by decide

/-- The case a word falls in, as `DecodeTestsDecideTheWord` states it. -/
def refusedWord (w : Nat) : Bool :=
  let op := w / 4096
  let dir := w / 1024 % 4
  let usesDir := decide (7 ≤ op) && decide (op ≤ 11)
  let usesPos := op == 5 || op == 6
  op == 0 || decide (12 ≤ op) || w / 512 % 2 != 0 || w / 8 % 64 != 0 || (!usesDir && dir != 0) ||
    (!usesPos && w % 8 != 0) || (usesDir && dir == 3)

/-- The words at the edges of each test of R97: refused ones, those with a position, legal ones. -/
theorem witness_DecodeTestsDecideTheWord :
    [0x0FFF, 0xC000, 0x1200, 0xB008, 0x9100, 0x1400, 0x6C00, 0x7001, 0x4007, 0xBC00].all
      refusedWord = true ∧
    [0x5001, 0x5007, 0x6001, 0x6007].all (fun w => !refusedWord w && w % 8 != 0) = true ∧
    [0x1000, 0x6000, 0x7000, 0xB800].all (fun w => !refusedWord w && w % 8 == 0) = true := by decide

theorem witness_StepRunsTheDecodedCommand :
    let s := { canvas 2 2 0 with script := [.writeReg 0 0x19000] }
    s.busy = false ∧ s.script = [.writeReg 0 0x19000] ∧
      decode (BitVec.ofNat 16 0x19000) = .instr .embedH := by decide

/-- The same with a word that a decode test refuses. -/
theorem witness_StepRunsTheDecodedCommand_refused :
    let s := { canvas 2 2 0 with script := [.writeReg 0 0xFFFF] }
    s.busy = false ∧ s.script = [.writeReg 0 0xFFFF] ∧
      decode (BitVec.ofNat 16 0xFFFF) = .bad .reservedOp := by decide

theorem witness_HostIsStuckWhileBusy :
    let s := { startCommand State.reset with script := [.reset, .readReg 1] }
    s.busy = true ∧ s.script = .reset :: [.readReg 1] := by decide

theorem witness_HostIsStuckWhileBusy_access :
    let s := { startCommand State.reset with script := [.readReg 1] }
    s.busy = true ∧ s.script = [.readReg 1] := by decide

theorem witness_IdleBlockWaits : (canvas 2 2 7).busy = false ∧ (canvas 2 2 7).script = [] := by decide

theorem witness_PhaseStepsReachCommandEnd :
    decode 0x9000#16 = .instr .embedH ∧ (canvas 3 2 0).imgW * (canvas 3 2 0).imgH + 2 ≤ 8 := by decide

theorem witness_ResetRegistersZero :
    let s := { canvas 2 2 7 with script := [.reset], kreg := 5 }
    s.busy = false ∧ s.script = [.reset] ∧ ∃ t, step s = .next t ∧ t ≠ State.reset :=
  ⟨by decide, rfl, _, rfl, by decide⟩

theorem witness_ResetLeavesImageAlone :
    let s := { canvas 2 2 7 with script := [.reset, .readReg 0] }
    s.busy = false ∧ s.script = [.reset, .readReg 0] := by decide

/-- A state with an image, a bit sequence and a command pending. -/
def busyDesk : State := { withBits [true, false] (canvas 2 2 9) with script := [.writeReg 0 0x9000] }

theorem witness_EveryStepKeepsInv : Inv busyDesk ∧ ∃ t, step busyDesk = .next t ∧ t ≠ busyDesk :=
  ⟨by constructor <;> decide, _, rfl, by decide⟩

/-- Both sides of the length test, at the default `DIM_BITS`. -/
theorem witness_BytesToBitsResult :
    let fits : State := { State.reset with bytelen := 2 ^ 29 - 1 }
    let long : State := { State.reset with bytelen := 2 ^ 29 }
    8 * fits.bytelen < 2 ^ (2 * fits.dimBits) ∧ 2 ^ (2 * long.dimBits) ≤ 8 * long.bytelen := by decide

theorem witness_BytesSurviveRoundTrip :
    let s := withBytes [0x48, 0x69] State.reset
    8 * s.bytelen < 2 ^ (2 * s.dimBits) ∧ Instr.text2bits ∈ [Instr.bytes2bits, Instr.text2bits] ∧
      Instr.bits2text ∈ [Instr.bits2bytes, Instr.bits2text] := by decide

theorem witness_DecodingsDifferOnRaggedTail :
    (withBits (hi.take 8) State.reset).bitlen % 8 = 0 ∧
      (withBits (hi.take 7) State.reset).bitlen % 8 ≠ 0 := by decide

/-- The four clauses of `SETLSB`, each at an edge of its range. -/
theorem witness_SetlsbResult :
    (let s := withArgs 255 1 State.reset; s.arg0 ≤ 255 ∧ s.arg1 ≤ 1) ∧
    (let s := withArgs 256 0 State.reset; 255 < s.arg0) ∧
    (let s := withArgs 255 2 State.reset; s.arg0 ≤ 255 ∧ 1 < s.arg1) ∧ 7 ≠ 0 := by decide

theorem witness_GetlsbResult :
    (withArgs 255 0 State.reset).arg0 ≤ 255 ∧ 255 < (withArgs 256 0 State.reset).arg0 ∧ 7 ≠ 0 := by
  decide

/-- The offsets at both sides of each capacity of a `4 x 3` image. -/
theorem witness_AddrResult :
    (let s := withArgs 11 0 (withShape 4 3 State.reset); s.arg0 < s.imgW * s.imgH) ∧
    (let s := withArgs 12 0 (withShape 4 3 State.reset); s.imgW * s.imgH ≤ s.arg0) ∧
    (let s := withArgs 2 0 (withShape 4 3 State.reset); s.arg0 < min s.imgW s.imgH) ∧
    (let s := withArgs 3 0 (withShape 4 3 State.reset); min s.imgW s.imgH ≤ s.arg0) := by decide

theorem witness_CapResult :
    let s := withShape 4 3 State.reset
    (Instr.capD, 3) ∈ [(Instr.capH, s.imgW * s.imgH), (Instr.capV, s.imgW * s.imgH),
      (Instr.capD, min s.imgW s.imgH)] := by decide

theorem witness_MappingStaysInImage :
    11 < cap .horizontal 4 3 ∧ 11 < cap .vertical 4 3 ∧ 2 < cap .diagonal 4 3 := by decide

theorem witness_MappingVisitsEachPixelOnce :
    (11 < cap .vertical 4 3 ∧ (addr .vertical 11 4 3).x = 3 ∧ (addr .vertical 11 4 3).y = 2) ∧
      Direction.vertical ≠ .diagonal ∧ 3 < 4 ∧ 2 < min 4 3 := by decide

/-- Every direction at its full capacity. -/
theorem witness_EmbedResult :
    (∀ p ∈ [(Instr.embedH, Direction.horizontal), (.embedV, .vertical)],
      p ∈ embeds ∧ ShapeOk p.2 (withBits (hi.take 4) (canvas 2 2 0)) ∧
        ShapeHonest (withBits (hi.take 4) (canvas 2 2 0)) ∧
        (withBits (hi.take 4) (canvas 2 2 0)).bitlen = (canvas 2 2 0).cap p.2) ∧
    (Instr.embedD, Direction.diagonal) ∈ embeds ∧
      ShapeOk .diagonal (withBits [true, true] (canvas 2 2 0)) ∧
      (withBits [true, true] (canvas 2 2 0)).bitlen = (canvas 2 2 0).cap .diagonal ∧
      IsImgByte (canvas 2 2 0) 1 1 2 := by decide

theorem witness_EmbedRefusals :
    ¬ ShapeOk .diagonal (canvas 2 3 0) ∧ ShapeOk .diagonal (canvas 2 2 0) ∧
      (canvas 2 2 0).cap .diagonal < (withBits (hi.take 3) (canvas 2 2 0)).bitlen := by decide

theorem witness_EmbedTouchesOnlyLsbs :
    ∃ t, exec .embedH (withBits [true] (canvas 2 2 0)) = .next t ∧
      IsImgByte (withBits [true] (canvas 2 2 0)) 0 0 0 ∧
      imgByte t 0 0 0 ≠ imgByte (withBits [true] (canvas 2 2 0)) 0 0 0 := ⟨_, rfl, by decide⟩

theorem witness_EmbedWritesNoTerminator :
    let s := withBits [true] (canvas 2 2 0)
    ShapeHonest s ∧ (∃ t, exec .embedV s = .next t) ∧ s.bitlen ≤ 3 ∧ 3 < s.cap .vertical :=
  ⟨by decide, ⟨_, rfl⟩, by decide⟩

/-- A window of the whole image, one beyond it, and an oblong image. -/
theorem witness_ExtractnResult :
    (let s := { canvas 2 2 0 with nwin := 4 }; s.nwin = s.cap .horizontal ∧ ShapeHonest s) ∧
    (let s := { canvas 2 2 0 with nwin := 3 }; ShapeOk .diagonal s ∧ s.cap .diagonal < s.nwin) ∧
    ¬ ShapeOk .diagonal (canvas 2 3 0) := by decide

theorem witness_KnownLengthReadsBackPayload :
    let s := withBits (hi.take 4) (canvas 2 2 0)
    (Instr.embedV, Instr.extractnV, Direction.vertical) ∈ embedExtractPairs ∧
      ShapeOk .vertical s ∧ ShapeHonest s ∧ s.bitlen ≤ s.cap .vertical := by decide

theorem witness_PayloadSurvivesEmbedding :
    let s := withBytes [0x41] (canvas 4 2 0)
    ShapeOk .horizontal s ∧ ShapeHonest s ∧ 8 * s.bytelen ≤ s.cap .horizontal ∧
      8 * s.bytelen < 2 ^ (2 * s.dimBits) := by decide

theorem witness_ScanCompletes :
    (Instr.extractV, Direction.vertical) ∈ scans ∧ (strip 255 [true]).kreg ≠ 0 := by decide

theorem witness_EmptyImageYieldsNothing :
    let s := { withShape 4 0 State.reset with kreg := 1 }
    s.kreg ≠ 0 ∧ s.imgW * s.imgH = 0 := by decide

/-- A stream without a window of eight equal bits, and an image one pixel short of a trigger. -/
theorem witness_ExhaustedScanReturnsAll :
    (let s := strip 1 (hi ++ [true])
     ShapeHonest s ∧ s.kreg ≠ 0 ∧
       ∀ n ≤ s.imgW * s.imgH, ¬ WindowTrigger (stream .horizontal s) s.kreg.toNat n) ∧
    (let s := strip 1 (List.replicate 15 false)
     ShapeHonest s ∧ s.kreg ≠ 0 ∧ s.imgW * s.imgH < 8 * (s.kreg.toNat + 1)) := by decide

/-- A trigger at the first possible count, on equal bits. -/
theorem witness_ScanStopsAtFirstTrigger :
    let s := strip 1 (List.replicate 16 false)
    ShapeHonest s ∧ FirstTrigger (stream .horizontal s) s.kreg.toNat (s.imgW * s.imgH) 16 ∧
      AllEqual (stream .horizontal s) 0 16 := by
  refine ⟨by decide, ⟨by decide, by decide, ?_⟩, by decide⟩
  intro l hl h
  have := h.1
  simp [strip] at this
  omega

/-- A trigger on bits that are not all equal. -/
theorem witness_ScanStopsAtFirstTrigger_mixed :
    let s := strip 1 (true :: List.replicate 16 false)
    ShapeHonest s ∧ FirstTrigger (stream .horizontal s) s.kreg.toNat (s.imgW * s.imgH) 16 ∧
      ¬ AllEqual (stream .horizontal s) 0 16 := by
  refine ⟨by decide, ⟨by decide, by decide, ?_⟩, by decide⟩
  intro l hl h
  have := h.1
  simp [strip] at this
  omega

/-- A trigger one bit after the first possible count. -/
theorem witness_ScanStopsAtFirstTrigger_later :
    let s := strip 1 (List.replicate 9 true ++ List.replicate 8 false)
    s.kreg ≠ 0 ∧ ShapeHonest s ∧
      FirstTrigger (stream .horizontal s) s.kreg.toNat (s.imgW * s.imgH) 17 ∧
      8 * (s.kreg.toNat + 1) < 17 := by
  refine ⟨by decide, by decide, ⟨by decide, by decide, ?_⟩, by decide⟩
  intro l hl h
  have h16 : l = 16 := by
    have := h.1
    simp [strip] at this
    omega
  subst h16
  exact absurd h (by decide)

theorem witness_RunCounterAgreesWithWindow : 1 ≤ 1 ∧ 8 * 1 ≤ 8 := by decide

/-- An image with just enough equal bits, and one a pixel short. -/
theorem witness_UniformStartYieldsNothing :
    (let s := strip 1 (List.replicate 16 true)
     s.kreg ≠ 0 ∧ ShapeHonest s ∧ 8 * (s.kreg.toNat + 1) ≤ s.imgW * s.imgH ∧
       AllEqual (stream .horizontal s) 0 (8 * (s.kreg.toNat + 1))) ∧
    (let s := strip 1 (List.replicate 15 true)
     s.kreg ≠ 0 ∧ ShapeHonest s ∧ s.imgW * s.imgH < 8 * (s.kreg.toNat + 1)) := by decide

/-- What `PayloadThenZerosIsRecovered` and, with the other tail, `PayloadThenOnesIsRecovered` ask of a strip with
`K = 1` and a payload of `N` bits. -/
def payloadThen (tail : Bit) (N e : Nat) (s : State) : Prop :=
  s.kreg ≠ 0 ∧ ShapeHonest s ∧ N + 8 * (s.kreg.toNat + 1) ≤ s.imgW * s.imgH ∧ e ≤ N ∧
    (∀ k < s.imgW * s.imgH, e ≤ k → stream .horizontal s k = tail) ∧
    (0 < e → stream .horizontal s (e - 1) = !tail) ∧
    (∀ n < max (e + 8 * s.kreg.toNat) (8 * s.kreg.toNat + 8),
      ¬ WindowTrigger (stream .horizontal s) s.kreg.toNat n)

/-- The three clauses at their edges: no `1`, a last `1` at index 0 and at 6, and a last `1` at index 7. -/
theorem witness_PayloadThenZerosIsRecovered :
    payloadThen false 8 0 (strip 1 (List.replicate 24 false)) ∧
    payloadThen false 8 1 (strip 1 (true :: List.replicate 23 false)) ∧
    payloadThen false 8 7 (strip 1 (List.replicate 6 false ++ true :: List.replicate 17 false)) ∧
    payloadThen false 8 8 (strip 1 (List.replicate 7 false ++ true :: List.replicate 16 false)) := by
  refine ⟨?_, ?_, ?_, ?_⟩ <;>
    refine ⟨by decide, by decide, by decide, by decide, by decide, by decide, ?_⟩ <;>
    · intro n hn h
      have := h.1
      simp [strip] at this hn
      omega

/-- The same edges with a tail of ones. -/
theorem witness_PayloadThenOnesIsRecovered :
    payloadThen true 8 0 (strip 1 (List.replicate 24 true)) ∧
    payloadThen true 8 1 (strip 1 (false :: List.replicate 23 true)) ∧
    payloadThen true 8 7 (strip 1 (List.replicate 6 true ++ false :: List.replicate 17 true)) ∧
    payloadThen true 8 8 (strip 1 (List.replicate 7 true ++ false :: List.replicate 16 true)) := by
  refine ⟨?_, ?_, ?_, ?_⟩ <;>
    refine ⟨by decide, by decide, by decide, by decide, by decide, by decide, ?_⟩ <;>
    · intro n hn h
      have := h.1
      simp [strip] at this hn
      omega

/-- Nothing triggers early: a payload whose last bit is `1`, and one of eight bits whose last bit is `0`. -/
theorem witness_PayloadIsReturnedExactlyWhen :
    payloadThen false 8 8 (strip 1 (List.replicate 7 false ++ true :: List.replicate 16 false)) ∧
      payloadThen false 8 7 (strip 1 (List.replicate 6 false ++ true :: List.replicate 17 false)) :=
  ⟨witness_PayloadThenZerosIsRecovered.2.2.2, witness_PayloadThenZerosIsRecovered.2.2.1⟩

/-- Something triggers early: sixteen equal bits before the last `1` of a payload of 17 bits. -/
theorem witness_PayloadIsReturnedExactlyWhen_early :
    let s := strip 1 (List.replicate 16 false ++ true :: List.replicate 16 false)
    s.kreg ≠ 0 ∧ ShapeHonest s ∧ 17 + 8 * (s.kreg.toNat + 1) ≤ s.imgW * s.imgH ∧
      (∀ k < s.imgW * s.imgH, 17 ≤ k → stream .horizontal s k = false) ∧
      stream .horizontal s 16 = true ∧ WindowTrigger (stream .horizontal s) s.kreg.toNat 16 :=
  ⟨by decide, by decide, by decide, by decide, by decide, by decide⟩

/-- One byte, its last `1` at either end, so that `N = 8`. -/
theorem witness_PayloadBytesAreRecovered :
    (payloadThen false 8 8 (strip 1 (List.replicate 7 false ++ true :: List.replicate 16 false)) ∧
      8 % 8 = 0 ∧ 8 - 8 < 8) ∧
    (payloadThen false 8 1 (strip 1 (true :: List.replicate 23 false)) ∧ 8 - 8 < 1) :=
  ⟨⟨witness_PayloadThenZerosIsRecovered.2.2.2, by decide⟩,
    witness_PayloadThenZerosIsRecovered.2.1, by decide⟩

/-- Two bytes, the last `1` at index 8, so that `BITS2TEXT` loses the last byte. -/
theorem witness_PayloadBytesAreRecovered_lost :
    payloadThen false 16 9
      (strip 1 (List.replicate 8 false ++ true :: List.replicate 23 false)) ∧
      16 % 8 = 0 ∧ 16 - 8 < 9 ∧ 9 ≠ 16 := by
  refine ⟨⟨by decide, by decide, by decide, by decide, by decide, by decide, ?_⟩, by decide⟩
  intro n hn h
  have h16 : n = 16 := by
    have := h.1
    simp [strip] at this hn
    omega
  subst h16
  exact absurd h (by decide)

theorem witness_RunsCutThePayload :
    let s := strip 1 (hi ++ List.replicate 8 true)
    s.kreg ≠ 0 ∧ ShapeHonest s ∧ 24 ≤ s.imgW * s.imgH ∧
      WindowTrigger (stream .horizontal s) s.kreg.toNat 24 := by decide

theorem witness_DiagonalExtractReadsAll :
    (canvas 3 3 1).imgW = (canvas 3 3 1).imgH ∧ ShapeHonest (canvas 3 3 1) ∧
      (withShape 0 0 State.reset).imgW = (withShape 0 0 State.reset).imgH := by decide

theorem witness_ExtractRefusals :
    (canvas 3 2 1).imgW ≠ (canvas 3 2 1).imgH ∧ (canvas 3 2 1).kreg = 0 ∧
      (Instr.extractV, Direction.vertical) ∈ scans ∧ (∃ t, exec .extractD (canvas 2 2 1) = .next t) :=
  ⟨by decide, by decide, by decide, _, rfl⟩

theorem witness_EmptyFlagMeansNoBits :
    ∃ t, exec .extractnD (canvas 2 2 1) = .next t ∧ t.empty = true := ⟨_, rfl, by decide⟩

theorem witness_TermFlagMeansTriggered :
    ShapeHonest (strip 1 (List.replicate 16 true)) ∧
      ∃ t, exec .extractH (strip 1 (List.replicate 16 true)) = .next t ∧ t.term = true :=
  ⟨by decide, _, rfl, by decide⟩

theorem witness_ErrorsArePrecise :
    ∃ t, exec .embedD (withBits [true] (canvas 2 3 1)) = .next t ∧ t.err = true :=
  ⟨_, rfl, by decide⟩

/-- A refused word, a word whose check fails and a word that ends done. -/
theorem witness_FirstFailureIsReported :
    (∃ t, issue 0xFFFF (canvas 2 2 1) = .next t) ∧ (∃ t, issue 0xA000 (canvas 2 2 1) = .next t) ∧
      ∃ t, issue 0x8000 (canvas 2 2 1) = .next t := ⟨⟨_, rfl⟩, ⟨_, rfl⟩, _, rfl⟩

theorem witness_CommandsWriteOnlyTheirTargets :
    ∃ t, exec .extractnH { canvas 2 2 1 with nwin := 4 } = .next t ∧ t.bitlen = 4 :=
  ⟨_, rfl, by decide⟩

/-- Two different states that agree on what the command reads. -/
theorem witness_OutcomeDependsOnOperandsOnly :
    (let s := withBits [true, false] (canvas 2 2 1)
     AgreeOnReads .embedV s { s with res0 := 7, kreg := 3 } ∧ s ≠ { s with res0 := 7, kreg := 3 }) ∧
    (let s := withBytes [1] State.reset
     AgreeOnReads .text2bits s { s with arg0 := 7 } ∧ s ≠ { s with arg0 := 7 }) ∧
    (let s := { canvas 2 2 1 with kreg := 1 }
     AgreeOnReads .extractH s { s with nwin := 7 } ∧ s ≠ { s with nwin := 7 }) := by
  refine ⟨⟨?_, by decide⟩, ⟨?_, by decide⟩, ⟨?_, by decide⟩⟩ <;> (unfold AgreeOnReads; decide)

/-- An `RW` register one above its width, an `RO` register and the reserved index. -/
theorem witness_HostWritesKeepLowBits :
    (let s := { State.reset with script := [.writeReg 6 256] }
     s.busy = false ∧ s.script = [.writeReg 6 256]) ∧ rwWidth 16 6 = some 8 ∧
      rwWidth 16 1 = none ∧ rwWidth 16 0xF = none := by decide

/-- The first and the last index of the map. -/
theorem witness_HostReadsChangeNothing :
    (let s := { canvas 2 2 1 with script := [.readReg 0] }
     s.busy = false ∧ s.script = [.readReg 0]) ∧
    (let s := { canvas 2 2 1 with script := [.readReg 0xF] }
     s.busy = false ∧ s.script = [.readReg 0xF]) := by decide

theorem witness_CmdReadsBackLastWord :
    let s := { canvas 2 2 1 with script := [.writeReg 0 0xFFFF] }
    s.busy = false ∧ s.script = [.writeReg 0 0xFFFF] ∧ ∃ t, step s = .next t :=
  ⟨by decide, rfl, _, rfl⟩

theorem witness_StorageReadsLastWrite :
    (let s := { canvas 2 2 1 with script := [.writeBit 3 true] }; s.busy = false ∧
      s.script = [.writeBit 3 true]) ∧
    (let s := { canvas 2 2 1 with script := [.writeByte 3 9] }; s.busy = false ∧
      s.script = [.writeByte 3 9]) ∧
    (let s := { canvas 2 2 1 with script := [.writePixel 1 1 { r := 1, g := 2, b := 3 }] }
     s.busy = false ∧ s.script = [.writePixel 1 1 { r := 1, g := 2, b := 3 }] ∧
      1 < s.img.width ∧ 1 < s.img.height) := by decide

/-- The reads: a bit, a byte, the last pixel of the image and one outside it. -/
theorem witness_StorageReadsLastWrite_reads :
    (let s := { canvas 2 2 1 with script := [.readBit 3] }
     s.busy = false ∧ s.script = [.readBit 3]) ∧
    (let s := { canvas 2 2 1 with script := [.readByte 3] }
     s.busy = false ∧ s.script = [.readByte 3]) ∧
    (let s := { canvas 2 2 1 with script := [.readPixel 1 1] }
     s.busy = false ∧ s.script = [.readPixel 1 1] ∧ 1 < s.img.width ∧ 1 < s.img.height) ∧
    (let s := { canvas 2 2 1 with script := [.readPixel 2 0] }
     s.busy = false ∧ s.script = [.readPixel 2 0] ∧ ¬ 2 < s.img.width) := by decide

/-- Each load at the widest its registers hold; here `DIM_BITS = 1`. -/
theorem witness_LoadsFillTheMemories :
    let r := { State.reset with dimBits := 1 }
    (let s := { r with script := [.loadBits [true, false, true]] }
     s.busy = false ∧ s.script = [.loadBits [true, false, true]] ∧
       [true, false, true].length < 2 ^ (2 * s.dimBits)) ∧
    (let s := { r with script := [.loadBytes [1, 2, 3]] }
     s.busy = false ∧ s.script = [.loadBytes [1, 2, 3]] ∧
       [1, 2, 3].length < 2 ^ (2 * s.dimBits)) ∧
    (let s := { r with script := [.loadImage 1 1 [1, 2, 3]] }
     s.busy = false ∧ s.script = [.loadImage 1 1 [1, 2, 3]] ∧ 1 < 2 ^ s.dimBits ∧
       [1, 2, 3].length = 3 * 1 * 1) := by decide

end Sys2Proof.Tests
end

section
/-! SUPPORT. Every step keeps the invariant `Safety.Inv` (00_scope R10, 10_state R28, R29, 60_exceptions R220,
R240). Between its start and its end a command keeps the weaker `Running`; each way a command ends turns
`Running` into `Inv` again, and each host statement that is not a command keeps `Inv` by itself. -/

namespace Sys2Proof.Machine

/-! ## Numbers that fit the registers -/

theorem pow_dimBits_le_pow_offsetBits (n : Nat) : 2 ^ n ≤ 2 ^ (2 * n) :=
  Nat.pow_le_pow_right (by omega) (by omega)

/-- A capacity fits `OFFSET_BITS` when the shape fits `DIM_BITS` (R10, R154). -/
theorem cap_lt (d : Direction) {w h n : Nat} (hw : w < 2 ^ n) (hh : h < 2 ^ n) :
    cap d w h < 2 ^ (2 * n) := by
  have hmul : w * h < 2 ^ (2 * n) :=
    calc w * h < 2 ^ n * 2 ^ n := Nat.mul_lt_mul'' hw hh
      _ = 2 ^ (2 * n) := by rw [two_mul, pow_add]
  cases d with
  | horizontal => exact hmul
  | vertical => exact hmul
  | diagonal =>
    calc min w h ≤ w := min_le_left w h
      _ < 2 ^ n := hw
      _ ≤ 2 ^ (2 * n) := pow_dimBits_le_pow_offsetBits n

/-- Below the capacity the mapping gives a pixel of the shape and one of its three channels (R155, R156). -/
theorem addr_lt (d : Direction) {i w h : Nat} (hi : i < cap d w h) :
    (addr d i w h).x < w ∧ (addr d i w h).y < h ∧ (addr d i w h).c < 3 := by
  cases d with
  | horizontal =>
    have hi : i < w * h := hi
    exact ⟨Nat.mod_lt _ (Nat.pos_of_lt_mul_right hi), Nat.div_lt_of_lt_mul hi, Nat.mod_lt _ (by omega)⟩
  | vertical =>
    have hi : i < w * h := hi
    exact ⟨Nat.div_lt_of_lt_mul (by rwa [Nat.mul_comm]), Nat.mod_lt _ (Nat.pos_of_lt_mul_left hi),
      Nat.mod_lt _ (by omega)⟩
  | diagonal =>
    obtain ⟨hw, hh⟩ := lt_min_iff.1 (show i < min w h from hi)
    exact ⟨hw, hh, Nat.mod_lt _ (by omega)⟩

theorem nextRunLen_le (runLen : Nat) (runVal b : Bit) : nextRunLen runLen runVal b ≤ runLen + 1 := by
  unfold nextRunLen; split_ifs <;> omega

theorem extractedLen_le (k : BitVec 8) (trig : Bool) (offs runLen : Nat) :
    extractedLen k trig offs runLen ≤ offs := by
  unfold extractedLen; split_ifs <;> omega

theorem ceil8_le (n : Nat) : ceil8 n ≤ n := by unfold ceil8; omega

theorem floor8_le (n : Nat) : floor8 n ≤ n := Nat.div_le_self n 8

/-- Replacing an LSB stays below every even bound. -/
theorem setLsb_toNat_lt {a m : Nat} (b : Bit) (ha : a < 2 * m) :
    (setLsb (BitVec.ofNat 8 a) b).toNat < 2 * m := by
  have hb := Bool.toNat_le b
  rw [setLsb_toNat, BitVec.toNat_ofNat]
  omega

/-! ## What a refused command reports -/

theorem embedCheck_info_le {d : Direction} {s : State} {e : ErrorKind} {info : Nat}
    (h : embedCheck d s = some (e, info)) : info ≤ s.cap d := by
  unfold embedCheck at h; split_ifs at h <;> simp at h <;> omega

theorem extractnCheck_info_le {d : Direction} {s : State} {e : ErrorKind} {info : Nat}
    (h : extractnCheck d s = some (e, info)) : info ≤ s.cap d := by
  unfold extractnCheck at h; split_ifs at h <;> simp at h <;> omega

theorem extractCheck_info_le {d : Direction} {s : State} {e : ErrorKind} {info : Nat}
    (h : extractCheck d s = some (e, info)) : info ≤ s.cap d := by
  unfold extractCheck at h; split_ifs at h <;> simp at h <;> omega

end Sys2Proof.Machine

namespace Sys2Proof.Safety

open Sys2Proof.Machine

variable {s : State}

/-! ## Within a command -/

/-- What holds from the start of a command to its end: no error is reported yet, and the registers and the
stores are as in `Inv`. `STATUS` and `PHASE` are free. -/
structure Running (s : State) : Prop where
  errcode : s.errcode = 0
  errinfo : s.errinfo = 0
  dimBits : 1 ≤ s.dimBits
  imgW : s.imgW < 2 ^ s.dimBits
  imgH : s.imgH < 2 ^ s.dimBits
  nwin : s.nwin < 2 ^ (2 * s.dimBits)
  bitlen : s.bitlen < 2 ^ (2 * s.dimBits)
  bytelen : s.bytelen < 2 ^ (2 * s.dimBits)
  arg0 : s.arg0 < 2 ^ (2 * s.dimBits)
  arg1 : s.arg1 < 2 ^ (2 * s.dimBits)
  res0 : s.res0 < 2 ^ (2 * s.dimBits)
  res1 : s.res1 < 2 ^ (2 * s.dimBits)
  res2 : s.res2 < 2 ^ (2 * s.dimBits)
  offs : s.offs < 2 ^ (2 * s.dimBits)
  runLen : s.runLen ≤ s.offs
  curX : s.curX < 2 ^ s.dimBits
  curY : s.curY < 2 ^ s.dimBits
  curC : s.curC.toNat < 3
  bitCells : Memory.wf s.bitBuf.cells
  byteCells : Memory.wf s.byteBuf.cells
  imgCells : Memory.wf s.img.cells
  imgKeys : ∀ p ∈ s.img.cells, p.1 < 3 * s.img.width * s.img.height

/-- The start of a command clears the error and the working registers and leaves the rest (R45). -/
theorem Inv.running (h : Inv s) : Running (startCommand s) :=
  { h with
    errcode := rfl
    errinfo := rfl
    offs := Nat.two_pow_pos _
    runLen := Nat.le_refl 0
    curX := Nat.two_pow_pos _
    curY := Nat.two_pow_pos _
    curC := show 0 < 3 by omega }

theorem Running.cap_lt (h : Running s) (d : Direction) : s.cap d < 2 ^ (2 * s.dimBits) :=
  Machine.cap_lt d h.imgW h.imgH

/-- The pixel and channel a bit step selects below the capacity fit `CURX`, `CURY` and `CURC` (R44). -/
theorem Running.addr_fits (h : Running s) {d : Direction} {i : Nat} (hi : i < s.cap d) :
    (s.addr d i).x < 2 ^ s.dimBits ∧ (s.addr d i).y < 2 ^ s.dimBits ∧ (s.addr d i).c < 3 :=
  have ⟨hx, hy, hc⟩ := addr_lt d hi
  ⟨hx.trans h.imgW, hy.trans h.imgH, hc⟩

/-! ## The two ends of a command -/

/-- A command that ends in error ends in the invariant (R230). -/
theorem Running.inv_raise (h : Running s) (e : ErrorKind) {info : Nat}
    (hinfo : info < 2 ^ (2 * s.dimBits)) : Inv (raise e info s) :=
  { h with
    status := by rw [raise_status]; decide
    phase := rfl
    errcode := by rw [raise_errcode]; cases e <;> decide
    errFlag := by rw [raise_status, raise_errcode]; cases e <;> decide
    errinfoZero := by cases e <;> simp [codeOfError, errorInfo]
    errinfo := by cases e <;> simp [errorInfo, hinfo] }

/-- An error that reports nothing (R34). -/
theorem Running.inv_raise_zero (h : Running s) (e : ErrorKind) : Inv (raise e 0 s) :=
  h.inv_raise e (Nat.two_pow_pos _)

/-- A command that ends without error ends in the invariant (R28, R30). -/
theorem Running.inv_complete (h : Running s) (empty term : Bool) : Inv (complete empty term s) :=
  { h with
    status := by rw [complete_status]; cases empty <;> cases term <;> decide
    phase := rfl
    errcode := by simp [h.errcode]
    errFlag := by cases empty <;> cases term <;> simp [h.errcode, statusWord]
    errinfoZero := fun _ => h.errinfo
    errinfo := by simp [h.errinfo] }

/-! ## The commands without bit steps -/

theorem Running.inv_bytesToBitsGo (h : Running s) (hfit : 8 * s.bytelen < 2 ^ (2 * s.dimBits)) :
    Inv (bytesToBitsGo s) := by
  refine Running.inv_complete ?_ false false
  exact { h with bitlen := hfit, bitCells := Buffer.wf_produced _ _ }

theorem Inv.bytesToBitsBody (h : Inv s) : Inv (bytesToBitsBody (startCommand s)) := by
  rcases bytesToBitsBody_cases s with ⟨-, heq⟩ | ⟨hfit, heq⟩ <;> rw [heq]
  · exact h.running.inv_raise_zero _
  · exact h.running.inv_bytesToBitsGo hfit

/-- A byte sequence is never longer than the bit sequence it is packed from (R123). -/
theorem Inv.bitsToBytesBody (h : Inv s) : Inv (bitsToBytesBody (startCommand s)) := by
  refine Running.inv_complete ?_ false false
  exact
    { h.running with
      bytelen := (ceil8_le s.bitlen).trans_lt h.bitlen
      byteCells := Buffer.wf_produced _ _ }

theorem Inv.bitsToTextBody (h : Inv s) : Inv (bitsToTextBody (startCommand s)) := by
  refine Running.inv_complete ?_ false false
  exact
    { h.running with
      bytelen := (floor8_le s.bitlen).trans_lt h.bitlen
      byteCells := Buffer.wf_produced _ _ }

/-- `2 ^ OFFSET_BITS` is a multiple of four, so neither an LSB nor a channel index overflows a result. -/
theorem Running.four_dvd_pow (h : Running s) : 4 ∣ 2 ^ (2 * s.dimBits) :=
  pow_dvd_pow 2 (show 2 ≤ 2 * s.dimBits by have := h.dimBits; omega)

theorem Running.four_le_pow (h : Running s) : 4 ≤ 2 ^ (2 * s.dimBits) :=
  Nat.le_of_dvd (Nat.two_pow_pos _) h.four_dvd_pow

theorem Running.inv_setlsbGo (h : Running s) : Inv (setlsbGo s) := by
  obtain ⟨m, hm⟩ := h.four_dvd_pow
  have heven : 2 ^ (2 * s.dimBits) = 2 * (2 * m) := by omega
  have hres : (setLsb (BitVec.ofNat 8 s.arg0) (s.arg1.testBit 0)).toNat < 2 ^ (2 * s.dimBits) :=
    heven ▸ setLsb_toNat_lt _ (heven ▸ h.arg0)
  refine Running.inv_complete ?_ false false
  exact { h with res0 := hres }

theorem Inv.setlsbBody (h : Inv s) (pos : Nat) : Inv (setlsbBody pos (startCommand s)) := by
  rcases setlsbBody_cases pos s with ⟨-, heq⟩ | ⟨-, -, heq⟩ | ⟨-, -, -, heq⟩ | ⟨-, -, -, heq⟩ <;>
    rw [heq]
  · exact h.running.inv_raise_zero _
  · exact h.running.inv_raise_zero _
  · exact h.running.inv_raise_zero _
  · exact h.running.inv_setlsbGo

theorem Running.inv_getlsbGo (h : Running s) : Inv (getlsbGo s) := by
  have hres : (getLsb (BitVec.ofNat 8 s.arg0)).toNat < 2 ^ (2 * s.dimBits) :=
    (Bool.toNat_lt _).trans_le (by have := h.four_le_pow; omega)
  refine Running.inv_complete ?_ false false
  exact { h with res0 := hres }

theorem Inv.getlsbBody (h : Inv s) (pos : Nat) : Inv (getlsbBody pos (startCommand s)) := by
  rcases getlsbBody_cases pos s with ⟨-, heq⟩ | ⟨-, -, heq⟩ | ⟨-, -, heq⟩ <;> rw [heq]
  · exact h.running.inv_raise_zero _
  · exact h.running.inv_raise_zero _
  · exact h.running.inv_getlsbGo

theorem Running.inv_addrGo (h : Running s) {d : Direction} (hi : s.arg0 < s.cap d) :
    Inv (addrGo d s) := by
  obtain ⟨hx, hy, hc⟩ := h.addr_fits hi
  have hle := pow_dimBits_le_pow_offsetBits s.dimBits
  refine Running.inv_complete ?_ false false
  exact
    { h with
      res0 := hx.trans_le hle
      res1 := hy.trans_le hle
      res2 := hc.trans h.four_le_pow }

theorem Inv.addrBody (h : Inv s) (d : Direction) : Inv (addrBody d (startCommand s)) := by
  rcases addrBody_cases d s with ⟨-, heq⟩ | ⟨hi, heq⟩ <;> rw [heq]
  · exact h.running.inv_raise_zero _
  · exact h.running.inv_addrGo hi

theorem Inv.capBody (h : Inv s) (d : Direction) : Inv (capBody d (startCommand s)) := by
  refine Running.inv_complete ?_ false false
  exact { h.running with res0 := h.running.cap_lt d }

/-! ## The bit steps -/

theorem Running.embedBitStep (h : Running s) {d : Direction} (hi : s.offs < s.cap d) :
    Running (embedBitStep d s) :=
  have ⟨hx, hy, hc⟩ := h.addr_fits hi
  have ⟨hcells, hkeys⟩ := imageWf_pixWrite (s.addr d s.offs).x (s.addr d s.offs).y (embeddedPixel d s)
    ⟨h.imgCells, h.imgKeys⟩
  { h with
    curX := hx
    curY := hy
    curC := (Nat.mod_le _ _).trans_lt hc
    offs := (Nat.succ_le_of_lt hi).trans_lt (h.cap_lt d)
    runLen := Nat.le_succ_of_le h.runLen
    imgCells := hcells
    imgKeys := hkeys }

theorem Running.extractnBitStep (h : Running s) {d : Direction} (hi : s.offs < s.cap d) :
    Running (extractnBitStep d s) :=
  have ⟨hx, hy, hc⟩ := h.addr_fits hi
  { h with
    curX := hx
    curY := hy
    curC := (Nat.mod_le _ _).trans_lt hc
    offs := (Nat.succ_le_of_lt hi).trans_lt (h.cap_lt d)
    runLen := Nat.le_succ_of_le h.runLen
    bitCells := Buffer.wf_write _ _ h.bitCells }

theorem Running.extractBitStep (h : Running s) {d : Direction} (hi : s.offs < s.cap d) :
    Running (extractBitStep d s) :=
  { h.extractnBitStep hi with
    runLen := (nextRunLen_le _ _ _).trans (Nat.succ_le_succ h.runLen) }

/-- What a bit step keeps below the capacity, every number of bit steps up to the capacity keeps. -/
theorem Running.iterate {f : State → State} {d : Direction} (h : Running s) (h0 : s.offs = 0)
    (hsame : ∀ u, SameButWork u (f u)) (hoffs : ∀ u, (f u).offs = u.offs + 1)
    (hstep : ∀ u, Running u → u.offs < u.cap d → Running (f u)) {k : Nat} (hk : k ≤ s.cap d) :
    Running (f^[k] s) := by
  induction k with
  | zero => exact h
  | succ k ih =>
    rw [Function.iterate_succ_apply']
    refine hstep _ (ih (by omega)) ?_
    rw [offs_iterate hoffs, (sameButWork_iterate hsame k s).cap, h0]
    omega

/-! ## The sequenced commands -/

theorem Inv.embedBody (h : Inv s) (d : Direction) : Inv (embedBody d (startCommand s)) := by
  rcases embedBody_cases d s with ⟨e, info, hcheck, heq⟩ | ⟨hcheck, heq⟩ <;> rw [heq]
  · exact h.running.inv_raise e ((embedCheck_info_le hcheck).trans_lt (h.running.cap_lt d))
  · have hbegin : Running (embedBegin s) := { h.running with }
    exact (hbegin.iterate rfl (sameButWork_embedBitStep d) (embedBitStep_offs d)
      (fun _ hu => hu.embedBitStep) (embedCheck_none.1 hcheck).2).inv_complete false false

theorem Running.inv_extractnFinish (h : Running s) : Inv (extractnFinish s) := by
  refine Running.inv_complete ?_ _ _
  exact { h with bitlen := h.nwin, bitCells := Buffer.wf_cut _ _ h.bitCells }

theorem Inv.extractnBody (h : Inv s) (d : Direction) : Inv (extractnBody d (startCommand s)) := by
  rcases extractnBody_cases d s with ⟨e, info, hcheck, heq⟩ | ⟨hcheck, heq⟩ <;> rw [heq]
  · exact h.running.inv_raise e ((extractnCheck_info_le hcheck).trans_lt (h.running.cap_lt d))
  · have hbegin : Running (extractnBegin s) := { h.running with }
    exact (hbegin.iterate rfl (sameButWork_extractnBitStep d) (extractnBitStep_offs d)
      (fun _ hu => hu.extractnBitStep) (extractnCheck_none.1 hcheck).2).inv_extractnFinish

/-- A scan keeps at most the bits it read, so their count fits `BITLEN` (R193). -/
theorem Running.inv_extractFinish (h : Running s) (d : Direction) : Inv (extractFinish d s) := by
  refine Running.inv_complete ?_ _ _
  exact
    { h with
      bitlen := (extractedLen_le _ _ _ _).trans_lt h.offs
      bitCells := Buffer.wf_cut _ _ h.bitCells }

theorem Inv.extractBody (h : Inv s) (d : Direction) : Inv (extractBody d (startCommand s)) := by
  rcases extractBody_cases d s with ⟨e, info, hcheck, heq⟩ | ⟨-, heq⟩ <;> rw [heq]
  · exact h.running.inv_raise e ((extractCheck_info_le hcheck).trans_lt (h.running.cap_lt d))
  · obtain ⟨n, hn, hgo, hstop⟩ := extract_stops d s
    have hbegin : Running (extractBegin d s) := { h.running with }
    rw [extractGo_eq d s hn hgo hstop]
    exact (hbegin.iterate rfl (sameButWork_extractBitStep d) (extractBitStep_offs d)
      (fun _ hu => hu.extractBitStep) hn).inv_extractFinish d

/-- Every command ends, in the invariant (R240). -/
theorem Inv.exec (h : Inv s) (i : Instr) : ∃ t, exec i s = .next t ∧ Inv t := by
  cases i with
  | bytes2bits => exact ⟨_, rfl, h.bytesToBitsBody⟩
  | text2bits => exact ⟨_, rfl, h.bytesToBitsBody⟩
  | bits2bytes => exact ⟨_, rfl, h.bitsToBytesBody⟩
  | bits2text => exact ⟨_, rfl, h.bitsToTextBody⟩
  | setlsb pos => exact ⟨_, rfl, h.setlsbBody pos⟩
  | getlsb pos => exact ⟨_, rfl, h.getlsbBody pos⟩
  | addrH => exact ⟨_, rfl, h.addrBody .horizontal⟩
  | addrV => exact ⟨_, rfl, h.addrBody .vertical⟩
  | addrD => exact ⟨_, rfl, h.addrBody .diagonal⟩
  | capH => exact ⟨_, rfl, h.capBody .horizontal⟩
  | capV => exact ⟨_, rfl, h.capBody .vertical⟩
  | capD => exact ⟨_, rfl, h.capBody .diagonal⟩
  | embedH => exact ⟨_, rfl, h.embedBody .horizontal⟩
  | embedV => exact ⟨_, rfl, h.embedBody .vertical⟩
  | embedD => exact ⟨_, rfl, h.embedBody .diagonal⟩
  | extractH => exact ⟨_, rfl, h.extractBody .horizontal⟩
  | extractV => exact ⟨_, rfl, h.extractBody .vertical⟩
  | extractD => exact ⟨_, rfl, h.extractBody .diagonal⟩
  | extractnH => exact ⟨_, rfl, h.extractnBody .horizontal⟩
  | extractnV => exact ⟨_, rfl, h.extractnBody .vertical⟩
  | extractnD => exact ⟨_, rfl, h.extractnBody .diagonal⟩

/-! ## The host's statements -/

/-- A word written to `CMD` ends in the invariant, refused or run (R22, R97). -/
theorem Inv.issue (h : Inv s) (w : CmdWord) : ∃ t, issue w s = .next t ∧ Inv t := by
  have hcmd : Inv { s with cmd := w } := { h with }
  rcases issue_cases w s with ⟨_, -, heq⟩ | ⟨i, -, heq⟩ <;> rw [heq]
  · exact ⟨_, rfl, hcmd.running.inv_raise_zero _⟩
  · exact hcmd.exec i

/-- A host write keeps the low bits of the value, so the register stays within its width (R21). -/
theorem Inv.hostWriteReg (h : Inv s) (idx : BitVec 4) (v : Nat) : Inv (hostWriteReg idx v s) := by
  have hlow (n : Nat) : v % 2 ^ n < 2 ^ n := Nat.mod_lt v (Nat.two_pow_pos n)
  unfold Machine.hostWriteReg
  split
  · exact { h with imgW := hlow _ }
  · exact { h with imgH := hlow _ }
  · exact { h with }
  · exact { h with nwin := hlow _ }
  · exact { h with bitlen := hlow _ }
  · exact { h with bytelen := hlow _ }
  · exact { h with arg0 := hlow _ }
  · exact { h with arg1 := hlow _ }
  · exact h

theorem Inv.writePixel (h : Inv s) (x y : Nat) (p : Pixel) :
    Inv { s with img := s.img.pixWrite x y p } :=
  have ⟨hcells, hkeys⟩ := imageWf_pixWrite x y p ⟨h.imgCells, h.imgKeys⟩
  { h with imgCells := hcells, imgKeys := hkeys }

theorem Inv.hostLoadBits (h : Inv s) (bits : List Bit) : Inv (hostLoadBits bits s) :=
  { h with
    bitlen := Nat.mod_lt _ (Nat.two_pow_pos _)
    bitCells := Memory.wf_setList bits 0 h.bitCells }

theorem Inv.hostLoadBytes (h : Inv s) (bytes : List Byte) : Inv (hostLoadBytes bytes s) :=
  { h with
    bytelen := Nat.mod_lt _ (Nat.two_pow_pos _)
    byteCells := Memory.wf_setList bytes 0 h.byteCells }

theorem Inv.hostLoadImage (h : Inv s) (width height : Nat) (bytes : List Byte) :
    Inv (hostLoadImage width height bytes s) :=
  have ⟨hcells, hkeys⟩ := imageWf_attach (s.freeCount + 1) width height bytes
  { h with
    imgW := Nat.mod_lt _ (Nat.two_pow_pos _)
    imgH := Nat.mod_lt _ (Nat.two_pow_pos _)
    imgCells := hcells
    imgKeys := hkeys }

/-- The reset input clears every register and both buffers; the parameter and `IMG` stay (R260, R261). -/
theorem Inv.hostReset (h : Inv s) : Inv (hostReset s) where
  status := show 0x00#8 ∈ _ by decide
  phase := rfl
  errcode := Nat.zero_le 5
  errFlag := show 0x00#8 = 0x04#8 ↔ 0x00#8 ≠ 0 by decide
  errinfoZero := fun _ => rfl
  dimBits := h.dimBits
  imgW := Nat.two_pow_pos _
  imgH := Nat.two_pow_pos _
  errinfo := Nat.two_pow_pos _
  nwin := Nat.two_pow_pos _
  bitlen := Nat.two_pow_pos _
  bytelen := Nat.two_pow_pos _
  arg0 := Nat.two_pow_pos _
  arg1 := Nat.two_pow_pos _
  res0 := Nat.two_pow_pos _
  res1 := Nat.two_pow_pos _
  res2 := Nat.two_pow_pos _
  offs := Nat.two_pow_pos _
  runLen := Nat.le_refl 0
  curX := Nat.two_pow_pos _
  curY := Nat.two_pow_pos _
  curC := show 0 < 3 by omega
  bitCells := List.Pairwise.nil
  byteCells := List.Pairwise.nil
  imgCells := h.imgCells
  imgKeys := h.imgKeys

/-- Every statement the host makes of an idle machine ends in the invariant (R79, R101). -/
theorem Inv.hostStep (h : Inv s) (op : HostOp) : ∃ t, hostStep op s = .next t ∧ Inv t := by
  cases op with
  | writeReg idx v =>
    by_cases hcmd : idx = cmdIndex
    · simpa [Machine.hostStep, hcmd] using h.issue (BitVec.ofNat 16 v)
    · simpa [Machine.hostStep, hcmd] using h.hostWriteReg idx v
  | readReg idx => exact ⟨_, rfl, { h with }⟩
  | writeBit i b => exact ⟨_, rfl, { h with bitCells := Buffer.wf_write i b h.bitCells }⟩
  | readBit i => exact ⟨_, rfl, { h with }⟩
  | writeByte j v => exact ⟨_, rfl, { h with byteCells := Buffer.wf_write j v h.byteCells }⟩
  | readByte j => exact ⟨_, rfl, { h with }⟩
  | writePixel x y p => exact ⟨_, rfl, h.writePixel x y p⟩
  | readPixel x y => exact ⟨_, rfl, { h with }⟩
  | loadBits bits => exact ⟨_, rfl, h.hostLoadBits bits⟩
  | loadBytes bytes => exact ⟨_, rfl, h.hostLoadBytes bytes⟩
  | loadImage width height bytes => exact ⟨_, rfl, h.hostLoadImage width height bytes⟩
  | reset => exact ⟨_, rfl, h.hostReset⟩

/-! ## The step -/

/-- Between two host statements the block is idle (R29). -/
theorem Inv.busy (h : Inv s) : s.busy = false := by
  have hidle : ∀ v ∈ [0x00#8, 0x02#8, 0x04#8, 0x0A#8, 0x12#8, 0x1A#8], v.getLsbD 0 = false := by
    decide
  exact hidle s.status h.status

/-- Settles O15: the invariant rules out a phase step, an idle stay changes nothing, and every host statement,
a command among them, ends in the invariant. -/
theorem everyStepKeepsInv : Obligations.EveryStepKeepsInv := by
  intro s t h hstep
  rcases step_cases hstep with ⟨hbusy, -, -⟩ | ⟨-, -, rfl⟩ | ⟨-, op, rest, -, hop⟩
  · simp [h.busy] at hbusy
  · exact h
  · have hrest : Inv { s with script := rest } := { h with }
    obtain ⟨u, hu, hinv⟩ := hrest.hostStep op
    obtain rfl : u = t := Host.Outcome.next.inj (hu.symm.trans hop)
    exact hinv

end Sys2Proof.Safety
end

section
/-! SUPPORT. What every command leaves unchanged (10_state R37), and that nothing of an earlier command's
outcome reaches it (R45, R46). A command is one body run from its start; the frame of each body is put together
from the frames of the state operations it is made of. -/

namespace Sys2Proof.Safety

open Sys2Proof.Machine

variable {s t u : State} {w : List Place}

/-! ## A command is its body, run from the start -/

/-- What each command does after its start (R45). -/
def commandBody : Instr → State → State
  | .bytes2bits => bytesToBitsBody
  | .text2bits => bytesToBitsBody
  | .bits2bytes => bitsToBytesBody
  | .bits2text => bitsToTextBody
  | .setlsb pos => setlsbBody pos
  | .getlsb pos => getlsbBody pos
  | .addrH => addrBody .horizontal
  | .addrV => addrBody .vertical
  | .addrD => addrBody .diagonal
  | .capH => capBody .horizontal
  | .capV => capBody .vertical
  | .capD => capBody .diagonal
  | .embedH => embedBody .horizontal
  | .embedV => embedBody .vertical
  | .embedD => embedBody .diagonal
  | .extractH => extractBody .horizontal
  | .extractV => extractBody .vertical
  | .extractD => extractBody .diagonal
  | .extractnH => extractnBody .horizontal
  | .extractnV => extractnBody .vertical
  | .extractnD => extractnBody .diagonal

theorem exec_eq_commandBody (i : Instr) (s : State) :
    exec i s = .next (commandBody i (startCommand s)) := by cases i <;> rfl

theorem exec_eq_next_iff {i : Instr} :
    exec i s = .next t ↔ commandBody i (startCommand s) = t := by
  rw [exec_eq_commandBody, Host.Outcome.next.injEq]

/-- The start of a command overwrites the outcome and the working registers (R45). -/
theorem startCommand_forgets (s s' : State) :
    startCommand { s with
      status := s'.status, errcode := s'.errcode, errinfo := s'.errinfo, offs := s'.offs,
      phase := s'.phase, runLen := s'.runLen, runVal := s'.runVal, curX := s'.curX,
      curY := s'.curY, curC := s'.curC, pix := s'.pix } = startCommand s := rfl

/-- Settles O51: every command begins with the start, which forgets them. -/
theorem earlierOutcomeIsForgotten : Obligations.EarlierOutcomeIsForgotten := by
  intro i s s'
  rw [exec_eq_commandBody, exec_eq_commandBody, startCommand_forgets]

/-! ## The frames of the state operations -/

theorem Unchanged.trans {p : Place} (h1 : Unchanged s t p) (h2 : Unchanged t u p) :
    Unchanged s u p := by
  cases p <;> exact Eq.trans h2 h1

theorem FrameExcept.trans (h1 : FrameExcept w s t) (h2 : FrameExcept w t u) :
    FrameExcept w s u := by
  obtain ⟨a, ha⟩ := h1
  obtain ⟨b, hb⟩ := h2
  refine ⟨?_, fun p hp => (ha p hp).trans (hb p hp)⟩
  constructor
  · exact b.dimBits.trans a.dimBits
  · exact b.cmd.trans a.cmd
  · exact b.imgW.trans a.imgW
  · exact b.imgH.trans a.imgH
  · exact b.kreg.trans a.kreg
  · exact b.nwin.trans a.nwin
  · exact b.arg0.trans a.arg0
  · exact b.arg1.trans a.arg1
  · exact b.script.trans a.script
  · exact b.rdata.trans a.rdata

theorem frameExcept_startCommand (w : List Place) (s : State) : FrameExcept w s (startCommand s) :=
  ⟨by constructor <;> rfl, fun p _ => by cases p <;> rfl⟩

theorem frameExcept_raise (w : List Place) (e : ErrorKind) (info : Nat) (s : State) :
    FrameExcept w s (raise e info s) :=
  ⟨by constructor <;> rfl, fun p _ => by cases p <;> rfl⟩

theorem FrameExcept.complete (h : FrameExcept w s t) (empty term : Bool) :
    FrameExcept w s (complete empty term t) :=
  h.trans ⟨by constructor <;> rfl, fun p _ => by cases p <;> rfl⟩

/-- What holds of every error and of the effect of a command holds behind its checks (R225). -/
theorem checked_induction {P : State → Prop} (failure : Option (ErrorKind × Nat))
    {go : State → State} (hraise : ∀ e info, P (raise e info s)) (hgo : P (go s)) :
    P (checked failure s go) := by
  rcases checked_cases failure s go with ⟨e, info, -, heq⟩ | ⟨-, heq⟩ <;> rw [heq]
  · exact hraise e info
  · exact hgo

/-- Checks write nothing but the error they report (R230). -/
theorem frameExcept_checked (failure : Option (ErrorKind × Nat)) {go : State → State}
    (h : FrameExcept w s (go s)) : FrameExcept w s (checked failure s go) :=
  checked_induction failure (fun e info => frameExcept_raise w e info s) h

/-- The bit-step loop keeps every frame that its bit step keeps. -/
theorem FrameExcept.runPhase {f : State → State} (h : FrameExcept w s t)
    (hf : ∀ u, FrameExcept w u (f u)) (fuel : Nat) : FrameExcept w s (runPhase f fuel t) :=
  runPhase_keeps fuel (fun u _ hu => hu.trans (hf u)) h

/-! ## The frames of the effects -/

/-- Entering the bit steps moves the phase only. -/
theorem frameExcept_phase (w : List Place) (p : Phase) (s : State) :
    FrameExcept w s { s with phase := p } :=
  ⟨by constructor <;> rfl, fun p _ => by cases p <;> rfl⟩

theorem frameExcept_embedBitStep (d : Direction) (s : State) :
    FrameExcept [.img] s (embedBitStep d s) :=
  ⟨{ sameButWork_embedBitStep d s with }, fun p hp => by
    cases p with
    | img => simp at hp
    | _ => rfl⟩

/-- A new bit sequence writes `BITBUF` and `BITLEN`. -/
theorem frameExcept_bitSequence (buf : Buffer Bit) (n : Nat) (s : State) :
    FrameExcept [.bitlen, .bitbuf] s { s with bitBuf := buf, bitlen := n } :=
  ⟨by constructor <;> rfl, fun p hp => by
    cases p with
    | bitlen => simp at hp
    | bitbuf => simp at hp
    | _ => rfl⟩

theorem frameExcept_extractBitStep (d : Direction) (s : State) :
    FrameExcept [.bitlen, .bitbuf] s (extractBitStep d s) :=
  ⟨{ sameButWork_extractBitStep d s with }, fun p hp => by
    cases p with
    | bitbuf => simp at hp
    | _ => rfl⟩

theorem frameExcept_extractnBitStep (d : Direction) (s : State) :
    FrameExcept [.bitlen, .bitbuf] s (extractnBitStep d s) :=
  ⟨{ sameButWork_extractnBitStep d s with }, fun p hp => by
    cases p with
    | bitbuf => simp at hp
    | _ => rfl⟩

/-- A new byte sequence writes `BYTEBUF` and `BYTELEN`. -/
theorem frameExcept_byteSequence (buf : Buffer Byte) (n : Nat) (s : State) :
    FrameExcept [.bytelen, .bytebuf] s { s with byteBuf := buf, bytelen := n } :=
  ⟨by constructor <;> rfl, fun p hp => by
    cases p with
    | bytelen => simp at hp
    | bytebuf => simp at hp
    | _ => rfl⟩

theorem frameExcept_res0 (n : Nat) (s : State) : FrameExcept [.res0] s { s with res0 := n } :=
  ⟨by constructor <;> rfl, fun p hp => by
    cases p with
    | res0 => simp at hp
    | _ => rfl⟩

theorem frameExcept_results (a b c : Nat) (s : State) :
    FrameExcept [.res0, .res1, .res2] s { s with res0 := a, res1 := b, res2 := c } :=
  ⟨by constructor <;> rfl, fun p hp => by
    cases p with
    | res0 => simp at hp
    | res1 => simp at hp
    | res2 => simp at hp
    | _ => rfl⟩

/-! ## The frames of the commands -/

theorem frameExcept_bytesToBitsBody (s : State) :
    FrameExcept [.bitlen, .bitbuf] s (bytesToBitsBody s) :=
  frameExcept_checked _ ((frameExcept_bitSequence _ _ s).complete false false)

theorem frameExcept_setlsbBody (pos : Nat) (s : State) : FrameExcept [.res0] s (setlsbBody pos s) :=
  frameExcept_checked _ ((frameExcept_res0 _ s).complete false false)

theorem frameExcept_getlsbBody (pos : Nat) (s : State) : FrameExcept [.res0] s (getlsbBody pos s) :=
  frameExcept_checked _ ((frameExcept_res0 _ s).complete false false)

theorem frameExcept_addrBody (d : Direction) (s : State) :
    FrameExcept [.res0, .res1, .res2] s (addrBody d s) :=
  frameExcept_checked _ ((frameExcept_results _ _ _ s).complete false false)

theorem frameExcept_embedBody (d : Direction) (s : State) : FrameExcept [.img] s (embedBody d s) := by
  have henter : FrameExcept [.img] s (embedEnter s) := frameExcept_phase _ _ s
  exact frameExcept_checked _
    ((henter.runPhase (frameExcept_embedBitStep d) s.bitlen).complete false false)

theorem frameExcept_extractBody (d : Direction) (s : State) :
    FrameExcept [.bitlen, .bitbuf] s (extractBody d s) := by
  have henter : FrameExcept [.bitlen, .bitbuf] s (extractEnter d s) := frameExcept_phase _ _ s
  have hloop := henter.runPhase (frameExcept_extractBitStep d) (s.cap d)
  exact frameExcept_checked _ ((hloop.trans (frameExcept_bitSequence _ _ _)).complete _ _)

theorem frameExcept_extractnBody (d : Direction) (s : State) :
    FrameExcept [.bitlen, .bitbuf] s (extractnBody d s) := by
  have henter : FrameExcept [.bitlen, .bitbuf] s (extractnEnter s) := frameExcept_phase _ _ s
  have hloop := henter.runPhase (frameExcept_extractnBitStep d) s.nwin
  exact frameExcept_checked _ ((hloop.trans (frameExcept_bitSequence _ _ _)).complete _ _)

theorem frameExcept_commandBody (i : Instr) (s : State) :
    FrameExcept (writeSet i) s (commandBody i s) := by
  cases i with
  | bytes2bits => exact frameExcept_bytesToBitsBody s
  | text2bits => exact frameExcept_bytesToBitsBody s
  | bits2bytes => exact (frameExcept_byteSequence _ _ s).complete false false
  | bits2text => exact (frameExcept_byteSequence _ _ s).complete false false
  | setlsb pos => exact frameExcept_setlsbBody pos s
  | getlsb pos => exact frameExcept_getlsbBody pos s
  | addrH => exact frameExcept_addrBody .horizontal s
  | addrV => exact frameExcept_addrBody .vertical s
  | addrD => exact frameExcept_addrBody .diagonal s
  | capH => exact (frameExcept_res0 _ s).complete false false
  | capV => exact (frameExcept_res0 _ s).complete false false
  | capD => exact (frameExcept_res0 _ s).complete false false
  | embedH => exact frameExcept_embedBody .horizontal s
  | embedV => exact frameExcept_embedBody .vertical s
  | embedD => exact frameExcept_embedBody .diagonal s
  | extractH => exact frameExcept_extractBody .horizontal s
  | extractV => exact frameExcept_extractBody .vertical s
  | extractD => exact frameExcept_extractBody .diagonal s
  | extractnH => exact frameExcept_extractnBody .horizontal s
  | extractnV => exact frameExcept_extractnBody .vertical s
  | extractnD => exact frameExcept_extractnBody .diagonal s

/-- Settles O49: the start, the checks, the effect and the end of a command each keep its frame. -/
theorem commandsWriteOnlyTheirTargets : Obligations.CommandsWriteOnlyTheirTargets := by
  intro i s t hexec
  obtain rfl := exec_eq_next_iff.1 hexec
  exact (frameExcept_startCommand _ s).trans (frameExcept_commandBody i _)

/-- Settles O10: the start sets `BUSY` and `CHECK`, clears the outcome and the working registers, and writes
nothing else. -/
theorem startClearsOutcomeAndWorking : Obligations.StartClearsOutcomeAndWorking := by
  intro s
  exact ⟨by simp [statusWord], rfl, rfl, rfl, ⟨rfl, rfl, rfl, rfl, rfl, rfl, rfl⟩,
    frameExcept_startCommand [] s⟩

end Sys2Proof.Safety
end

section
/-! SUPPORT. The host's register reads and writes (10_state R21) and the write of a word to `CMD` (R22, R97). -/

namespace Sys2Proof.Safety

open Sys2Proof.Machine

variable {s t : State}

/-! ## A write to `CMD` -/

/-- A refused word ends with `IllegalOperand` and changes nothing else (R97, R230). -/
theorem issue_refused {w : CmdWord} {e : DecodeError} (h : decode w = .bad e) (s : State) :
    ∃ t, issue w s = .next t ∧ EndsInError t 5 0 ∧ FrameExcept [] { s with cmd := w } t := by
  refine ⟨raise .illegalOperand 0 (startCommand { s with cmd := w }), by simp [issue, h], ?_,
    (frameExcept_startCommand _ _).trans (frameExcept_raise _ _ _ _)⟩
  exact ⟨by simp [statusWord], rfl, rfl, rfl⟩

theorem issue_decoded {w : CmdWord} {i : Instr} (h : decode w = .instr i) (s : State) :
    issue w s = exec i { s with cmd := w } := by simp [issue, h]

/-- A step from an idle state whose first host statement writes `CMD` issues the word (R22). -/
theorem step_writeCmd {v : Nat} {rest : List HostOp} (hidle : s.busy = false)
    (hscript : s.script = .writeReg 0 v :: rest) :
    step s = issue (BitVec.ofNat 16 v) { s with script := rest } := by
  rw [step_idle hidle hscript]; rfl

/-- The placed word is the one the next step issues (log entry 3). -/
theorem step_withFetchWord (s : State) (w : CmdWord) :
    step (s.withFetchWord 16 w.toNat) = issue w { s with status := s.status &&& 0xFE } := by
  have hscript : (s.withFetchWord 16 w.toNat).script = .writeReg 0 w.toNat :: s.script := by
    simp [State.withFetchWord, pendingCommand, cmdIndex]
  rw [step_writeCmd (withFetchWord_busy s 16 w.toNat) hscript, BitVec.ofNat_toNat, BitVec.setWidth_eq]
  rfl

/-- Settles O5: an idle step at a write to `CMD` is `issue`, which runs the decoded command or refuses the
word. -/
theorem stepRunsTheDecodedCommand : Obligations.StepRunsTheDecodedCommand := by
  refine ⟨fun s v rest hidle hscript => ?_, fun s w => ?_⟩
  · have hstep := step_writeCmd hidle hscript
    refine ⟨hstep, fun i hi => ?_, fun e he => ?_⟩
    · rw [hstep, issue_decoded hi]
    · rw [hstep]; exact issue_refused he { s with script := rest }
  · have hstep := step_withFetchWord s w
    refine ⟨hstep, fun i hi => ?_⟩
    rw [hstep, issue_decoded hi]

/-- Settles O54: neither a refusal nor a command writes `CMD`, so it keeps the word the host wrote. -/
theorem cmdReadsBackLastWord : Obligations.CmdReadsBackLastWord := by
  intro s t v rest hidle hscript hstep
  have hcmd : t.cmd = BitVec.ofNat 16 v := by
    rw [step_writeCmd hidle hscript] at hstep
    rcases issue_cases (BitVec.ofNat 16 v) { s with script := rest } with ⟨e, he, -⟩ | ⟨i, -, heq⟩
    · obtain ⟨u, hu, -, ⟨hsetup, -⟩⟩ := issue_refused he { s with script := rest }
      obtain rfl : u = t := Host.Outcome.next.inj (hu.symm.trans hstep)
      exact hsetup.cmd
    · obtain ⟨hsetup, -⟩ := commandsWriteOnlyTheirTargets i _ t (heq.symm.trans hstep)
      exact hsetup.cmd
  show t.cmd.toNat = v % 65536
  rw [hcmd, BitVec.toNat_ofNat]

/-! ## The other registers -/

/-- A write to a register that is not `RW` is ignored (R21). -/
theorem hostWriteReg_ignored {idx : BitVec 4} (h : rwWidth s.dimBits idx = none) (v : Nat) :
    hostWriteReg idx v s = s := by
  unfold hostWriteReg
  split <;> simp_all [rwWidth, ← BitVec.toNat_inj]

/-- An `RW` register keeps the low bits of the value written (R21). -/
theorem hostReadReg_hostWriteReg_same {idx : BitVec 4} {width : Nat}
    (h : rwWidth s.dimBits idx = some width) (v : Nat) :
    hostReadReg idx (hostWriteReg idx v s) = v % 2 ^ width := by
  simp only [rwWidth, List.mem_cons, List.not_mem_nil, or_false] at h
  split_ifs at h with hshape hkreg hoffset <;> cases h
  · rcases hshape with rfl | rfl <;> rfl
  · subst hkreg; exact BitVec.toNat_ofNat v 8
  · rcases hoffset with rfl | rfl | rfl | rfl | rfl <;> rfl

theorem hostReadReg_hostWriteReg_other {idx other : BitVec 4} (h : other ≠ idx) (v : Nat)
    (s : State) :
    hostReadReg other (hostWriteReg idx v s) = hostReadReg other s := by
  have hne : other.toNat ≠ idx.toNat := fun e => h (BitVec.eq_of_toNat_eq e)
  unfold hostWriteReg
  split
  case h_9 => rfl
  all_goals
    -- Each register read is not the one written, or is the one `hne` rules out.
    rename_i hidx
    rw [hidx] at hne
    unfold hostReadReg
    split <;> trivial

/-- A register write leaves the buffers, the image and the host's list of statements alone (R21). -/
theorem hostWriteReg_stores (idx : BitVec 4) (v : Nat) (s : State) :
    (hostWriteReg idx v s).bitBuf = s.bitBuf ∧ (hostWriteReg idx v s).byteBuf = s.byteBuf ∧
      (hostWriteReg idx v s).img = s.img ∧ (hostWriteReg idx v s).script = s.script := by
  unfold hostWriteReg
  split <;> exact ⟨rfl, rfl, rfl, rfl⟩

/-- Settles O52: an idle step at such a write is `hostWriteReg`, which keeps the low bits in an `RW` register and
ignores the write elsewhere. -/
theorem hostWritesKeepLowBits : Obligations.HostWritesKeepLowBits := by
  intro s idx v rest hidle hne hscript
  have hstep : step s = .next (hostWriteReg idx v { s with script := rest }) := by
    rw [step_idle hidle hscript]
    exact if_neg hne
  obtain ⟨hbits, hbytes, himg, hrest⟩ := hostWriteReg_stores idx v { s with script := rest }
  refine ⟨_, hstep, hrest, ?_, fun other hother => hostReadReg_hostWriteReg_other hother v _,
    hbits, hbytes, himg⟩
  split
  next width hw => exact hostReadReg_hostWriteReg_same (s := { s with script := rest }) hw v
  next hw =>
    have hsame := hostWriteReg_ignored (s := { s with script := rest }) hw v
    exact (congrArg (hostReadReg idx) hsame).trans rfl

/-- A step from an idle state whose first host statement reads a register puts its value in `rdata`. -/
theorem step_readReg {idx : BitVec 4} {rest : List HostOp} (hidle : s.busy = false)
    (hscript : s.script = .readReg idx :: rest) :
    step s = .next { s with script := rest, rdata := [hostReadReg idx s] } := by
  rw [step_idle hidle hscript]; rfl

/-- Settles O53: the map of R21, one index at a time. -/
theorem hostReadsChangeNothing : Obligations.HostReadsChangeNothing := by
  intro s idx v rest hidle hscript hmap
  have hread : hostReadReg idx s = v := by
    simp only [List.mem_cons, Prod.mk.injEq, List.not_mem_nil, or_false] at hmap
    rcases hmap with ⟨rfl, rfl⟩ | ⟨rfl, rfl⟩ | ⟨rfl, rfl⟩ | ⟨rfl, rfl⟩ | ⟨rfl, rfl⟩ | ⟨rfl, rfl⟩ |
      ⟨rfl, rfl⟩ | ⟨rfl, rfl⟩ | ⟨rfl, rfl⟩ | ⟨rfl, rfl⟩ | ⟨rfl, rfl⟩ | ⟨rfl, rfl⟩ | ⟨rfl, rfl⟩ |
      ⟨rfl, rfl⟩ | ⟨rfl, rfl⟩ | ⟨rfl, rfl⟩ <;> rfl
  rw [step_readReg hidle hscript, hread]

end Sys2Proof.Safety
end

section
/-! SUPPORT. Images that agree on a shape, and the LSBs a command reads from them: inside the image that is there,
a bit read does not depend on the moment of the access, so it is the element of the stream (44 R192, R204). -/

namespace Sys2Proof.Safety

open Sys2Proof.Machine

variable {s t : State} {w h : Nat}

/-- Every pixel of the shape `w × h` is there in both images and reads the same in both, at any moment. -/
def ImagesAgree (w h : Nat) (a b : Image) : Prop :=
  ∀ x < w, ∀ y < h, a.has x y = true ∧ b.has x y = true ∧
    ∀ n m, a.pixRead n x y = b.pixRead m x y

theorem ShapeHonest.has (hs : ShapeHonest s) {x y : Nat} (hx : x < s.imgW) (hy : y < s.imgH) :
    s.img.has x y = true :=
  (s.img.has_iff x y).2 ⟨hx.trans_le hs.1, hy.trans_le hs.2⟩

theorem ShapeHonest.imagesAgree_self (hs : ShapeHonest s) :
    ImagesAgree s.imgW s.imgH s.img s.img := fun _ hx _ hy =>
  ⟨hs.has hx hy, hs.has hx hy, fun n m => s.img.pixRead_inside n m (hs.has hx hy)⟩

/-- A pixel is its three channels. -/
theorem pixel_eq_of_channels {p q : Pixel} (h : ∀ c < 3, channelOf p c = channelOf q c) : p = q := by
  have hr : p.r = q.r := h 0 (by omega)
  have hg : p.g = q.g := h 1 (by omega)
  have hb : p.b = q.b := h 2 (by omega)
  cases p; cases q; simp_all

/-- Honest shapes with equal bytes are agreeing images. -/
theorem imagesAgree_of_imgByte (hs : ShapeHonest s) (ht : ShapeHonest t) (hw : s.imgW = t.imgW)
    (hh : s.imgH = t.imgH)
    (hbytes : ∀ x < s.imgW, ∀ y < s.imgH, ∀ c < 3, imgByte s x y c = imgByte t x y c) :
    ImagesAgree s.imgW s.imgH s.img t.img := by
  intro x hx y hy
  have hins := hs.has hx hy
  have hint := ht.has (hw ▸ hx) (hh ▸ hy)
  refine ⟨hins, hint, fun n m => ?_⟩
  calc s.img.pixRead n x y
      = s.img.pixRead s.freeCount x y := s.img.pixRead_inside _ _ hins
    _ = t.img.pixRead t.freeCount x y := pixel_eq_of_channels (hbytes x hx y hy)
    _ = t.img.pixRead m x y := t.img.pixRead_inside _ _ hint

/-- The same pixel written in both leaves the images agreeing. -/
theorem ImagesAgree.pixWrite {a b : Image} (hab : ImagesAgree w h a b) (x y : Nat) (p : Pixel) :
    ImagesAgree w h (a.pixWrite x y p) (b.pixWrite x y p) := by
  intro x' hx y' hy
  obtain ⟨ha, hb, hread⟩ := hab x' hx y' hy
  refine ⟨by rwa [Image.pixWrite_has], by rwa [Image.pixWrite_has], fun n m => ?_⟩
  by_cases hsame : (x', y') = (x, y)
  · obtain ⟨rfl, rfl⟩ := Prod.mk.injEq .. ▸ hsame
    rw [Image.pixRead_pixWrite_same a n p ha, Image.pixRead_pixWrite_same b m p hb]
  · rw [Image.pixRead_pixWrite_other a n p ha hsame, Image.pixRead_pixWrite_other b m p hb hsame,
      hread n m]

/-- The pixel an offset below the capacity selects reads the same in agreeing images. -/
theorem pixRead_addr_congr {d : Direction} {i : Nat} (hw : s.imgW = t.imgW) (hh : s.imgH = t.imgH)
    (himg : ImagesAgree s.imgW s.imgH s.img t.img) (hi : i < s.cap d) :
    s.pixRead (s.addr d i).x (s.addr d i).y = t.pixRead (t.addr d i).x (t.addr d i).y := by
  obtain ⟨hx, hy, -⟩ := addr_lt d hi
  have haddr : t.addr d i = s.addr d i := by simp only [State.addr, hw, hh]
  rw [haddr]
  exact (himg _ hx _ hy).2.2 _ _

theorem lsbAt_imagesAgree {d : Direction} {i : Nat} (hw : s.imgW = t.imgW) (hh : s.imgH = t.imgH)
    (himg : ImagesAgree s.imgW s.imgH s.img t.img) (hi : i < s.cap d) : lsbAt d s i = lsbAt d t i := by
  have haddr : t.addr d i = s.addr d i := by simp only [State.addr, hw, hh]
  simp only [lsbAt, pixRead_addr_congr hw hh himg hi, haddr]

/-- The bits a command reads are the stream of the state before it (R204). -/
theorem ShapeHonest.lsbAt_startCommand (hs : ShapeHonest s) {d : Direction} {i : Nat}
    (hi : i < s.cap d) : lsbAt d (startCommand s) i = stream d s i :=
  (lsbAt_imagesAgree (s := s) (t := startCommand s) rfl rfl hs.imagesAgree_self hi).symm

end Sys2Proof.Safety
end

section
/-! SUPPORT. The trigger in its run-length form is the trigger in its window form (44 R194, R195). -/

namespace Sys2Proof.Safety

open Sys2Proof.Machine

variable {S : Nat → Bit} {lo n : Nat}

/-! ## Runs of equal elements -/

/-- A window grows by one element when the new one equals the last. -/
theorem allEqual_succ (hlo : lo ≤ n) :
    AllEqual S lo (n + 2) ↔ AllEqual S lo (n + 1) ∧ S (n + 1) = S n := by
  constructor
  · intro h
    exact ⟨fun a ha b hb => h a (by omega) b (by omega),
      h (n + 1) (by omega) n (by omega) (by omega) hlo⟩
  · rintro ⟨h, hlast⟩
    have hall : ∀ a < n + 2, lo ≤ a → S a = S n := fun a ha hle => by
      rcases Nat.lt_or_ge a (n + 1) with hlt | hge
      · exact h a hlt n (by omega) hle hlo
      · rw [show a = n + 1 by omega, hlast]
    exact fun a ha b hb hla hlb => (hall a ha hla).trans (hall b hb hlb).symm

/-- A window of at most one element is all equal. -/
theorem allEqual_of_le (hle : n ≤ lo + 1) : AllEqual S lo n :=
  fun a ha b hb hla hlb => congrArg S (by omega)

/-- A counter that counts as `RUNLEN` does has reached `m` exactly when the last `m` elements are all equal
(R42, R195). -/
theorem le_runLength_iff {len : Nat → Nat} {val : Nat → Bit} (h0 : len 0 = 0)
    (hlen : ∀ k, len (k + 1) = nextRunLen (len k) (val k) (S k)) (hval : ∀ k, val (k + 1) = S k)
    (n m : Nat) : m ≤ len n ↔ m ≤ n ∧ AllEqual S (n - m) n := by
  have hpos (k : Nat) : 0 < len (k + 1) := by rw [hlen]; unfold nextRunLen; split_ifs <;> omega
  induction n generalizing m with
  | zero =>
    rw [h0, Nat.le_zero]
    exact (and_iff_left (allEqual_of_le (by omega))).symm
  | succ n ih =>
    cases m with
    | zero => exact iff_of_true (Nat.zero_le _) ⟨Nat.zero_le _, allEqual_of_le (by omega)⟩
    | succ m =>
      rw [Nat.add_sub_add_right, Nat.add_le_add_iff_right]
      cases n with
      | zero =>
        have hone : len (0 + 1) = 1 := by rw [hlen, nextRunLen, h0]; rfl
        rw [hone]
        exact ⟨fun hm => ⟨by omega, allEqual_of_le (by omega)⟩, fun ⟨hm, _⟩ => by omega⟩
      | succ n =>
        by_cases heq : S (n + 1) = S n
        · have hgrow : len (n + 1 + 1) = len (n + 1) + 1 := by
            rw [hlen, nextRunLen, hval, if_pos ⟨hpos n, heq⟩]
          rw [hgrow, Nat.add_le_add_iff_right]
          refine (ih m).trans (and_congr_right fun hm => ?_)
          cases m with
          | zero => exact iff_of_true (allEqual_of_le (by omega)) (allEqual_of_le (by omega))
          | succ m =>
            rw [allEqual_succ (by omega)]
            exact (and_iff_left heq).symm
        · have hrestart : len (n + 1 + 1) = 1 := by
            rw [hlen, nextRunLen, hval, if_neg fun h => heq h.2]
          rw [hrestart]
          cases m with
          | zero => exact iff_of_true (by omega) ⟨by omega, allEqual_of_le (by omega)⟩
          | succ m =>
            refine iff_of_false (by omega) fun ⟨hm, hall⟩ => heq ?_
            exact ((allEqual_succ (by omega)).1 hall).2

/-! ## The scan -/

/-- The run counter of a scan has reached `m` exactly when the last `m` bits read are all equal (R195). -/
theorem le_extract_runLen_iff (d : Direction) (s : State) (n m : Nat) :
    m ≤ ((extractBitStep d)^[n] (extractBegin d s)).runLen ↔
      m ≤ n ∧ AllEqual (lsbAt d (startCommand s)) (n - m) n :=
  le_runLength_iff (len := fun k => ((extractBitStep d)^[k] (extractBegin d s)).runLen)
    (val := fun k => ((extractBitStep d)^[k] (extractBegin d s)).runVal) rfl
    (fun k => extract_runLen_succ d k s) (fun k => extract_runVal_succ d k s) n m

/-- Where the heuristic is applied, a scan stops after `n` bits exactly when the window form triggers
(R194, R195). -/
theorem stopsAt_iff_windowTrigger {d : Direction} {s : State} {n : Nat} (hs : ShapeHonest s)
    (hd : heuristic d = true) (hn : n ≤ s.cap d) :
    stopsAt d s n = true ↔ WindowTrigger (stream d s) s.kreg.toNat n := by
  have hstream : AllEqual (lsbAt d (startCommand s)) (n - 8 * s.kreg.toNat) n ↔
      AllEqual (stream d s) (n - 8 * s.kreg.toNat) n := by
    refine forall₂_congr fun a ha => forall₂_congr fun b hb => ?_
    rw [hs.lsbAt_startCommand (ha.trans_le hn), hs.lsbAt_startCommand (hb.trans_le hn)]
  rw [stopsAt, hd, Bool.true_and, triggered, Bool.and_eq_true, decide_eq_true_eq, decide_eq_true_eq,
    minTrigger, windowLen, le_extract_runLen_iff, hstream]
  exact and_congr_right fun h => and_iff_right (by omega)

/-- A scan stopped by the trigger at its end exactly when some count within the capacity triggers first
(R194, R197). -/
theorem stopsAt_end_iff_firstTrigger {d : Direction} {s : State} {n : Nat} (hs : ShapeHonest s)
    (hd : heuristic d = true) (hn : n ≤ s.cap d)
    (hgo : ∀ k, 0 < k → k < n → stopsAt d s k = false)
    (hstop : n = s.cap d ∨ (0 < n ∧ stopsAt d s n = true)) :
    stopsAt d s n = true ↔ ∃ l, FirstTrigger (stream d s) s.kreg.toNat (s.cap d) l := by
  have hiff {k : Nat} (hk : k ≤ s.cap d) := stopsAt_iff_windowTrigger hs hd hk
  constructor
  · intro htrig
    refine ⟨n, hn, (hiff hn).1 htrig, fun l hl hwin => ?_⟩
    have hpos : 0 < l := by have := hwin.1; omega
    have hfalse := hgo l hpos hl
    rw [(hiff (by omega)).2 hwin] at hfalse
    cases hfalse
  · rintro ⟨l, hl, hwin, -⟩
    have hpos : 0 < l := by have := hwin.1; omega
    have htrig := (hiff hl).2 hwin
    have hnl : n ≤ l := by
      by_contra hlt
      rw [hgo l hpos (by omega)] at htrig
      cases htrig
    rcases hstop with hcap | ⟨-, h⟩
    · rwa [show n = l by omega]
    · exact h

end Sys2Proof.Safety
end

section
/-! SUPPORT. The flags `EMPTY` and `TERM` at the end of every command (10_state R31, R32). -/

namespace Sys2Proof.Safety

open Sys2Proof.Machine

variable {s t : State}

/-! ## Which commands can set a flag -/

/-- The command ended with neither `EMPTY` nor `TERM`. -/
def NoFlags (t : State) : Prop := t.empty = false ∧ t.term = false

theorem noFlags_raise (e : ErrorKind) (info : Nat) (s : State) : NoFlags (raise e info s) :=
  ⟨raise_empty e info s, raise_term e info s⟩

theorem noFlags_complete (s : State) : NoFlags (complete false false s) :=
  ⟨complete_empty false false s, complete_term false false s⟩

/-- The command is not an extraction. -/
def NotExtraction (i : Instr) : Prop := ∀ d, (i, d) ∉ extracts ∧ (i, d) ∉ extractns

/-- Every command is an `EXTRACT`, an `EXTRACTN`, or one that sets neither flag. -/
theorem commandBody_flags (i : Instr) :
    (∃ d, (i, d) ∈ extracts ∧ commandBody i = extractBody d) ∨
      (∃ d, (i, d) ∈ extractns ∧ commandBody i = extractnBody d) ∨
      (NotExtraction i ∧ ∀ u, NoFlags (commandBody i u)) := by
  cases i with
  | extractH => exact .inl ⟨.horizontal, by simp, rfl⟩
  | extractV => exact .inl ⟨.vertical, by simp, rfl⟩
  | extractD => exact .inl ⟨.diagonal, by simp, rfl⟩
  | extractnH => exact .inr (.inl ⟨.horizontal, by simp, rfl⟩)
  | extractnV => exact .inr (.inl ⟨.vertical, by simp, rfl⟩)
  | extractnD => exact .inr (.inl ⟨.diagonal, by simp, rfl⟩)
  | bits2bytes => exact .inr (.inr ⟨by simp [NotExtraction], fun _ => noFlags_complete _⟩)
  | bits2text => exact .inr (.inr ⟨by simp [NotExtraction], fun _ => noFlags_complete _⟩)
  | capH => exact .inr (.inr ⟨by simp [NotExtraction], fun _ => noFlags_complete _⟩)
  | capV => exact .inr (.inr ⟨by simp [NotExtraction], fun _ => noFlags_complete _⟩)
  | capD => exact .inr (.inr ⟨by simp [NotExtraction], fun _ => noFlags_complete _⟩)
  | _ =>
    exact .inr (.inr ⟨by simp [NotExtraction], fun u =>
      checked_induction _ (fun e info => noFlags_raise e info u) (noFlags_complete _)⟩)

/-! ## `EMPTY` -/

/-- `EMPTY` says of a finished extraction what R31 says. -/
def EmptyIsNoBits (t : State) : Prop := t.empty = true ↔ t.err = false ∧ t.bitlen = 0

/-- An error sets `ERR` and not `EMPTY`. -/
theorem emptyIsNoBits_raise (e : ErrorKind) (info : Nat) (s : State) :
    EmptyIsNoBits (raise e info s) := by simp [EmptyIsNoBits]

/-- An extraction that ends without error sets `EMPTY` from the length it writes. -/
theorem emptyIsNoBits_complete (trig : Bool) (s : State) :
    EmptyIsNoBits (complete (s.bitlen == 0) trig s) := by simp [EmptyIsNoBits]

/-- Settles O45: only an extraction can set `EMPTY`, and it does so from the `BITLEN` it ends with. -/
theorem emptyFlagMeansNoBits : Obligations.EmptyFlagMeansNoBits := by
  intro i s t hexec
  obtain rfl := exec_eq_next_iff.1 hexec
  rcases commandBody_flags i with ⟨d, hi, hbody⟩ | ⟨d, hi, hbody⟩ | ⟨hnot, hflags⟩
  · have hend : EmptyIsNoBits (extractBody d (startCommand s)) :=
      checked_induction _ (fun e info => emptyIsNoBits_raise e info _) (emptyIsNoBits_complete _ _)
    rw [hbody]
    exact hend.trans (and_iff_right ⟨d, .inl hi⟩).symm
  · have hend : EmptyIsNoBits (extractnBody d (startCommand s)) :=
      checked_induction _ (fun e info => emptyIsNoBits_raise e info _) (emptyIsNoBits_complete _ _)
    rw [hbody]
    exact hend.trans (and_iff_right ⟨d, .inr hi⟩).symm
  · refine iff_of_false (by simp [(hflags _).1]) ?_
    rintro ⟨⟨d, hi | hi⟩, -⟩
    · exact (hnot d).1 hi
    · exact (hnot d).2 hi

/-! ## `TERM` -/

theorem mem_scans_iff {i : Instr} {d : Direction} :
    (i, d) ∈ scans ↔ (i, d) ∈ extracts ∧ heuristic d = true := by
  cases d <;> simp [heuristic]

/-- Where the heuristic is applied no shape is refused and the capacity is `W × H` (R154, R191). -/
theorem shapeMismatch_of_heuristic {d : Direction} (hd : heuristic d = true) (w h : Nat) :
    shapeMismatch d w h = false := by
  cases d with
  | horizontal => rfl
  | vertical => rfl
  | diagonal => cases hd

theorem cap_of_heuristic {d : Direction} (hd : heuristic d = true) (s : State) :
    s.cap d = s.imgW * s.imgH := by
  cases d with
  | horizontal => rfl
  | vertical => rfl
  | diagonal => cases hd

/-- A command names at most one direction. -/
theorem extracts_direction_unique {i : Instr} {d d' : Direction} (h : (i, d) ∈ extracts)
    (h' : (i, d') ∈ extracts) : d' = d := by
  simp only [List.mem_cons, Prod.mk.injEq, List.not_mem_nil, or_false] at h
  rcases h with ⟨rfl, rfl⟩ | ⟨rfl, rfl⟩ | ⟨rfl, rfl⟩ <;> simpa using h'

theorem notMem_extracts_of_extractns {i : Instr} {d d' : Direction} (h : (i, d) ∈ extractns) :
    (i, d') ∉ extracts := by
  simp only [List.mem_cons, Prod.mk.injEq, List.not_mem_nil, or_false] at h
  rcases h with ⟨rfl, rfl⟩ | ⟨rfl, rfl⟩ | ⟨rfl, rfl⟩ <;> simp

/-- `EXTRACTN` never sets `TERM` (R202). -/
theorem extractnBody_term (d : Direction) (s : State) :
    (extractnBody d (startCommand s)).term = false := by
  rcases extractnBody_cases d s with ⟨e, info, -, heq⟩ | ⟨-, heq⟩ <;> rw [heq]
  · exact raise_term e info _
  · exact complete_term _ false _

theorem extractFinish_term (d : Direction) (s : State) (n : Nat) :
    (extractFinish d ((extractBitStep d)^[n] (extractBegin d s))).term = stopsAt d s n :=
  (complete_term _ _ _).trans (scanTriggered_eq d s n)

/-- `TERM` after an `EXTRACT`: the heuristic is applied, `K` is not zero and some count triggers (R32). -/
theorem extractBody_term_iff (hs : ShapeHonest s) (d : Direction) :
    (extractBody d (startCommand s)).term = true ↔ heuristic d = true ∧ s.kreg ≠ 0 ∧
      ∃ n, FirstTrigger (stream d s) s.kreg.toNat (s.cap d) n := by
  rcases extractBody_cases d s with ⟨e, info, hcheck, heq⟩ | ⟨hcheck, heq⟩ <;> rw [heq]
  · refine iff_of_false (by simp) ?_
    rintro ⟨hd, hk, -⟩
    have hk0 : (heuristic d && s.kreg == 0) = false := by simpa [hd] using hk
    rw [extractCheck_none.2 ⟨hk0, shapeMismatch_of_heuristic hd _ _⟩] at hcheck
    cases hcheck
  · obtain ⟨n, hn, hgo, hstop⟩ := extract_stops d s
    rw [extractGo_eq d s hn hgo hstop, extractFinish_term]
    rcases hd : heuristic d with _ | _
    · simp [stopsAt, hd]
    · have hk : s.kreg ≠ 0 := by simpa [hd] using (extractCheck_none.1 hcheck).1
      rw [stopsAt_end_iff_firstTrigger hs hd hn hgo hstop]
      exact ⟨fun hfirst => ⟨rfl, hk, hfirst⟩, fun ⟨_, _, hfirst⟩ => hfirst⟩

/-- Settles O46: only an `EXTRACT` can set `TERM`, and it does so when its scan stops by the trigger. -/
theorem termFlagMeansTriggered : Obligations.TermFlagMeansTriggered := by
  intro i s t hs hexec
  obtain rfl := exec_eq_next_iff.1 hexec
  rcases commandBody_flags i with ⟨d, hi, hbody⟩ | ⟨d, hi, hbody⟩ | ⟨hnot, hflags⟩
  · rw [hbody, extractBody_term_iff hs]
    constructor
    · rintro ⟨hd, hk, n, hfirst⟩
      exact ⟨d, mem_scans_iff.2 ⟨hi, hd⟩, hk, n, cap_of_heuristic hd s ▸ hfirst⟩
    · rintro ⟨d', hscan, hk, n, hfirst⟩
      obtain ⟨hi', hd'⟩ := mem_scans_iff.1 hscan
      obtain rfl := extracts_direction_unique hi hi'
      exact ⟨hd', hk, n, (cap_of_heuristic hd' s).symm ▸ hfirst⟩
  · refine iff_of_false (by simp [hbody, extractnBody_term]) ?_
    rintro ⟨d', hscan, -⟩
    exact notMem_extracts_of_extractns hi (mem_scans_iff.1 hscan).1
  · refine iff_of_false (by simp [(hflags _).2]) ?_
    rintro ⟨d, hscan, -⟩
    exact (hnot d).1 (mem_scans_iff.1 hscan).1

end Sys2Proof.Safety
end

section
/-! SUPPORT. What a command's outcome and results depend on (10_state R37, R46): for two states that agree on the
reads of a command, its checks answer the same, and its effect produces the same results. -/

namespace Sys2Proof.Safety

open Sys2Proof.Machine

variable {s t s1 s2 u1 u2 : State} {w : List Place}

/-! ## Ends that agree -/

/-- Two ends of a command agree: the same outcome, and without error the same results in the places `w`. -/
def SameEnd (w : List Place) (t1 t2 : State) : Prop :=
  t1.status = t2.status ∧ t1.errcode = t2.errcode ∧ t1.errinfo = t2.errinfo ∧
    (t1.err = false → ∀ p ∈ w, AgreeOnPlace t1 t2 p)

theorem sameEnd_raise (e : ErrorKind) (info : Nat) (u1 u2 : State) :
    SameEnd w (raise e info u1) (raise e info u2) :=
  ⟨rfl, rfl, rfl, fun h => by simp at h⟩

/-- No error is reported yet in either state: so it is from the start of a command to its end. -/
def NoErrorYet (u : State) : Prop := u.errcode = 0 ∧ u.errinfo = 0

theorem noErrorYet_startCommand (s : State) : NoErrorYet (startCommand s) := ⟨rfl, rfl⟩

theorem NoErrorYet.of_sameButWork (h : NoErrorYet u1) (hsame : SameButWork u1 u2) : NoErrorYet u2 :=
  ⟨hsame.errcode.trans h.1, hsame.errinfo.trans h.2⟩

theorem sameEnd_complete {m1 m2 r1 r2 : Bool} (hm : m1 = m2) (hr : r1 = r2) (h1 : NoErrorYet u1)
    (h2 : NoErrorYet u2)
    (hw : ∀ p ∈ w, AgreeOnPlace (complete m1 r1 u1) (complete m2 r2 u2) p) :
    SameEnd w (complete m1 r1 u1) (complete m2 r2 u2) :=
  ⟨by rw [complete_status, complete_status, hm, hr], h1.1.trans h2.1.symm, h1.2.trans h2.2.symm,
    fun _ => hw⟩

/-- Checks that answer the same end the two commands alike, if their effects do. -/
theorem sameEnd_checked {f1 f2 : Option (ErrorKind × Nat)} {go1 go2 : State → State} (hf : f1 = f2)
    (hgo : f1 = none → SameEnd w (go1 u1) (go2 u2)) :
    SameEnd w (checked f1 u1 go1) (checked f2 u2 go2) := by
  subst hf
  rcases f1 with _ | ⟨e, info⟩
  · exact hgo rfl
  · exact sameEnd_raise e info u1 u2

theorem agree_bitSequence (hlen : s.bitlen = t.bitlen)
    (hbuf : ∀ k < s.bitlen, readBitBuf s.bitBuf k = readBitBuf t.bitBuf k) :
    ∀ p ∈ [Place.bitlen, .bitbuf], AgreeOnPlace s t p :=
  List.forall_mem_cons.2 ⟨hlen, List.forall_mem_singleton.2 hbuf⟩

theorem agree_byteSequence (hlen : s.bytelen = t.bytelen)
    (hbuf : ∀ k < s.bytelen, readByteBuf s.byteBuf k = readByteBuf t.byteBuf k) :
    ∀ p ∈ [Place.bytelen, .bytebuf], AgreeOnPlace s t p :=
  List.forall_mem_cons.2 ⟨hlen, List.forall_mem_singleton.2 hbuf⟩

theorem agree_results (h0 : s.res0 = t.res0) (h1 : s.res1 = t.res1) (h2 : s.res2 = t.res2) :
    ∀ p ∈ [Place.res0, .res1, .res2], AgreeOnPlace s t p :=
  List.forall_mem_cons.2 ⟨h0, List.forall_mem_cons.2 ⟨h1, List.forall_mem_singleton.2 h2⟩⟩

theorem agree_img (himg : ImagesAgree s.imgW s.imgH s.img t.img) :
    ∀ p ∈ [Place.img], AgreeOnPlace s t p :=
  List.forall_mem_singleton.2 fun x hx y hy c _ =>
    congrArg (channelOf · c) ((himg x hx y hy).2.2 _ _)

/-! ## The commands without bit steps -/

theorem bytes_congr (hlen : s.bytelen = t.bytelen)
    (hbuf : ∀ k < s.bytelen, readByteBuf s.byteBuf k = readByteBuf t.byteBuf k) :
    s.bytes = t.bytes := by
  simp only [State.bytes, ← hlen]
  exact List.map_congr_left fun k hk => hbuf k (List.mem_range.1 hk)

theorem bits_congr (hlen : s.bitlen = t.bitlen)
    (hbuf : ∀ k < s.bitlen, readBitBuf s.bitBuf k = readBitBuf t.bitBuf k) : s.bits = t.bits := by
  simp only [State.bits, ← hlen]
  exact List.map_congr_left fun k hk => hbuf k (List.mem_range.1 hk)

theorem sameEnd_bytesToBits (hdim : s1.dimBits = s2.dimBits) (hlen : s1.bytelen = s2.bytelen)
    (hbuf : ∀ k < s1.bytelen, readByteBuf s1.byteBuf k = readByteBuf s2.byteBuf k) :
    SameEnd [.bitlen, .bitbuf] (bytesToBitsBody (startCommand s1))
      (bytesToBitsBody (startCommand s2)) := by
  have hbytes : (startCommand s1).bytes = (startCommand s2).bytes := bytes_congr hlen hbuf
  refine sameEnd_checked (by simp [bytesToBitsCheck, hdim, hlen]) fun _ => ?_
  refine sameEnd_complete rfl rfl (noErrorYet_startCommand s1) (noErrorYet_startCommand s2) ?_
  refine agree_bitSequence (congrArg (8 * ·) hlen) fun k (hk : k < 8 * s1.bytelen) => ?_
  have hk1 : k < (bitsOfBytes (startCommand s1).bytes).length := by
    rwa [bitsOfBytes_length, bytes_length]
  show readBitBuf (Buffer.produced _ (bitsOfBytes (startCommand s1).bytes)) k =
    readBitBuf (Buffer.produced _ (bitsOfBytes (startCommand s2).bytes)) k
  rw [← hbytes, readBitBuf_produced _ _ hk1, readBitBuf_produced _ _ hk1]

/-- `BITS2BYTES` and `BITS2TEXT` differ in the number of bytes only (R123, R124). -/
theorem sameEnd_packed {m1 m2 : Nat} (hm : m1 = m2) (hlen : s1.bitlen = s2.bitlen)
    (hbuf : ∀ k < s1.bitlen, readBitBuf s1.bitBuf k = readBitBuf s2.bitBuf k) (n1 n2 : Nat) :
    SameEnd [.bytelen, .bytebuf]
      (complete false false { startCommand s1 with
        byteBuf := Buffer.produced n1 (bytesOfBits m1 (startCommand s1).bits), bytelen := m1 })
      (complete false false { startCommand s2 with
        byteBuf := Buffer.produced n2 (bytesOfBits m2 (startCommand s2).bits), bytelen := m2 }) := by
  have hbits : (startCommand s1).bits = (startCommand s2).bits := bits_congr hlen hbuf
  refine sameEnd_complete rfl rfl ⟨rfl, rfl⟩ ⟨rfl, rfl⟩ (agree_byteSequence hm fun k hk => ?_)
  exact (readByteBuf_packed n1 m1 _ hk).trans
    (hbits ▸ (readByteBuf_packed n2 m2 _ (hm ▸ hk)).symm)

/-- A command whose one result is `RES0`. -/
theorem sameEnd_res0 {n1 n2 : Nat} (hn : n1 = n2) (s1 s2 : State) :
    SameEnd [.res0] (complete false false { startCommand s1 with res0 := n1 })
      (complete false false { startCommand s2 with res0 := n2 }) := by
  exact sameEnd_complete rfl rfl ⟨rfl, rfl⟩ ⟨rfl, rfl⟩ (List.forall_mem_singleton.2 hn)

theorem sameEnd_setlsb (pos : Nat) (h0 : s1.arg0 = s2.arg0) (h1 : s1.arg1 = s2.arg1) :
    SameEnd [.res0] (setlsbBody pos (startCommand s1)) (setlsbBody pos (startCommand s2)) :=
  sameEnd_checked (by simp [setlsbCheck, h0, h1]) fun _ => sameEnd_res0 (by simp [h0, h1]) s1 s2

theorem sameEnd_getlsb (pos : Nat) (h0 : s1.arg0 = s2.arg0) :
    SameEnd [.res0] (getlsbBody pos (startCommand s1)) (getlsbBody pos (startCommand s2)) :=
  sameEnd_checked (by simp [getlsbCheck, h0]) fun _ => sameEnd_res0 (by simp [h0]) s1 s2

/-- The shape registers agree. -/
def SameShape (s t : State) : Prop := s.imgW = t.imgW ∧ s.imgH = t.imgH

theorem SameShape.cap (h : SameShape s t) (d : Direction) : s.cap d = t.cap d := by
  simp only [State.cap, h.1, h.2]

theorem SameShape.addr (h : SameShape s t) (d : Direction) (i : Nat) : s.addr d i = t.addr d i := by
  simp only [State.addr, h.1, h.2]

/-- Equal bytes of images with honest shapes, as `AgreeOnReads` has them, are agreeing images. -/
theorem SameShape.imagesAgree (h : SameShape s t) (himg : ShapeHonest s ∧ ShapeHonest t ∧
    ∀ x < s.imgW, ∀ y < s.imgH, ∀ c < 3, imgByte s x y c = imgByte t x y c) :
    ImagesAgree s.imgW s.imgH s.img t.img :=
  have ⟨hs, ht, hbytes⟩ := himg
  imagesAgree_of_imgByte hs ht h.1 h.2 hbytes

theorem sameEnd_cap (d : Direction) (h : SameShape s1 s2) :
    SameEnd [.res0] (capBody d (startCommand s1)) (capBody d (startCommand s2)) :=
  sameEnd_res0 (h.cap d) s1 s2

theorem sameEnd_addr (d : Direction) (h : SameShape s1 s2) (h0 : s1.arg0 = s2.arg0) :
    SameEnd [.res0, .res1, .res2] (addrBody d (startCommand s1)) (addrBody d (startCommand s2)) := by
  have haddr : s1.addr d s1.arg0 = s2.addr d s2.arg0 := by rw [h.addr, h0]
  refine sameEnd_checked (by simp [addrCheck, h0, h.cap]) fun _ => ?_
  exact sameEnd_complete rfl rfl ⟨rfl, rfl⟩ ⟨rfl, rfl⟩ (agree_results
    (congrArg PixelAddr.x haddr) (congrArg PixelAddr.y haddr) (congrArg PixelAddr.c haddr))

/-! ## `EMBED` -/

/-- Two states in which an `EMBED` has come equally far: the same offset and shape, the same bits to set, and
images that agree on the shape. -/
structure EmbedAlike (s t : State) : Prop where
  shape : SameShape s t
  offs : s.offs = t.offs
  bitlen : s.bitlen = t.bitlen
  bits : ∀ k < s.bitlen, readBitBuf s.bitBuf k = readBitBuf t.bitBuf k
  img : ImagesAgree s.imgW s.imgH s.img t.img

/-- A bit step within the capacity writes the same pixel to the same place in both. -/
theorem EmbedAlike.bitStep (h : EmbedAlike s t) {d : Direction} (hbit : s.offs < s.bitlen)
    (hcap : s.offs < s.cap d) : EmbedAlike (embedBitStep d s) (embedBitStep d t) := by
  have haddr : s.addr d s.offs = t.addr d t.offs := by rw [h.shape.addr, h.offs]
  have hpix : embeddedPixel d s = embeddedPixel d t := by
    unfold embeddedPixel
    rw [pixRead_addr_congr h.shape.1 h.shape.2 h.img hcap, h.bits _ hbit, haddr, h.offs]
  refine ⟨h.shape, congrArg (· + 1) h.offs, h.bitlen, h.bits, ?_⟩
  rw [embedBitStep_img, embedBitStep_img, ← haddr, ← hpix]
  exact h.img.pixWrite _ _ _

theorem EmbedAlike.iterate (h : EmbedAlike (embedBegin s1) (embedBegin s2)) (d : Direction)
    (hcap : s1.bitlen ≤ s1.cap d) {k : Nat} (hk : k ≤ s1.bitlen) :
    EmbedAlike ((embedBitStep d)^[k] (embedBegin s1)) ((embedBitStep d)^[k] (embedBegin s2)) := by
  induction k with
  | zero => exact h
  | succ k ih =>
    rw [Function.iterate_succ_apply', Function.iterate_succ_apply']
    have hsame := embed_same d k s1
    refine (ih (by omega)).bitStep ?_ ?_
    · rw [embed_offs, hsame.bitlen]; exact hk
    · rw [embed_offs, hsame.cap]; exact hk.trans hcap

theorem sameEnd_embed (d : Direction) (h : SameShape s1 s2) (hlen : s1.bitlen = s2.bitlen)
    (hbuf : ∀ k < s1.bitlen, readBitBuf s1.bitBuf k = readBitBuf s2.bitBuf k)
    (himg : ImagesAgree s1.imgW s1.imgH s1.img s2.img) :
    SameEnd [.img] (embedBody d (startCommand s1)) (embedBody d (startCommand s2)) := by
  refine sameEnd_checked (by simp [embedCheck, h.1, h.2, hlen, h.cap]) fun hcheck => ?_
  have hcap : s1.bitlen ≤ s1.cap d := (embedCheck_none.1 hcheck).2
  have hbegin : EmbedAlike (embedBegin s1) (embedBegin s2) := ⟨h, rfl, hlen, hbuf, himg⟩
  have hend := hbegin.iterate d hcap le_rfl
  have hstart (s : State) : NoErrorYet (embedBegin s) := ⟨rfl, rfl⟩
  rw [embedGo_eq, embedGo_eq, ← hlen]
  exact sameEnd_complete rfl rfl ((hstart s1).of_sameButWork (embed_same d _ s1))
    ((hstart s2).of_sameButWork (embed_same d _ s2)) (agree_img hend.img)

/-! ## `EXTRACTN` -/

theorem lsbAt_startCommand_congr {d : Direction} {i : Nat} (h : SameShape s1 s2)
    (himg : ImagesAgree s1.imgW s1.imgH s1.img s2.img) (hi : i < s1.cap d) :
    lsbAt d (startCommand s1) i = lsbAt d (startCommand s2) i :=
  lsbAt_imagesAgree (s := startCommand s1) (t := startCommand s2) h.1 h.2 himg hi

theorem sameEnd_extractn (d : Direction) (h : SameShape s1 s2) (hn : s1.nwin = s2.nwin)
    (himg : ImagesAgree s1.imgW s1.imgH s1.img s2.img) :
    SameEnd [.bitlen, .bitbuf] (extractnBody d (startCommand s1))
      (extractnBody d (startCommand s2)) := by
  refine sameEnd_checked (by simp [extractnCheck, h.1, h.2, hn, h.cap]) fun hcheck => ?_
  have hcap : s1.nwin ≤ s1.cap d := (extractnCheck_none.1 hcheck).2
  have hnwin (s : State) : ((extractnBitStep d)^[s.nwin] (extractnBegin s)).nwin = s.nwin :=
    (extractn_same d s.nwin s).nwin
  have hclean (s : State) : NoErrorYet ((extractnBitStep d)^[s.nwin] (extractnBegin s)) :=
    (show NoErrorYet (extractnBegin s) from ⟨rfl, rfl⟩).of_sameButWork (extractn_same d s.nwin s)
  have hlen := (hnwin s1).trans (hn.trans (hnwin s2).symm)
  rw [extractnGo_eq, extractnGo_eq]
  refine sameEnd_complete (by rw [hlen]) rfl (hclean s1) (hclean s2)
    (agree_bitSequence hlen fun k hk => ?_)
  have hk1 : k < s1.nwin := (hnwin s1) ▸ hk
  exact (extractnFinish_read d s1 hk1).trans ((lsbAt_startCommand_congr h himg (hk1.trans_le hcap)).trans
    (extractnFinish_read d s2 (hn ▸ hk1)).symm)

/-! ## `EXTRACT` -/

/-- The run counter depends on the bits read only. -/
theorem extract_run_congr {d : Direction} {n : Nat}
    (hbits : ∀ i < n, lsbAt d (startCommand s1) i = lsbAt d (startCommand s2) i) :
    ((extractBitStep d)^[n] (extractBegin d s1)).runLen =
        ((extractBitStep d)^[n] (extractBegin d s2)).runLen ∧
      ((extractBitStep d)^[n] (extractBegin d s1)).runVal =
        ((extractBitStep d)^[n] (extractBegin d s2)).runVal := by
  induction n with
  | zero => exact ⟨rfl, rfl⟩
  | succ n ih =>
    obtain ⟨hlen, hval⟩ := ih fun i hi => hbits i (by omega)
    have hbit := hbits n (by omega)
    exact ⟨by rw [extract_runLen_succ, extract_runLen_succ, hlen, hval, hbit],
      by rw [extract_runVal_succ, extract_runVal_succ, hbit]⟩

/-- `K` matters where the heuristic is applied only (R192, R200). -/
theorem stopsAt_congr {d : Direction} {n : Nat} (hk : heuristic d = true → s1.kreg = s2.kreg)
    (hbits : ∀ i < n, lsbAt d (startCommand s1) i = lsbAt d (startCommand s2) i) :
    stopsAt d s1 n = stopsAt d s2 n := by
  rcases hd : heuristic d with _ | _
  · simp [stopsAt, hd]
  · rw [stopsAt, stopsAt, hk hd, (extract_run_congr hbits).1]

theorem scanLen_congr {d : Direction} {n : Nat} (hk : heuristic d = true → s1.kreg = s2.kreg)
    (hbits : ∀ i < n, lsbAt d (startCommand s1) i = lsbAt d (startCommand s2) i) :
    scanLen d s1 n = scanLen d s2 n := by
  rw [scanLen, scanLen, ← stopsAt_congr hk hbits, (extract_run_congr hbits).1]
  rcases htrig : stopsAt d s1 n with _ | _
  · rfl
  · have hd : heuristic d = true := (Bool.and_eq_true_iff.1 htrig).1
    rw [hk hd]

theorem sameEnd_extract (d : Direction) (h : SameShape s1 s2)
    (hk : heuristic d = true → s1.kreg = s2.kreg)
    (himg : ImagesAgree s1.imgW s1.imgH s1.img s2.img) :
    SameEnd [.bitlen, .bitbuf] (extractBody d (startCommand s1)) (extractBody d (startCommand s2)) := by
  have hcheck : extractCheck d s1 = extractCheck d s2 := by
    unfold extractCheck
    rcases hd : heuristic d with _ | _
    · rw [h.1, h.2, Bool.false_and, Bool.false_and]
    · rw [h.1, h.2, hk hd]
  refine sameEnd_checked hcheck fun _ => ?_
  obtain ⟨n, hn, hgo, hstop⟩ := extract_stops d s1
  have hbits {m : Nat} (hm : m ≤ s1.cap d) :
      ∀ i < m, lsbAt d (startCommand s1) i = lsbAt d (startCommand s2) i :=
    fun i hi => lsbAt_startCommand_congr h himg (hi.trans_le hm)
  have hstops := stopsAt_congr hk (hbits hn)
  have hlen := scanLen_congr hk (hbits hn)
  have hgo2 : ∀ k, 0 < k → k < n → stopsAt d s2 k = false := fun k h0 hkn =>
    (stopsAt_congr hk (hbits (hkn.le.trans hn))).symm.trans (hgo k h0 hkn)
  rw [extractGo_eq d s1 hn hgo hstop,
    extractGo_eq d s2 (h.cap d ▸ hn) hgo2 (by rwa [h.cap d, hstops] at hstop)]
  have hstart (s : State) : NoErrorYet (extractBegin d s) := ⟨rfl, rfl⟩
  obtain ⟨hcode1, hinfo1⟩ := (hstart s1).of_sameButWork (extract_same d n s1)
  obtain ⟨hcode2, hinfo2⟩ := (hstart s2).of_sameButWork (extract_same d n s2)
  refine ⟨?_, hcode1.trans hcode2.symm, hinfo1.trans hinfo2.symm,
    fun _ => agree_bitSequence ?_ fun k hkb => ?_⟩
  · rw [extractFinish_status, extractFinish_status, hlen, hstops]
  · rw [extractFinish_bitlen, extractFinish_bitlen, hlen]
  · rw [extractFinish_bitlen] at hkb
    rw [extractFinish_read d s1 n hkb, extractFinish_read d s2 n (hlen ▸ hkb)]
    exact hbits hn k (hkb.trans_le (scanLen_le d s1 n))

/-! ## Every command -/

theorem sameEnd_commandBody {i : Instr} (h : AgreeOnReads i s1 s2) :
    SameEnd (writeSet i) (commandBody i (startCommand s1)) (commandBody i (startCommand s2)) := by
  cases i with
  | bytes2bits => obtain ⟨hdim, hlen, hbuf⟩ := h; exact sameEnd_bytesToBits hdim hlen hbuf
  | text2bits => obtain ⟨hdim, hlen, hbuf⟩ := h; exact sameEnd_bytesToBits hdim hlen hbuf
  | bits2bytes => obtain ⟨hlen, hbuf⟩ := h; exact sameEnd_packed (congrArg ceil8 hlen) hlen hbuf _ _
  | bits2text => obtain ⟨hlen, hbuf⟩ := h; exact sameEnd_packed (congrArg floor8 hlen) hlen hbuf _ _
  | setlsb pos => obtain ⟨h0, h1⟩ := h; exact sameEnd_setlsb pos h0 h1
  | getlsb pos => exact sameEnd_getlsb pos h
  | addrH => obtain ⟨hshape, h0⟩ := h; exact sameEnd_addr .horizontal hshape h0
  | addrV => obtain ⟨hshape, h0⟩ := h; exact sameEnd_addr .vertical hshape h0
  | addrD => obtain ⟨hshape, h0⟩ := h; exact sameEnd_addr .diagonal hshape h0
  | capH => exact sameEnd_cap .horizontal h
  | capV => exact sameEnd_cap .vertical h
  | capD => exact sameEnd_cap .diagonal h
  | embedH =>
    obtain ⟨hshape, ⟨hlen, hbuf⟩, himg⟩ := h
    exact sameEnd_embed .horizontal hshape hlen hbuf (SameShape.imagesAgree hshape himg)
  | embedV =>
    obtain ⟨hshape, ⟨hlen, hbuf⟩, himg⟩ := h
    exact sameEnd_embed .vertical hshape hlen hbuf (SameShape.imagesAgree hshape himg)
  | embedD =>
    obtain ⟨hshape, ⟨hlen, hbuf⟩, himg⟩ := h
    exact sameEnd_embed .diagonal hshape hlen hbuf (SameShape.imagesAgree hshape himg)
  | extractH =>
    obtain ⟨hshape, hk, himg⟩ := h
    exact sameEnd_extract .horizontal hshape (fun _ => hk) (SameShape.imagesAgree hshape himg)
  | extractV =>
    obtain ⟨hshape, hk, himg⟩ := h
    exact sameEnd_extract .vertical hshape (fun _ => hk) (SameShape.imagesAgree hshape himg)
  | extractD =>
    obtain ⟨hshape, himg⟩ := h
    exact sameEnd_extract .diagonal hshape nofun (SameShape.imagesAgree hshape himg)
  | extractnH =>
    obtain ⟨hshape, hn, himg⟩ := h
    exact sameEnd_extractn .horizontal hshape hn (SameShape.imagesAgree hshape himg)
  | extractnV =>
    obtain ⟨hshape, hn, himg⟩ := h
    exact sameEnd_extractn .vertical hshape hn (SameShape.imagesAgree hshape himg)
  | extractnD =>
    obtain ⟨hshape, hn, himg⟩ := h
    exact sameEnd_extractn .diagonal hshape hn (SameShape.imagesAgree hshape himg)

/-- Settles O50: the end of every command's body depends on what R37 marks as read. -/
theorem outcomeDependsOnOperandsOnly : Obligations.OutcomeDependsOnOperandsOnly := by
  intro i s1 s2 t1 t2 hreads hexec1 hexec2
  obtain rfl := exec_eq_next_iff.1 hexec1
  obtain rfl := exec_eq_next_iff.1 hexec2
  exact sameEnd_commandBody hreads

end Sys2Proof.Safety
end

section
/-! SUPPORT. The host's element writes and reads of `BITBUF`, `BYTEBUF` and `IMG` (20_memory R68, R79). -/

namespace Sys2Proof.Safety

open Sys2Proof.Machine

variable {s : State} {rest : List HostOp}

/-! ## Element writes -/

theorem step_writeBit {i : Nat} {b : Bit} (hidle : s.busy = false)
    (hscript : s.script = .writeBit i b :: rest) :
    step s = .next { s with script := rest, bitBuf := s.bitBuf.write i b } := by
  rw [step_idle hidle hscript]; rfl

theorem step_writeByte {j : Nat} {v : Byte} (hidle : s.busy = false)
    (hscript : s.script = .writeByte j v :: rest) :
    step s = .next { s with script := rest, byteBuf := s.byteBuf.write j v } := by
  rw [step_idle hidle hscript]; rfl

theorem step_writePixel {x y : Nat} {p : Pixel} (hidle : s.busy = false)
    (hscript : s.script = .writePixel x y p :: rest) :
    step s = .next { s with script := rest, img := s.img.pixWrite x y p } := by
  rw [step_idle hidle hscript]; rfl

/-! ## Element reads -/

theorem step_readBit {i : Nat} (hidle : s.busy = false) (hscript : s.script = .readBit i :: rest) :
    step s = .next { s with script := rest, rdata := [(readBitBuf s.bitBuf i).toNat] } := by
  rw [step_idle hidle hscript]; rfl

theorem step_readByte {j : Nat} (hidle : s.busy = false) (hscript : s.script = .readByte j :: rest) :
    step s = .next { s with script := rest, rdata := [(readByteBuf s.byteBuf j).toNat] } := by
  rw [step_idle hidle hscript]; rfl

/-- A pixel read is an access at a new moment: the counter of free values advances first (U16). -/
theorem step_readPixel {x y : Nat} (hidle : s.busy = false)
    (hscript : s.script = .readPixel x y :: rest) :
    step s = .next { s with
      script := rest
      rdata := pixelData (s.img.pixRead (s.freeCount + 1) x y)
      freeCount := s.freeCount + 1 } := by
  rw [step_idle hidle hscript]; rfl

/-! ## Plain storage -/

/-- Settles O55: each write is one `Buffer.write` or `Image.pixWrite`, so the laws of the stores say what reads back;
inside the true image the new moment of a pixel read does not matter. -/
theorem storageReadsLastWrite : Obligations.StorageReadsLastWrite := by
  refine ⟨fun s i b rest hidle hscript => ?writeBit, fun s j v rest hidle hscript => ?writeByte,
    fun s x y p rest hidle hscript hx hy => ?writePixel, fun _ _ _ => step_readBit,
    fun _ _ _ => step_readByte, fun s x y rest hidle hscript => ?readPixel⟩
  case writeBit =>
    exact ⟨_, step_writeBit hidle hscript, readBitBuf_write_same s.bitBuf i b,
      fun k hk => readBitBuf_write_other s.bitBuf b hk⟩
  case writeByte =>
    exact ⟨_, step_writeByte hidle hscript, readByteBuf_write_same s.byteBuf j v,
      fun k hk => readByteBuf_write_other s.byteBuf v hk⟩
  case writePixel =>
    exact ⟨_, step_writePixel hidle hscript,
      s.img.pixRead_pixWrite_same s.freeCount p ((s.img.has_iff x y).2 ⟨hx, hy⟩),
      fun x' y' hx' hy' hne =>
        s.img.pixRead_pixWrite_other s.freeCount p ((s.img.has_iff x' y').2 ⟨hx', hy'⟩) hne⟩
  case readPixel =>
    refine ⟨_, step_readPixel hidle hscript, rfl, fun hx hy => ?_⟩
    have hinside : s.img.has x y = true := (s.img.has_iff x y).2 ⟨hx, hy⟩
    exact congrArg pixelData (s.img.pixRead_inside (s.freeCount + 1) s.freeCount hinside)

end Sys2Proof.Safety
end

section
/-! SUPPORT. The decoder and the encoder, field by field (30_encoding R91 to R93, R95, R97): a word decodes exactly when
it is put together from the codes of an operation, a direction and a position that the operation allows. -/

namespace Sys2Proof

/-! ## The codes of the fields -/

@[simp] theorem opOfCode_codeOfOp (op : Op) : opOfCode (codeOfOp op) = some op := by cases op <;> rfl

@[simp] theorem directionOfCode_codeOfDirection (d : Direction) :
    directionOfCode (codeOfDirection d) = some d := by cases d <;> rfl

theorem codeOfOp_of_opOfCode {c : BitVec 4} {op : Op} (h : opOfCode c = some op) :
    codeOfOp op = c := by revert c op; decide

theorem codeOfDirection_of_directionOfCode {c : BitVec 2} {d : Direction}
    (h : directionOfCode c = some d) : codeOfDirection d = c := by revert c d; decide

/-- The reserved codes of `OP` are `0x0` and `0xC..0xF` (R92). -/
theorem opOfCode_eq_none_iff (c : BitVec 4) : opOfCode c = none ↔ c.toNat = 0 ∨ 12 ≤ c.toNat := by
  revert c; decide

/-- The reserved code of `DIR` is `11` (R93). -/
theorem directionOfCode_eq_none_iff (c : BitVec 2) : directionOfCode c = none ↔ c.toNat = 3 := by
  revert c; decide

/-- The operations with a direction are those of the codes `0x7..0xB` (R92). -/
theorem opUsesDir_iff (op : Op) :
    opUsesDir op = true ↔ 7 ≤ (codeOfOp op).toNat ∧ (codeOfOp op).toNat ≤ 11 := by
  cases op <;> decide

/-- The operations with a position are those of the codes `0x5` and `0x6` (R92, R95). -/
theorem opUsesPos_iff (op : Op) :
    opUsesPos op = true ↔ (codeOfOp op).toNat = 5 ∨ (codeOfOp op).toNat = 6 := by
  cases op <;> decide

/-! ## The fields of a word -/

theorem fieldOp_toNat (w : CmdWord) : (fieldOp w).toNat = w.toNat / 4096 := by
  simp only [fieldOp, BitVec.extractLsb'_toNat, Nat.shiftRight_eq_div_pow]
  omega

theorem fieldDir_toNat (w : CmdWord) : (fieldDir w).toNat = w.toNat / 1024 % 4 := by
  simp only [fieldDir, BitVec.extractLsb'_toNat, Nat.shiftRight_eq_div_pow, Nat.reducePow]

theorem fieldFmt_toNat (w : CmdWord) : (fieldFmt w).toNat = w.toNat / 512 % 2 := by
  simp only [fieldFmt, BitVec.extractLsb'_toNat, Nat.shiftRight_eq_div_pow, Nat.reducePow]

theorem fieldRsv_toNat (w : CmdWord) : (fieldRsv w).toNat = w.toNat / 8 % 64 := by
  simp only [fieldRsv, BitVec.extractLsb'_toNat, Nat.shiftRight_eq_div_pow, Nat.reducePow]

theorem fieldPos_toNat (w : CmdWord) : (fieldPos w).toNat = w.toNat % 8 := by
  simp [fieldPos]

theorem wordOfFields_toNat (op : BitVec 4) (dir : BitVec 2) (pos : BitVec 3) :
    (wordOfFields op dir pos).toNat = op.toNat * 4096 + dir.toNat * 1024 + pos.toNat := by
  revert op dir pos; decide

@[simp] theorem fieldOp_wordOfFields (op : BitVec 4) (dir : BitVec 2) (pos : BitVec 3) :
    fieldOp (wordOfFields op dir pos) = op := by
  apply BitVec.eq_of_toNat_eq
  rw [fieldOp_toNat, wordOfFields_toNat]
  omega

@[simp] theorem fieldDir_wordOfFields (op : BitVec 4) (dir : BitVec 2) (pos : BitVec 3) :
    fieldDir (wordOfFields op dir pos) = dir := by
  apply BitVec.eq_of_toNat_eq
  rw [fieldDir_toNat, wordOfFields_toNat]
  omega

@[simp] theorem fieldPos_wordOfFields (op : BitVec 4) (dir : BitVec 2) (pos : BitVec 3) :
    fieldPos (wordOfFields op dir pos) = pos := by
  apply BitVec.eq_of_toNat_eq
  rw [fieldPos_toNat, wordOfFields_toNat]
  omega

/-- A word with `FMT` and `RSV` zero is its other three fields put together (R91). -/
theorem wordOfFields_fields {w : CmdWord} (hfmt : fieldFmt w = 0) (hrsv : fieldRsv w = 0) :
    wordOfFields (fieldOp w) (fieldDir w) (fieldPos w) = w := by
  apply BitVec.eq_of_toNat_eq
  have hf : w.toNat / 512 % 2 = 0 := by rw [← fieldFmt_toNat, hfmt]; rfl
  have hr : w.toNat / 8 % 64 = 0 := by rw [← fieldRsv_toNat, hrsv]; rfl
  rw [wordOfFields_toNat, fieldOp_toNat, fieldDir_toNat, fieldPos_toNat]
  omega

/-! ## Which words decode -/

/-- The operation allows the direction and the position: a field it does not use is zero (R91). -/
structure FieldsFit (op : Op) (d : Direction) (p : BitVec 3) : Prop where
  dir : opUsesDir op = false → d = .horizontal
  pos : opUsesPos op = false → p = 0

/-- The word of an operation with its direction and position. -/
def wordOf (op : Op) (d : Direction) (p : BitVec 3) : CmdWord :=
  wordOfFields (codeOfOp op) (codeOfDirection d) p

theorem decode_wordOf {op : Op} {d : Direction} {p : BitVec 3} (h : FieldsFit op d p) :
    decode (wordOf op d p) = .instr (instrOf op d p.toNat) := by
  obtain ⟨hfmt, hrsv⟩ := Laws.FieldsClear.wordOfFields_clear (codeOfOp op) (codeOfDirection d) p
  have hdir : ¬ (opUsesDir op = false ∧ codeOfDirection d ≠ 0) := fun ⟨hno, hne⟩ =>
    hne (by rw [h.dir hno]; rfl)
  have hpos : ¬ (opUsesPos op = false ∧ p ≠ 0) := fun ⟨hno, hne⟩ => hne (h.pos hno)
  simp only [decode, wordOf, fieldOp_wordOfFields, fieldDir_wordOfFields, fieldPos_wordOfFields,
    opOfCode_codeOfOp, directionOfCode_codeOfDirection, hfmt, hrsv, ne_eq, not_true_eq_false,
    or_self, if_false, if_neg hdir, if_neg hpos]

/-- A word that decodes has passed the tests of R97: its fields are codes that fit. -/
theorem exists_fields_of_decode {w : CmdWord} {i : Instr} (h : decode w = .instr i) :
    ∃ op d p, FieldsFit op d p ∧ wordOf op d p = w ∧ instrOf op d p.toNat = i := by
  unfold decode at h
  split at h
  next => cases h
  next op hop =>
    split_ifs at h with hbits hdir hpos
    split at h
    next => cases h
    next d hd =>
      push Not at hbits hdir hpos
      have hcode := codeOfDirection_of_directionOfCode hd
      refine ⟨op, d, fieldPos w, ⟨fun hno => ?_, hpos⟩, ?_, DecodeResult.instr.inj h⟩
      · rw [hdir hno] at hd
        exact (Option.some.inj hd).symm
      · rw [wordOf, codeOfOp_of_opOfCode hop, hcode]
        exact wordOfFields_fields hbits.1 hbits.2

/-! ## Decode and encode agree -/

theorem ofNat_toNat_pos (p : BitVec 3) : BitVec.ofNat 3 p.toNat = p := by simp

/-- The encoder puts a command's word together from the codes its fields have (R91 to R93, R95). -/
theorem encode_instrOf {op : Op} {d : Direction} {p : BitVec 3} (h : FieldsFit op d p) :
    encode (instrOf op d p.toNat) = wordOf op d p := by
  obtain ⟨hdir, hpos⟩ := h
  cases op with
  | setlsb => rw [hdir rfl]; exact congrArg (wordOfFields _ _) (ofNat_toNat_pos p)
  | getlsb => rw [hdir rfl]; exact congrArg (wordOfFields _ _) (ofNat_toNat_pos p)
  | bytes2bits => rw [hdir rfl, hpos rfl]; rfl
  | text2bits => rw [hdir rfl, hpos rfl]; rfl
  | bits2bytes => rw [hdir rfl, hpos rfl]; rfl
  | bits2text => rw [hdir rfl, hpos rfl]; rfl
  | addr => rw [hpos rfl]; cases d <;> rfl
  | cap => rw [hpos rfl]; cases d <;> rfl
  | embed => rw [hpos rfl]; cases d <;> rfl
  | extract => rw [hpos rfl]; cases d <;> rfl
  | extractn => rw [hpos rfl]; cases d <;> rfl

/-- The fields of a command name a term a word can encode. -/
theorem wellFormed_instrOf (op : Op) (d : Direction) (p : BitVec 3) :
    (instrOf op d p.toNat).wellFormed = true := by
  cases op with
  | setlsb => exact decide_eq_true p.isLt
  | getlsb => exact decide_eq_true p.isLt
  | _ => cases d <;> rfl

/-- Every well-formed command is named by fields that fit. -/
theorem exists_fields_of_wellFormed {i : Instr} (h : i.wellFormed = true) :
    ∃ op d p, FieldsFit op d p ∧ instrOf op d p.toNat = i := by
  have hposition {pos : Nat} (hpos : pos < 8) : (BitVec.ofNat 3 pos).toNat = pos :=
    (BitVec.toNat_ofNat pos 3).trans (Nat.mod_eq_of_lt hpos)
  cases i with
  | setlsb pos =>
    exact ⟨.setlsb, .horizontal, .ofNat 3 pos, ⟨fun _ => rfl, nofun⟩,
      congrArg Instr.setlsb (hposition (of_decide_eq_true h))⟩
  | getlsb pos =>
    exact ⟨.getlsb, .horizontal, .ofNat 3 pos, ⟨fun _ => rfl, nofun⟩,
      congrArg Instr.getlsb (hposition (of_decide_eq_true h))⟩
  | bytes2bits => exact ⟨.bytes2bits, .horizontal, 0, ⟨fun _ => rfl, fun _ => rfl⟩, rfl⟩
  | text2bits => exact ⟨.text2bits, .horizontal, 0, ⟨fun _ => rfl, fun _ => rfl⟩, rfl⟩
  | bits2bytes => exact ⟨.bits2bytes, .horizontal, 0, ⟨fun _ => rfl, fun _ => rfl⟩, rfl⟩
  | bits2text => exact ⟨.bits2text, .horizontal, 0, ⟨fun _ => rfl, fun _ => rfl⟩, rfl⟩
  | addrH => exact ⟨.addr, .horizontal, 0, ⟨nofun, fun _ => rfl⟩, rfl⟩
  | addrV => exact ⟨.addr, .vertical, 0, ⟨nofun, fun _ => rfl⟩, rfl⟩
  | addrD => exact ⟨.addr, .diagonal, 0, ⟨nofun, fun _ => rfl⟩, rfl⟩
  | capH => exact ⟨.cap, .horizontal, 0, ⟨nofun, fun _ => rfl⟩, rfl⟩
  | capV => exact ⟨.cap, .vertical, 0, ⟨nofun, fun _ => rfl⟩, rfl⟩
  | capD => exact ⟨.cap, .diagonal, 0, ⟨nofun, fun _ => rfl⟩, rfl⟩
  | embedH => exact ⟨.embed, .horizontal, 0, ⟨nofun, fun _ => rfl⟩, rfl⟩
  | embedV => exact ⟨.embed, .vertical, 0, ⟨nofun, fun _ => rfl⟩, rfl⟩
  | embedD => exact ⟨.embed, .diagonal, 0, ⟨nofun, fun _ => rfl⟩, rfl⟩
  | extractH => exact ⟨.extract, .horizontal, 0, ⟨nofun, fun _ => rfl⟩, rfl⟩
  | extractV => exact ⟨.extract, .vertical, 0, ⟨nofun, fun _ => rfl⟩, rfl⟩
  | extractD => exact ⟨.extract, .diagonal, 0, ⟨nofun, fun _ => rfl⟩, rfl⟩
  | extractnH => exact ⟨.extractn, .horizontal, 0, ⟨nofun, fun _ => rfl⟩, rfl⟩
  | extractnV => exact ⟨.extractn, .vertical, 0, ⟨nofun, fun _ => rfl⟩, rfl⟩
  | extractnD => exact ⟨.extractn, .diagonal, 0, ⟨nofun, fun _ => rfl⟩, rfl⟩

/-- Settles O1: the encoder's word of a command has the command's fields, and those decode to it. -/
theorem encodedCommandsDecodeBack : Obligations.EncodedCommandsDecodeBack := by
  intro i hwf
  obtain ⟨op, d, p, hfit, rfl⟩ := exists_fields_of_wellFormed hwf
  rw [encode_instrOf hfit]
  exact decode_wordOf hfit

/-- Settles O2: a word that decodes is made of fields that fit, which the encoder puts together again. -/
theorem decodedWordsReencode : Obligations.DecodedWordsReencode := by
  intro w i hdecode
  obtain ⟨op, d, p, hfit, rfl, rfl⟩ := exists_fields_of_decode hdecode
  exact ⟨wellFormed_instrOf op d p, encode_instrOf hfit⟩

/-- Settles O3: the legal words are the encoder's words of their commands; the others fail tests 5, 3 and 1. -/
theorem sampleWordsDecode : Obligations.SampleWordsDecode :=
  ⟨encodedCommandsDecodeBack .bytes2bits rfl, encodedCommandsDecodeBack (.setlsb 3) rfl,
    encodedCommandsDecodeBack .addrD rfl, encodedCommandsDecodeBack .capV rfl,
    encodedCommandsDecodeBack .embedH rfl, encodedCommandsDecodeBack .extractV rfl,
    encodedCommandsDecodeBack .extractnD rfl, by decide, by decide, by decide⟩

end Sys2Proof
end

section
/-! SUPPORT. What a write of any word to `CMD` does (30_encoding R97): the tests of R97 on the word as a number, and
the three ways the write can end. -/

namespace Sys2Proof.Safety

open Sys2Proof.Machine

/-- The word fails one of the tests 1 to 5 of R97. -/
def FailsFieldTest (w : Nat) : Prop :=
  w / 4096 = 0 ∨ 12 ≤ w / 4096 ∨ w / 512 % 2 ≠ 0 ∨ w / 8 % 64 ≠ 0 ∨
    (¬ (7 ≤ w / 4096 ∧ w / 4096 ≤ 11) ∧ w / 1024 % 4 ≠ 0) ∨
    (¬ (w / 4096 = 5 ∨ w / 4096 = 6) ∧ w % 8 ≠ 0) ∨
    ((7 ≤ w / 4096 ∧ w / 4096 ≤ 11) ∧ w / 1024 % 4 = 3)

/-- Fields that fit make a word that passes the tests 1 to 5. -/
theorem not_failsFieldTest_wordOf {op : Op} {d : Direction} {p : BitVec 3} (h : FieldsFit op d p) :
    ¬ FailsFieldTest (wordOf op d p).toNat := by
  have hop : ¬ ((codeOfOp op).toNat = 0 ∨ 12 ≤ (codeOfOp op).toNat) := by
    rw [← opOfCode_eq_none_iff, opOfCode_codeOfOp]
    exact Option.some_ne_none op
  have hd : (codeOfDirection d).toNat ≠ 3 := by
    rw [ne_eq, ← directionOfCode_eq_none_iff, directionOfCode_codeOfDirection]
    exact Option.some_ne_none d
  have hdir : ¬ (7 ≤ (codeOfOp op).toNat ∧ (codeOfOp op).toNat ≤ 11) →
      (codeOfDirection d).toNat = 0 := fun hno => by
    rw [h.dir (Bool.eq_false_of_not_eq_true (mt (opUsesDir_iff op).1 hno))]
    rfl
  have hpos : ¬ ((codeOfOp op).toNat = 5 ∨ (codeOfOp op).toNat = 6) → p.toNat = 0 := fun hno => by
    rw [h.pos (Bool.eq_false_of_not_eq_true (mt (opUsesPos_iff op).1 hno))]
    rfl
  have hlast : p.toNat < 8 := p.isLt
  have hword : (wordOf op d p).toNat =
      (codeOfOp op).toNat * 4096 + (codeOfDirection d).toNat * 1024 + p.toNat :=
    wordOfFields_toNat _ _ _
  unfold FailsFieldTest
  omega

/-- A word that passes the tests 1 to 5 is made of fields that fit. -/
theorem exists_fields_of_not_failsFieldTest {w : CmdWord} (h : ¬ FailsFieldTest w.toNat) :
    ∃ op d p, FieldsFit op d p ∧ wordOf op d p = w := by
  unfold FailsFieldTest at h
  have hop := fieldOp_toNat w
  have hdir := fieldDir_toNat w
  have hpos := fieldPos_toNat w
  have hfmt : fieldFmt w = 0 := BitVec.eq_of_toNat_eq (show _ = 0 by rw [fieldFmt_toNat]; omega)
  have hrsv : fieldRsv w = 0 := BitVec.eq_of_toNat_eq (show _ = 0 by rw [fieldRsv_toNat]; omega)
  obtain ⟨op, hcode⟩ := Option.ne_none_iff_exists'.1
    (mt (opOfCode_eq_none_iff (fieldOp w)).1 (by omega))
  obtain ⟨d, hd⟩ := Option.ne_none_iff_exists'.1
    (mt (directionOfCode_eq_none_iff (fieldDir w)).1 (by omega))
  have hcodeOp := codeOfOp_of_opOfCode hcode
  have hcodeDir := codeOfDirection_of_directionOfCode hd
  refine ⟨op, d, fieldPos w, ⟨fun hno => ?_, fun hno => ?_⟩, ?_⟩
  · have hnot := mt (opUsesDir_iff op).2 (Bool.not_eq_true _ ▸ hno)
    rw [hcodeOp] at hnot
    have hzero : fieldDir w = 0 := BitVec.eq_of_toNat_eq (show _ = 0 by omega)
    rw [hzero] at hd
    exact (Option.some.inj hd).symm
  · have hnot := mt (opUsesPos_iff op).2 (Bool.not_eq_true _ ▸ hno)
    rw [hcodeOp] at hnot
    exact BitVec.eq_of_toNat_eq (show _ = 0 by omega)
  · rw [wordOf, hcodeOp, hcodeDir]
    exact wordOfFields_fields hfmt hrsv

theorem wordOf_toNat_mod (op : Op) (d : Direction) (p : BitVec 3) :
    (wordOf op d p).toNat % 8 = p.toNat := by
  rw [← fieldPos_toNat, wordOf, fieldPos_wordOfFields]

/-- Only `SETLSB` and `GETLSB` take a position, and they refuse any but `0` (R95, test 6 of R97). -/
theorem exec_position_refused {op : Op} {d : Direction} {p : BitVec 3} (h : FieldsFit op d p)
    (hp : p ≠ 0) (s : State) :
    exec (instrOf op d p.toNat) s = .next (raise .invalidPosition 0 (startCommand s)) := by
  have hp0 : p.toNat ≠ 0 := fun h0 => hp (BitVec.eq_of_toNat_eq h0)
  cases op with
  | setlsb =>
    show Host.Outcome.next (setlsbBody p.toNat (startCommand s)) = _
    rcases setlsbBody_cases p.toNat s with ⟨-, heq⟩ | ⟨h0, -⟩ | ⟨h0, -⟩ | ⟨h0, -⟩
    · rw [heq]
    all_goals exact absurd h0 hp0
  | getlsb =>
    show Host.Outcome.next (getlsbBody p.toNat (startCommand s)) = _
    rcases getlsbBody_cases p.toNat s with ⟨-, heq⟩ | ⟨h0, -⟩ | ⟨h0, -⟩
    · rw [heq]
    all_goals exact absurd h0 hp0
  | _ => exact absurd (h.pos rfl) hp

/-- Without a position the words that decode are the 21 of R92. -/
theorem wordOf_mem_legalWords {op : Op} {d : Direction} (h : FieldsFit op d 0) :
    (wordOf op d 0).toNat ∈ legalWords := by
  obtain ⟨hdir, -⟩ := h
  cases op with
  | addr => cases d <;> decide
  | cap => cases d <;> decide
  | embed => cases d <;> decide
  | extract => cases d <;> decide
  | extractn => cases d <;> decide
  | _ => rw [hdir rfl]; decide

/-! ## The three ways the write ends -/

theorem issue_failing_fieldTest {w : CmdWord} (h : FailsFieldTest w.toNat) (s : State) :
    ∃ t, issue w s = .next t ∧ EndsInError t 5 0 ∧ FrameExcept [] { s with cmd := w } t := by
  rcases hdecode : decode w with i | e
  · obtain ⟨op, d, p, hfit, rfl, -⟩ := exists_fields_of_decode hdecode
    exact absurd h (not_failsFieldTest_wordOf hfit)
  · exact issue_refused hdecode s

theorem issue_with_position {w : CmdWord} (h : ¬ FailsFieldTest w.toNat) (hne : w.toNat % 8 ≠ 0)
    (s : State) :
    ∃ t, issue w s = .next t ∧ EndsInError t 4 0 ∧ FrameExcept [] { s with cmd := w } t := by
  obtain ⟨op, d, p, hfit, rfl⟩ := exists_fields_of_not_failsFieldTest h
  have hp : p ≠ 0 := fun h0 => hne ((wordOf_toNat_mod op d p).trans (congrArg BitVec.toNat h0))
  refine ⟨_, (issue_decoded (decode_wordOf hfit) s).trans (exec_position_refused hfit hp _), ?_,
    (frameExcept_startCommand _ _).trans (frameExcept_raise _ _ _ _)⟩
  exact ⟨by simp [statusWord], rfl, rfl, rfl⟩

theorem issue_legal {w : CmdWord} (h : ¬ FailsFieldTest w.toNat) (h0 : w.toNat % 8 = 0) (s : State) :
    w.toNat ∈ legalWords ∧ ∃ i, decode w = .instr i ∧ issue w s = exec i { s with cmd := w } := by
  obtain ⟨op, d, p, hfit, rfl⟩ := exists_fields_of_not_failsFieldTest h
  obtain rfl : p = 0 := BitVec.eq_of_toNat_eq ((wordOf_toNat_mod op d p).symm.trans h0)
  exact ⟨wordOf_mem_legalWords hfit, _, decode_wordOf hfit, issue_decoded (decode_wordOf hfit) s⟩

/-- Settles O4: the tests 1 to 5 leave the words whose fields fit; among these the command itself refuses a position
that is not `0`, and the others are the legal words. -/
theorem decodeTestsDecideTheWord : Obligations.DecodeTestsDecideTheWord := fun _ s =>
  ⟨fun hfail => issue_failing_fieldTest hfail s,
    fun ⟨hpass, hne⟩ => issue_with_position hpass hne s,
    fun ⟨hpass, h0⟩ => issue_legal hpass h0 s⟩

end Sys2Proof.Safety
end

section
/-! SUPPORT. The host's loads of `BITBUF`, `BYTEBUF` and `IMG` (30_encoding R101). -/

namespace Sys2Proof.Safety

open Sys2Proof.Machine

variable {s : State} {rest : List HostOp}

theorem step_loadBits {bits : List Bit} (hidle : s.busy = false)
    (hscript : s.script = .loadBits bits :: rest) :
    step s = .next (hostLoadBits bits { s with script := rest }) := by
  rw [step_idle hidle hscript]; rfl

theorem step_loadBytes {bytes : List Byte} (hidle : s.busy = false)
    (hscript : s.script = .loadBytes bytes :: rest) :
    step s = .next (hostLoadBytes bytes { s with script := rest }) := by
  rw [step_idle hidle hscript]; rfl

theorem step_loadImage {w h : Nat} {bytes : List Byte} (hidle : s.busy = false)
    (hscript : s.script = .loadImage w h bytes :: rest) :
    step s = .next (hostLoadImage w h bytes { s with script := rest }) := by
  rw [step_idle hidle hscript]; rfl

/-- A list stored from index 0 reads back element by element. -/
theorem get?_setList_zero {α : Type} (m : Memory α) (vs : List α) (default : α) {k : Nat}
    (hk : k < vs.length) :
    Memory.get? (Memory.setList m 0 vs) k = some (vs.getD k default) := by
  rw [Memory.get?_setList, if_pos ⟨k.zero_le, by omega⟩, Nat.sub_zero, List.getD_eq_getElem _ _ hk,
    List.getElem?_eq_getElem hk]

theorem readBitBuf_hostLoadBits (s : State) {bits : List Bit} {k : Nat} (hk : k < bits.length) :
    readBitBuf (hostLoadBits bits s).bitBuf k = bits.getD k false := by
  simp only [readBitBuf, hostLoadBits, get?_setList_zero _ _ false hk, Option.getD_some]

theorem readByteBuf_hostLoadBytes (s : State) {bytes : List Byte} {k : Nat} (hk : k < bytes.length) :
    readByteBuf (hostLoadBytes bytes s).byteBuf k = bytes.getD k 0 := by
  simp only [readByteBuf, hostLoadBytes, get?_setList_zero _ _ 0 hk, Option.getD_some]

/-- Every channel byte of an attached image whose list is complete (log entry 17: row by row). -/
theorem readByte_attach {w h : Nat} {bytes : List Byte} (hlen : bytes.length = 3 * w * h)
    (stamp count : Nat) {x y c : Nat} (hx : x < w) (hy : y < h) (hc : c < 3) :
    (Image.attach stamp w h bytes).readByte count x y c = bytes.getD (3 * (y * w + x) + c) 0 := by
  have hhas : (Image.attach stamp w h bytes).has x y = true := (Image.has_iff _ x y).2 ⟨hx, hy⟩
  have hkey : 3 * (y * w + x) + c < bytes.length :=
    hlen ▸ imageKey_lt (Image.attach stamp w h bytes) hx hy hc
  rw [Image.readByte, if_pos hhas]
  simp only [Image.attach, imageKey, ← hlen, List.take_length, Memory.get?_ofList, Nat.zero_le,
    if_true, Nat.sub_zero, List.getElem?_eq_getElem hkey, Option.getD_some,
    List.getD_eq_getElem _ _ hkey]

/-- Settles O56: the stores hold the lists element by element, and the lengths and the shape fit their registers. -/
theorem loadsFillTheMemories : Obligations.LoadsFillTheMemories := by
  refine ⟨fun s bits rest hidle hscript hlen => ?bits, fun s bytes rest hidle hscript hlen => ?bytes,
    fun s w h bytes rest hidle hscript hw hh hlen => ?image⟩
  case bits =>
    exact ⟨_, step_loadBits hidle hscript, Nat.mod_eq_of_lt hlen,
      fun k hk => readBitBuf_hostLoadBits _ hk⟩
  case bytes =>
    exact ⟨_, step_loadBytes hidle hscript, Nat.mod_eq_of_lt hlen,
      fun k hk => readByteBuf_hostLoadBytes _ hk⟩
  case image =>
    have hregW : w % 2 ^ s.dimBits = w := Nat.mod_eq_of_lt hw
    have hregH : h % 2 ^ s.dimBits = h := Nat.mod_eq_of_lt hh
    refine ⟨_, step_loadImage hidle hscript, hregW, hregH, ⟨hregW.le, hregH.le⟩,
      fun x hx y hy c hc => ?_⟩
    rw [imgByte, State.pixRead, channelOf_pixRead _ _ _ _ hc]
    exact readByte_attach hlen _ _ hx hy hc

end Sys2Proof.Safety
end

section
/-! SUPPORT. A payload on its way through the image (30_encoding R102): what the bits, the image and the bytes hold after
each of `BYTES2BITS`, `EMBED`, `EXTRACTN` and `BITS2BYTES` (40 R121, R123, 43 R175, 44 R202). -/

namespace Sys2Proof.Safety

open Sys2Proof.Machine

variable {s t : State} {d : Direction}

/-! ## The bits an `EMBED` leaves in the image -/

/-- Two offsets below the capacity that select one pixel are equal (R158). -/
theorem addr_pixel_inj {i j w h : Nat} (hi : i < cap d w h) (hj : j < cap d w h)
    (hx : (addr d i w h).x = (addr d j w h).x) (hy : (addr d i w h).y = (addr d j w h).y) : i = j := by
  cases d with
  | horizontal =>
    calc i = w * (i / w) + i % w := (Nat.div_add_mod i w).symm
      _ = w * (j / w) + j % w := congrArg₂ (w * · + ·) hy hx
      _ = j := Nat.div_add_mod j w
  | vertical =>
    calc i = h * (i / h) + i % h := (Nat.div_add_mod i h).symm
      _ = h * (j / h) + j % h := congrArg₂ (h * · + ·) hx hy
      _ = j := Nat.div_add_mod j h
  | diagonal => exact hx

/-- The pixel of an offset below the capacity is there when the registers do not overstate the shape (R272). -/
theorem ShapeHonest.has_addr (hs : ShapeHonest s) {i : Nat} (hi : i < s.cap d) :
    s.img.has (s.addr d i).x (s.addr d i).y = true := by
  obtain ⟨hx, hy, -⟩ := addr_lt d hi
  exact hs.has hx hy

theorem ShapeHonest.of_sameButWork (hs : ShapeHonest s) (h : SameButWork s t) :
    ShapeHonest t := by
  simpa only [ShapeHonest, h.imgW, h.imgH, h.imgWidth, h.imgHeight] using hs

/-- A bit step of `EMBED` puts the current bit in the LSB at its offset (R173). -/
theorem lsbAt_embedBitStep_same (hs : ShapeHonest s) (hcap : s.offs < s.cap d) :
    lsbAt d (embedBitStep d s) s.offs = readBitBuf s.bitBuf s.offs := by
  have hsame := sameButWork_embedBitStep d s
  simp only [lsbAt, hsame.addr, State.pixRead, embedBitStep_img,
    Image.pixRead_pixWrite_same _ _ _ (hs.has_addr hcap), embeddedPixel,
    channelOf_withChannel_same, getLsb_setLsb]

/-- A bit step of `EMBED` leaves the LSB at every other offset alone: it writes another pixel (R158). -/
theorem lsbAt_embedBitStep_other (hs : ShapeHonest s) (hcap : s.offs < s.cap d) {i : Nat}
    (hi : i < s.cap d) (hne : i ≠ s.offs) : lsbAt d (embedBitStep d s) i = lsbAt d s i := by
  have hsame := sameButWork_embedBitStep d s
  have hpixel : ((s.addr d i).x, (s.addr d i).y) ≠ ((s.addr d s.offs).x, (s.addr d s.offs).y) := by
    intro heq
    obtain ⟨hx, hy⟩ := Prod.mk.inj heq
    exact hne (addr_pixel_inj hi hcap hx hy)
  simp only [lsbAt, hsame.addr, State.pixRead, embedBitStep_img, hsame.freeCount,
    Image.pixRead_pixWrite_other _ _ _ (hs.has_addr hi) hpixel]

/-- After `k` bit steps the LSBs at the first `k` offsets are the first `k` bits of `BITBUF`. -/
theorem embed_lsbAt (hs : ShapeHonest s) (k : Nat) (hk : k ≤ s.cap d) {i : Nat} (hi : i < k) :
    lsbAt d ((embedBitStep d)^[k] (embedBegin s)) i = readBitBuf s.bitBuf i := by
  induction k with
  | zero => omega
  | succ k ih =>
    have hsame := embed_same d k s
    have hhonest : ShapeHonest ((embedBitStep d)^[k] (embedBegin s)) :=
      ShapeHonest.of_sameButWork (s := embedBegin s) hs hsame
    have hcap : ((embedBitStep d)^[k] (embedBegin s)).cap d = s.cap d := hsame.cap d
    have hoffs := embed_offs d k s
    rw [Function.iterate_succ_apply']
    by_cases hik : i = k
    · have hstep := lsbAt_embedBitStep_same hhonest (d := d) (by omega)
      rw [hoffs, embedBitStep_iterate_bitBuf] at hstep
      rw [hik]
      exact hstep
    · rw [lsbAt_embedBitStep_other hhonest (by omega) (by omega) (by omega)]
      exact ih (by omega) (by omega)

/-! ## What each command leaves -/

/-- A command keeps the shape registers (R37), and so the capacity and the shape a direction asks for. -/
theorem sameShape_of_frame {w : List Place} (h : FrameExcept w s t) : SameShape s t :=
  ⟨h.1.imgW.symm, h.1.imgH.symm⟩

theorem SameShape.shapeOk (h : SameShape s t) (hshape : ShapeOk d s) : ShapeOk d t := fun hd =>
  h.1.symm.trans ((hshape hd).trans h.2)

theorem shapeMismatch_eq_false (h : ShapeOk d s) : shapeMismatch d s.imgW s.imgH = false := by
  cases d with
  | horizontal => rfl
  | vertical => rfl
  | diagonal => simp [shapeMismatch, h rfl]

/-- `BYTES2BITS` of a length that fits leaves the bits of the bytes, MSB first (R121). -/
theorem bytesToBits_produces (hfit : 8 * s.bytelen < 2 ^ (2 * s.dimBits)) :
    (bytesToBitsBody (startCommand s)).bitlen = 8 * s.bytelen ∧
      ∀ j < s.bytelen, ∀ k < 8, readBitBuf (bytesToBitsBody (startCommand s)).bitBuf (8 * j + k) =
        (readByteBuf s.byteBuf j).getLsbD (7 - k) := by
  rcases bytesToBitsBody_cases s with ⟨hover, -⟩ | ⟨-, heq⟩
  · exact absurd hfit (Nat.not_lt.2 hover)
  · rw [heq]
    refine ⟨rfl, fun j hj k hk => ?_⟩
    have hj' : j < (startCommand s).bytes.length := by rwa [bytes_length]
    refine (readBitBuf_expanded _ _ hj' hk).trans ?_
    simp [State.bytes]

/-- `EMBED` past its checks leaves the payload in the LSBs at the first `BITLEN` offsets, and the image's shape as it
was (R175). -/
theorem embed_leaves_payload (hshape : ShapeOk d s) (hs : ShapeHonest s) (hroom : s.bitlen ≤ s.cap d) :
    ShapeHonest (embedBody d (startCommand s)) ∧
      ∀ k < s.bitlen, stream d (embedBody d (startCommand s)) k = readBitBuf s.bitBuf k := by
  have hcheck := embedCheck_none.2 ⟨shapeMismatch_eq_false hshape, hroom⟩
  rcases embedBody_cases d s with ⟨e, info, hfail, -⟩ | ⟨-, heq⟩
  · rw [hcheck] at hfail; cases hfail
  · have hhonest : ShapeHonest ((embedBitStep d)^[s.bitlen] (embedBegin s)) :=
      ShapeHonest.of_sameButWork (s := embedBegin s) hs (embed_same d s.bitlen s)
    rw [heq]
    exact ⟨hhonest, fun k hk => embed_lsbAt hs s.bitlen hroom hk⟩

/-- `EXTRACTN` past its checks leaves the first `NWIN` elements of the stream (R202). -/
theorem extractn_reads_stream (hshape : ShapeOk d s) (hs : ShapeHonest s) (hroom : s.nwin ≤ s.cap d) :
    HoldsPrefix (extractnBody d (startCommand s)) (stream d s) s.nwin := by
  have hcheck := extractnCheck_none.2 ⟨shapeMismatch_eq_false hshape, hroom⟩
  rcases extractnBody_cases d s with ⟨e, info, hfail, -⟩ | ⟨-, heq⟩
  · rw [hcheck] at hfail; cases hfail
  · rw [heq]
    refine ⟨(extractn_same d s.nwin s).nwin, fun i hi => ?_⟩
    rw [extractnFinish_read d s hi]
    exact hs.lsbAt_startCommand (hi.trans_le hroom)

/-- `BITS2BYTES` of whole bytes leaves bytes whose bits are the sequence's (R123). -/
theorem bitsToBytes_produces {m : Nat} (hlen : s.bitlen = 8 * m) :
    (bitsToBytesBody (startCommand s)).bytelen = m ∧
      ∀ j < m, ∀ k < 8, (readByteBuf (bitsToBytesBody (startCommand s)).byteBuf j).getLsbD (7 - k) =
        readBitBuf s.bitBuf (8 * j + k) := by
  have hceil : ceil8 s.bitlen = m := by unfold ceil8; omega
  refine ⟨hceil, fun j hj k hk => ?_⟩
  calc (readByteBuf (bitsToBytesBody (startCommand s)).byteBuf j).getLsbD (7 - k)
      = (byteAt (startCommand s).bits j).getLsbD (7 - k) :=
        congrArg (·.getLsbD (7 - k)) (readByteBuf_packed _ _ _ (hceil.symm ▸ hj))
    _ = (startCommand s).bits.getD (8 * j + k) false := byteAt_getLsbD _ j k hk
    _ = readBitBuf s.bitBuf (8 * j + k) := by
      rw [bits_getD, if_pos (by rw [startCommand_bitlen]; omega), startCommand_bitBuf]

/-! ## The round trip -/

/-- The payload written: after `BYTES2BITS` and `EMBED` the stream of the image is the bits of the bytes. -/
theorem payload_written (hshape : ShapeOk d s) (hs : ShapeHonest s) (hroom : 8 * s.bytelen ≤ s.cap d)
    (hfit : 8 * s.bytelen < 2 ^ (2 * s.dimBits)) {t u : State}
    (ht : t = bytesToBitsBody (startCommand s)) (hu : u = embedBody d (startCommand t)) :
    SameShape s u ∧ ShapeHonest u ∧ ∀ j < s.bytelen, ∀ k < 8,
      stream d u (8 * j + k) = (readByteBuf s.byteBuf j).getLsbD (7 - k) := by
  have hframe1 : FrameExcept [.bitlen, .bitbuf] s t :=
    ht ▸ (frameExcept_startCommand _ s).trans (frameExcept_bytesToBitsBody _)
  have hframe2 : FrameExcept [.img] t u :=
    hu ▸ (frameExcept_startCommand _ t).trans (frameExcept_embedBody d _)
  obtain ⟨hw1, hh1⟩ := sameShape_of_frame hframe1
  obtain ⟨hw2, hh2⟩ := sameShape_of_frame hframe2
  have himg : t.img = s.img := hframe1.2 .img (by decide)
  have hhonest1 : ShapeHonest t := by simpa only [ShapeHonest, ← hw1, ← hh1, himg] using hs
  obtain ⟨hlen, hbits⟩ := ht ▸ bytesToBits_produces hfit
  obtain ⟨hhonest2, hstream⟩ := hu ▸ embed_leaves_payload (SameShape.shapeOk ⟨hw1, hh1⟩ hshape)
    hhonest1 (by rwa [hlen, ← SameShape.cap ⟨hw1, hh1⟩])
  refine ⟨⟨hw1.trans hw2, hh1.trans hh2⟩, hhonest2, fun j hj k hk => ?_⟩
  exact (hstream _ (by omega)).trans (hbits j hj k hk)

/-- The payload read: `EXTRACTN` of whole bytes and `BITS2BYTES` give bytes whose bits are the stream's. -/
theorem payload_read {m : Nat} (hshape : ShapeOk d s) (hs : ShapeHonest s) (hn : s.nwin = 8 * m)
    (hroom : s.nwin ≤ s.cap d) {t u : State} (ht : t = extractnBody d (startCommand s))
    (hu : u = bitsToBytesBody (startCommand t)) :
    u.bytelen = m ∧ ∀ j < m, ∀ k < 8,
      (readByteBuf u.byteBuf j).getLsbD (7 - k) = stream d s (8 * j + k) := by
  obtain ⟨hlen, hbits⟩ := ht ▸ extractn_reads_stream hshape hs hroom
  obtain ⟨hbytelen, hbytes⟩ := hu ▸ bitsToBytes_produces (hlen.trans hn)
  exact ⟨hbytelen, fun j hj k hk => (hbytes j hj k hk).trans (hbits _ (by omega))⟩

theorem exec_of_embedExtractPairs {e x : Instr} (h : (e, x, d) ∈ embedExtractPairs) (s : State) :
    exec e s = .next (embedBody d (startCommand s)) ∧
      exec x s = .next (extractnBody d (startCommand s)) := by
  simp only [List.mem_cons, Prod.mk.injEq, List.not_mem_nil, or_false] at h
  rcases h with ⟨rfl, rfl, rfl⟩ | ⟨rfl, rfl, rfl⟩ | ⟨rfl, rfl, rfl⟩ <;> exact ⟨rfl, rfl⟩

/-- Settles O34: every bit of the payload is in turn an element of the bit sequence, an LSB of the image, an element of
the extracted sequence and a bit of the same byte. -/
theorem payloadSurvivesEmbedding : Obligations.PayloadSurvivesEmbedding := by
  intro e x d s hpair hshape hs hroom hfit
  obtain ⟨hsame, hhonest, hwritten⟩ := payload_written hshape hs hroom hfit rfl rfl
  obtain ⟨hlen, hread⟩ := payload_read
    (s := { embedBody d (startCommand (bytesToBitsBody (startCommand s))) with
      nwin := 8 * s.bytelen, bitlen := 0, bitBuf := State.reset.bitBuf
      bytelen := 0, byteBuf := State.reset.byteBuf })
    (hsame.shapeOk hshape) hhonest rfl (hroom.trans_eq (hsame.cap d)) rfl rfl
  refine ⟨_, _, _, _, rfl, (exec_of_embedExtractPairs hpair _).1, (exec_of_embedExtractPairs hpair _).2,
    rfl, hlen, fun j hj => byte_ext fun k hk => ?_⟩
  exact (hread j hj k hk).trans (hwritten j hj k hk)

end Sys2Proof.Safety
end

section
/-! SUPPORT. The bit_sequence_generator (40_bit_sequence_generator R121 to R126): what the four conversions leave, in
terms of the sequences before them, and the round trips made of two of them. -/

namespace Sys2Proof.Safety

open Sys2Proof.Machine

variable {s : State}

/-! ## The end of a command without bit steps -/

theorem endsDone_complete (h : NoErrorYet s) (empty term : Bool) :
    EndsDone (complete empty term s) empty term := by
  obtain ⟨hcode, hinfo⟩ := h
  refine ⟨?_, hcode, hinfo, rfl⟩
  cases empty <;> cases term <;> rfl

theorem workingCleared_startCommand (s : State) : WorkingCleared (startCommand s) :=
  ⟨rfl, rfl, rfl, rfl, rfl, rfl, rfl⟩

/-- A command whose checks raise an error fails with it and has no other effect (R230). -/
theorem failsWith_of_raise {i : Instr} {e : ErrorKind} {info : Nat}
    (h : commandBody i (startCommand s) = raise e info (startCommand s)) :
    FailsWith i s (codeOfError e) (errorInfo e info) :=
  ⟨_, exec_eq_next_iff.2 h, ⟨rfl, rfl, rfl, rfl⟩, workingCleared_startCommand s,
    (frameExcept_startCommand _ _).trans (frameExcept_raise _ _ _ _)⟩

/-! ## Bytes to bits -/

theorem commandBody_of_mem_bytesToBits {i : Instr} (h : i ∈ [Instr.bytes2bits, Instr.text2bits]) :
    commandBody i = bytesToBitsBody ∧ writeSet i = [.bitlen, .bitbuf] := by
  simp only [List.mem_cons, List.not_mem_nil, or_false] at h
  rcases h with rfl | rfl <;> exact ⟨rfl, rfl⟩

/-- Settles O16: both commands are `bytesToBitsBody`, which either refuses the length or expands the bytes. -/
theorem bytesToBitsResult : Obligations.BytesToBitsResult := by
  refine ⟨by decide, by decide, fun i s hi => ?_⟩
  obtain ⟨hbody, hwrites⟩ := commandBody_of_mem_bytesToBits hi
  rcases bytesToBitsBody_cases s with ⟨hover, heq⟩ | ⟨hfits, heq⟩
  · exact ⟨fun hfits => absurd hfits (Nat.not_lt.2 hover),
      fun _ => failsWith_of_raise (hbody ▸ heq)⟩
  · refine ⟨fun _ => ?_, fun hover => absurd hfits (Nat.not_lt.2 hover)⟩
    have hexec : exec i s = .next (bytesToBitsBody (startCommand s)) := hbody ▸ exec_eq_commandBody i s
    refine ⟨_, hexec, ?_, ?_, hwrites ▸ commandsWriteOnlyTheirTargets i s _ hexec,
      bytesToBits_produces hfits⟩
    · exact heq ▸ endsDone_complete (noErrorYet_startCommand s) false false
    · exact heq ▸ workingCleared_startCommand s

/-! ## Bits to bytes -/

/-- A bit of a byte packed from the current bit sequence, zero past the end of the sequence (R123). -/
theorem packedByte_getLsbD (stamp m : Nat) (s : State) {j k : Nat} (hj : j < m) (hk : k < 8) :
    (readByteBuf (Buffer.produced stamp (bytesOfBits m s.bits)) j).getLsbD (7 - k) =
      if 8 * j + k < s.bitlen then readBitBuf s.bitBuf (8 * j + k) else false := by
  rw [readByteBuf_packed stamp m s.bits hj, byteAt_getLsbD _ _ _ hk, bits_getD]

/-- Settles O17: a bit past the end of the sequence is the zero the packing pads with. -/
theorem bitsToBytesResult : Obligations.BitsToBytesResult := by
  refine ⟨by decide, fun s => ?_⟩
  exact ⟨_, rfl, endsDone_complete (noErrorYet_startCommand s) false false, workingCleared_startCommand s,
    commandsWriteOnlyTheirTargets .bits2bytes s _ rfl, rfl,
    fun _ hj _ hk => packedByte_getLsbD _ _ (startCommand s) hj hk⟩

/-- Settles O18: none of the bits of the `floor8(BITLEN)` bytes is past the end of the sequence. -/
theorem bitsToTextResult : Obligations.BitsToTextResult := by
  refine ⟨by decide, fun s => ?_⟩
  refine ⟨_, rfl, endsDone_complete (noErrorYet_startCommand s) false false, workingCleared_startCommand s,
    commandsWriteOnlyTheirTargets .bits2text s _ rfl, rfl, fun j hj k hk => ?_⟩
  exact (packedByte_getLsbD _ _ (startCommand s) hj hk).trans
    (if_pos (show 8 * j + k < s.bitlen by omega))

/-! ## The round trip -/

/-- On a sequence of whole bytes both decodings give those bytes (R126). -/
theorem decoding_of_wholeBytes {c : Instr} (hc : c ∈ [Instr.bits2bytes, Instr.bits2text]) {m : Nat}
    (hlen : s.bitlen = 8 * m) :
    ∃ u, exec c s = .next u ∧ u.bytelen = m ∧ ∀ j < m, ∀ k < 8,
      (readByteBuf u.byteBuf j).getLsbD (7 - k) = readBitBuf s.bitBuf (8 * j + k) := by
  simp only [List.mem_cons, List.not_mem_nil, or_false] at hc
  rcases hc with rfl | rfl
  · exact ⟨_, rfl, bitsToBytes_produces hlen⟩
  · obtain ⟨u, hexec, -, -, -, hbytelen, hbytes⟩ := bitsToTextResult.2 s
    have hfloor : s.bitlen / 8 = m := by omega
    exact ⟨u, hexec, hbytelen.trans hfloor, hfloor ▸ hbytes⟩

/-- Settles O19: each bit of a byte is in turn an element of the bit sequence and the same bit of the byte read
back. -/
theorem bytesSurviveRoundTrip : Obligations.BytesSurviveRoundTrip := by
  intro c1 c2 s hc1 hc2 hfits
  obtain ⟨t, ht, -, -, -, hbitlen, hbits⟩ := (bytesToBitsResult.2.2 c1 s hc1).1 hfits
  obtain ⟨u, hu, hbytelen, hbytes⟩ := decoding_of_wholeBytes
    (s := { t with bytelen := 0, byteBuf := State.reset.byteBuf }) hc2 hbitlen
  refine ⟨t, u, ht, hu, hbytelen, fun j hj => byte_ext fun k hk => ?_⟩
  exact (hbytes j hj k hk).trans (hbits j hj k hk)

/-! ## The ragged tail -/

/-- Settles O20: the two commands differ only where `BITS2BYTES` has a byte that reaches past the end of the
sequence. -/
theorem decodingsDifferOnRaggedTail : Obligations.DecodingsDifferOnRaggedTail := by
  intro s
  obtain ⟨t, ht, -, -, -, htlen, htbits⟩ := bitsToBytesResult.2 s
  obtain ⟨u, hu, -, -, -, hulen, hubits⟩ := bitsToTextResult.2 s
  refine ⟨t, u, ht, hu, fun j hj => byte_ext fun k hk => ?_, fun hwhole => by omega,
    fun hragged => ⟨by omega, fun k hk => ?_⟩⟩
  · rw [htbits j (by omega) k hk, if_pos (by omega), hubits j (by omega) k hk]
  · have hbase : 8 * u.bytelen = s.bitlen - s.bitlen % 8 := by omega
    have hinside : 8 * u.bytelen + k < s.bitlen ↔ k < s.bitlen % 8 := by omega
    rw [htbits u.bytelen (by omega) k hk, if_congr hinside rfl rfl, hbase]

end Sys2Proof.Safety
end

section
/-! SUPPORT. The channel_bit_packer (41_channel_bit_packer R141 to R143): the laws of `setLsb` and `getLsb` from what
each does to the byte as a number, and the results and refusals of the two commands. -/

namespace Sys2Proof.Safety

open Sys2Proof.Machine

variable {s : State}

/-! ## The laws of the pair -/

/-- `getLsb` as a number: the parity of the byte. -/
theorem getLsb_toNat (v : Byte) : (getLsb v).toNat = v.toNat % 2 :=
  (Nat.toNat_testBit v.toNat 0).trans (by rw [pow_zero, Nat.div_one])

theorem setLsb_getLsb (v : Byte) : setLsb v (getLsb v) = v := by
  apply BitVec.eq_of_toNat_eq
  rw [setLsb_toNat, getLsb_toNat, Nat.div_add_mod']

/-- The upper seven bits are kept (R143). -/
theorem setLsb_toNat_div_two (v : Byte) (b : Bit) : (setLsb v b).toNat / 2 = v.toNat / 2 := by
  have hb := Bool.toNat_le b
  rw [setLsb_toNat]
  omega

/-- Only the last of two `setLsb` counts (R143). -/
theorem setLsb_setLsb (v : Byte) (b b' : Bit) : setLsb (setLsb v b) b' = setLsb v b' := by
  apply BitVec.eq_of_toNat_eq
  rw [setLsb_toNat, setLsb_toNat v b', setLsb_toNat_div_two]

theorem setLsb_eq_self_iff (v : Byte) (b : Bit) : setLsb v b = v ↔ getLsb v = b := by
  constructor
  · intro hsame
    rw [← hsame, getLsb_setLsb]
  · rintro rfl
    exact setLsb_getLsb v

/-- The byte changes by at most one (R143). -/
theorem setLsb_sub_mem (v : Byte) (b : Bit) : ((setLsb v b).toNat : Int) - v.toNat ∈ [-1, 0, 1] := by
  have hb := Bool.toNat_le b
  rw [setLsb_toNat]
  simp only [List.mem_cons, List.not_mem_nil, or_false]
  omega

/-- Settles O23: each law is read off the number that `setLsb` or `getLsb` gives. -/
theorem lsbLaws : Obligations.LsbLaws := fun v b b' =>
  ⟨getLsb_setLsb v b, setLsb_getLsb v, setLsb_setLsb v b b, setLsb_setLsb v b b',
    setLsb_toNat_div_two v b, setLsb_sub_mem v b, setLsb_eq_self_iff v b,
    Nat.le_of_lt_succ (setLsb v b).isLt⟩

/-! ## What the two commands compute -/

/-- A command whose body only sets `RES0` completes, with neither `EMPTY` nor `TERM` (R31, R32). -/
theorem completes_with_res0 {i : Instr} {n : Nat} (hwrites : writeSet i = [.res0])
    (h : commandBody i (startCommand s) = complete false false { startCommand s with res0 := n }) :
    ∃ t, exec i s = .next t ∧ EndsDone t false false ∧ WorkingCleared t ∧ FrameExcept [.res0] s t ∧
      t.res0 = n :=
  have hexec := exec_eq_next_iff.2 h
  ⟨_, hexec, endsDone_complete (noErrorYet_startCommand s) false false, workingCleared_startCommand s,
    hwrites ▸ commandsWriteOnlyTheirTargets i s _ hexec, rfl⟩

/-- What `SETLSB` computes from legal operands (R141). -/
theorem setLsb_ofNat_toNat {a b : Nat} (ha : a ≤ 255) (hb : b ≤ 1) :
    (setLsb (BitVec.ofNat 8 a) (b.testBit 0)).toNat = a / 2 * 2 + b := by
  rw [setLsb_toNat, BitVec.toNat_ofNat, Nat.toNat_testBit]
  omega

/-- What `GETLSB` computes from a legal operand (R142). -/
theorem getLsb_ofNat_toNat (a : Nat) : (getLsb (BitVec.ofNat 8 a)).toNat = a % 2 := by
  rw [getLsb_toNat, BitVec.toNat_ofNat]
  omega

/-! ## The words of the two commands -/

theorem setlsb_word (pos : BitVec 3) :
    0x5000#16 ||| pos.zeroExtend 16 = wordOf .setlsb .horizontal pos := by revert pos; decide

theorem getlsb_word (pos : BitVec 3) :
    0x6000#16 ||| pos.zeroExtend 16 = wordOf .getlsb .horizontal pos := by revert pos; decide

/-! ## The results and refusals of the two commands -/

/-- Settles O21: the four cases of `SETLSB` exclude each other, and each clause is one of them. -/
theorem setlsbResult : Obligations.SetlsbResult := by
  refine ⟨fun pos => setlsb_word pos ▸ decode_wordOf ⟨fun _ => rfl, nofun⟩, fun pos s => ?_⟩
  rcases setlsbBody_cases pos s with
    ⟨hpos, heq⟩ | ⟨hpos, harg0, heq⟩ | ⟨hpos, harg0, harg1, heq⟩ | ⟨hpos, harg0, harg1, heq⟩
  case inl =>
    exact ⟨by omega, fun _ => failsWith_of_raise (i := .setlsb pos) heq, by omega, by omega⟩
  case inr.inl =>
    exact ⟨by omega, by omega, fun _ _ => failsWith_of_raise (i := .setlsb pos) heq, by omega⟩
  case inr.inr.inl =>
    exact ⟨by omega, by omega, by omega, fun _ _ _ => failsWith_of_raise (i := .setlsb pos) heq⟩
  case inr.inr.inr =>
    have hresult := completes_with_res0 (i := .setlsb pos) rfl heq
    rw [startCommand_arg0, startCommand_arg1, setLsb_ofNat_toNat harg0 harg1] at hresult
    exact ⟨fun _ _ _ => hresult, by omega, by omega, by omega⟩

/-- Settles O22: the three cases of `GETLSB` exclude each other, and each clause is one of them. -/
theorem getlsbResult : Obligations.GetlsbResult := by
  refine ⟨fun pos => getlsb_word pos ▸ decode_wordOf ⟨fun _ => rfl, nofun⟩, fun pos s => ?_⟩
  rcases getlsbBody_cases pos s with ⟨hpos, heq⟩ | ⟨hpos, harg0, heq⟩ | ⟨hpos, harg0, heq⟩
  case inl =>
    exact ⟨by omega, fun _ => failsWith_of_raise (i := .getlsb pos) heq, by omega⟩
  case inr.inl =>
    exact ⟨by omega, by omega, fun _ _ => failsWith_of_raise (i := .getlsb pos) heq⟩
  case inr.inr =>
    have hresult := completes_with_res0 (i := .getlsb pos) rfl heq
    rw [startCommand_arg0, getLsb_ofNat_toNat] at hresult
    exact ⟨fun _ _ => hresult, by omega, by omega⟩

end Sys2Proof.Safety
end

section
/-! SUPPORT. The pixel_address_mapper (42_pixel_address_mapper R150 to R160): the mapping is a bijection between the
offsets below the capacity and the pixels of the image, or of its diagonal, and `ADDR` and `CAP` report it. -/

namespace Sys2Proof.Safety

open Sys2Proof.Machine

variable {s : State} {i : Instr} {d : Direction}

/-! ## The mapping -/

/-- Settles O26: the bound of each direction, with the channel below three. -/
theorem mappingStaysInImage : Obligations.MappingStaysInImage := by
  intro d i w h hi
  obtain ⟨hx, hy, hc⟩ := addr_lt d hi
  exact ⟨hx, hy, Nat.le_of_lt_succ hc⟩

/-- Line `q` of `n` lines of `w` elements lies below `w * n` as a whole. -/
theorem lineOffset_lt {w n q r : Nat} (hr : r < w) (hq : q < n) : w * q + r < w * n :=
  calc w * q + r < w * q + w := Nat.add_lt_add_left hr _
    _ = w * (q + 1) := (Nat.mul_succ w q).symm
    _ ≤ w * n := Nat.mul_le_mul_left w hq

/-- The offset `w * q + r` is element `r` of line `q`. -/
theorem lineOffset_div_mod {w q r : Nat} (hr : r < w) : (w * q + r) / w = q ∧ (w * q + r) % w = r :=
  (Nat.div_mod_unique (Nat.zero_lt_of_lt hr)).2 ⟨Nat.add_comm r (w * q), hr⟩

/-- Away from the diagonal every pixel has an offset: whole rows, or whole columns, lie before it (R158). -/
theorem exists_offset_of_pixel {w h x y : Nat} (hd : d ≠ .diagonal) (hx : x < w) (hy : y < h) :
    ∃ i < cap d w h, (addr d i w h).x = x ∧ (addr d i w h).y = y := by
  cases d with
  | horizontal => exact ⟨w * y + x, lineOffset_lt hx hy, (lineOffset_div_mod hx).symm⟩
  | vertical =>
    have hcap : h * x + y < w * h := Nat.mul_comm h w ▸ lineOffset_lt hy hx
    exact ⟨h * x + y, hcap, lineOffset_div_mod hy⟩
  | diagonal => exact absurd rfl hd

/-- Settles O27: one offset per pixel, a pixel's offset counts the whole lines before it, and on the diagonal the
offset is the coordinate. -/
theorem mappingVisitsEachPixelOnce : Obligations.MappingVisitsEachPixelOnce :=
  ⟨fun _ _ _ _ _ => addr_pixel_inj, fun _ _ _ _ _ => exists_offset_of_pixel, fun _ _ t ht => ⟨t, ht, rfl, rfl⟩⟩

/-! ## `ADDR` -/

theorem commandBody_of_mem_addrs (h : (i, d) ∈ addrs) :
    commandBody i = addrBody d ∧ writeSet i = [.res0, .res1, .res2] := by
  simp only [List.mem_cons, Prod.mk.injEq, List.not_mem_nil, or_false] at h
  rcases h with ⟨rfl, rfl⟩ | ⟨rfl, rfl⟩ | ⟨rfl, rfl⟩ <;> exact ⟨rfl, rfl⟩

/-- `ADDR` of an offset below the capacity reports where the offset maps (R150). -/
theorem addr_completes (h : (i, d) ∈ addrs) (hlegal : s.arg0 < s.cap d) :
    ∃ t, exec i s = .next t ∧ EndsDone t false false ∧ WorkingCleared t ∧
      FrameExcept [.res0, .res1, .res2] s t ∧ t.res0 = (s.addr d s.arg0).x ∧
      t.res1 = (s.addr d s.arg0).y ∧ t.res2 = (s.addr d s.arg0).c := by
  obtain ⟨hbody, hwrites⟩ := commandBody_of_mem_addrs h
  rcases addrBody_cases d s with ⟨hover, -⟩ | ⟨-, heq⟩
  · exact absurd hlegal (Nat.not_lt.2 hover)
  · have hexec : exec i s = .next (addrGo d (startCommand s)) := exec_eq_next_iff.2 (hbody ▸ heq)
    exact ⟨_, hexec, endsDone_complete (noErrorYet_startCommand s) false false,
      workingCleared_startCommand s, hwrites ▸ commandsWriteOnlyTheirTargets i s _ hexec, rfl, rfl, rfl⟩

/-- `ADDR` refuses an offset at or beyond the capacity (R160). -/
theorem addr_refuses (h : (i, d) ∈ addrs) (hover : s.cap d ≤ s.arg0) : FailsWith i s 5 0 := by
  obtain ⟨hbody, -⟩ := commandBody_of_mem_addrs h
  rcases addrBody_cases d s with ⟨-, heq⟩ | ⟨hlegal, -⟩
  · exact failsWith_of_raise (hbody ▸ heq)
  · exact absurd hlegal (Nat.not_lt.2 hover)

/-- Settles O24: the clauses of each direction are the two cases of `ADDR` with its mapping and capacity. -/
theorem addrResult : Obligations.AddrResult := by
  have hH : (Instr.addrH, Direction.horizontal) ∈ addrs := by decide
  have hV : (Instr.addrV, Direction.vertical) ∈ addrs := by decide
  have hD : (Instr.addrD, Direction.diagonal) ∈ addrs := by decide
  refine ⟨by decide, by decide, by decide, by decide, fun s => ⟨fun hlegal => ?_, fun hlegal => ?_,
    fun hover => ?_, fun hover => ?_⟩⟩
  · exact ⟨addr_completes hH hlegal, addr_completes hV hlegal⟩
  · exact addr_completes hD hlegal
  · exact ⟨addr_refuses hH hover, addr_refuses hV hover⟩
  · exact addr_refuses hD hover

/-! ## `CAP` -/

/-- Settles O25: in each direction `CAP` only sets `RES0`, to the capacity of that direction. -/
theorem capResult : Obligations.CapResult := by
  refine ⟨by decide, by decide, by decide, by decide, fun s i c hi => ?_⟩
  simp only [List.mem_cons, Prod.mk.injEq, List.not_mem_nil, or_false] at hi
  rcases hi with ⟨rfl, rfl⟩ | ⟨rfl, rfl⟩ | ⟨rfl, rfl⟩ <;> exact completes_with_res0 rfl rfl

end Sys2Proof.Safety
end

section
/-! SUPPORT. The embed_sequencer (43_embed_sequencer R170 to R177): what one bit step does to each byte of the image,
what the `BITLEN` bit steps together do to it, and the two ways an `EMBED` ends. -/

namespace Sys2Proof.Safety

open Sys2Proof.Machine

variable {s t : State} {i : Instr} {d : Direction} {x y c : Nat}

/-! ## One bit step -/

theorem addr_c_lt (d : Direction) (k w h : Nat) : (addr d k w h).c < 3 := by
  cases d <;> exact Nat.mod_lt k (by omega)

/-- Inside the image a byte depends on the image only, not on the moment of the access. -/
theorem imgByte_of_img_eq (himg : t.img = s.img) (hin : IsImgByte s x y c) :
    imgByte t x y c = imgByte s x y c := by
  have hhas : s.img.has x y = true := (s.img.has_iff x y).2 ⟨hin.1, hin.2.1⟩
  simp only [imgByte, State.pixRead, himg, s.img.pixRead_inside t.freeCount s.freeCount hhas]

/-- A bit step of `EMBED` sets the LSB of the byte its offset maps to (R173). -/
theorem imgByte_embedBitStep_mapped (hin : IsImgByte s x y c) (haddr : s.addr d s.offs = ⟨x, y, c⟩) :
    imgByte (embedBitStep d s) x y c =
      setLsb (imgByte s x y c) (readBitBuf s.bitBuf s.offs) := by
  have hhas : s.img.has x y = true := (s.img.has_iff x y).2 ⟨hin.1, hin.2.1⟩
  simp only [imgByte, State.pixRead, embedBitStep_img, embeddedPixel, haddr,
    Image.pixRead_pixWrite_same _ _ _ hhas, channelOf_withChannel_same]

/-- A bit step of `EMBED` leaves every other byte alone: those of other pixels are not written, and those of the same
pixel are written back as read (R173, R176). -/
theorem imgByte_embedBitStep_other (hin : IsImgByte s x y c) (haddr : s.addr d s.offs ≠ ⟨x, y, c⟩) :
    imgByte (embedBitStep d s) x y c = imgByte s x y c := by
  obtain ⟨hx, hy, hc⟩ := hin
  have hhas : s.img.has x y = true := (s.img.has_iff x y).2 ⟨hx, hy⟩
  by_cases hpixel : (x, y) = ((s.addr d s.offs).x, (s.addr d s.offs).y)
  · obtain ⟨rfl, rfl⟩ := Prod.mk.inj hpixel
    have hchannel : c ≠ (s.addr d s.offs).c := by
      rintro rfl
      exact haddr rfl
    simp only [imgByte, State.pixRead, embedBitStep_img, embeddedPixel,
      Image.pixRead_pixWrite_same _ _ _ hhas]
    exact channelOf_withChannel_other _ _ (addr_c_lt d _ _ _) hc hchannel
  · simp only [imgByte, State.pixRead, embedBitStep_img, embedBitStep_freeCount,
      Image.pixRead_pixWrite_other _ _ _ hhas hpixel]

/-! ## The bit steps together -/

theorem isImgByte_embed (k : Nat) (hin : IsImgByte s x y c) :
    IsImgByte ((embedBitStep d)^[k] (embedBegin s)) x y c := by
  have hsame := embed_same d k s
  obtain ⟨hx, hy, hc⟩ := hin
  exact ⟨hx.trans_eq hsame.imgWidth.symm, hy.trans_eq hsame.imgHeight.symm, hc⟩

/-- The byte that bit step `k` sets is the one offset `k` maps to (R173). -/
theorem embed_addr_offs (d : Direction) (k : Nat) (s : State) :
    ((embedBitStep d)^[k] (embedBegin s)).addr d ((embedBitStep d)^[k] (embedBegin s)).offs =
      s.addr d k := by
  rw [embed_offs, (embed_same d k s).addr]
  rfl

/-- A byte to which none of the first `k` offsets maps is as before after `k` bit steps. -/
theorem embed_imgByte_unmapped {k : Nat} (hin : IsImgByte s x y c)
    (hfree : ∀ l < k, s.addr d l ≠ ⟨x, y, c⟩) :
    imgByte ((embedBitStep d)^[k] (embedBegin s)) x y c = imgByte s x y c := by
  induction k with
  | zero => exact imgByte_of_img_eq rfl hin
  | succ k ih =>
    rw [Function.iterate_succ_apply', imgByte_embedBitStep_other (isImgByte_embed k hin)
      ((embed_addr_offs d k s).symm ▸ hfree k (by omega))]
    exact ih fun l hl => hfree l (by omega)

/-- No two offsets below the capacity map to one byte (R158). -/
theorem addr_inj {k l : Nat} (hk : k < s.cap d) (hl : l < s.cap d) (h : s.addr d k = s.addr d l) :
    k = l :=
  addr_pixel_inj hk hl (congrArg PixelAddr.x h) (congrArg PixelAddr.y h)

/-- The byte to which one of the first `k` offsets maps has the bit of that offset for its LSB after `k` bit steps: the
later steps set other bytes. -/
theorem embed_imgByte_mapped {k l : Nat} (hin : IsImgByte s x y c) (hk : k ≤ s.cap d) (hl : l < k)
    (haddr : s.addr d l = ⟨x, y, c⟩) :
    imgByte ((embedBitStep d)^[k] (embedBegin s)) x y c =
      setLsb (imgByte s x y c) (readBitBuf s.bitBuf l) := by
  induction k with
  | zero => omega
  | succ k ih =>
    have hother : ∀ m < k + 1, m ≠ l → s.addr d m ≠ ⟨x, y, c⟩ := fun m hm hne hmap =>
      hne (addr_inj (by omega) (by omega) (hmap.trans haddr.symm))
    rw [Function.iterate_succ_apply']
    rcases Nat.lt_succ_iff_lt_or_eq.1 hl with hlt | rfl
    · rw [imgByte_embedBitStep_other (isImgByte_embed k hin)
        ((embed_addr_offs d k s).symm ▸ hother k (by omega) (by omega))]
      exact ih (by omega) hlt
    · rw [imgByte_embedBitStep_mapped (isImgByte_embed l hin) ((embed_addr_offs d l s).trans haddr),
        embed_imgByte_unmapped hin fun m hm => hother m (by omega) (by omega), embed_offs,
        embedBitStep_iterate_bitBuf]
      rfl

/-- The bit steps of `EMBED` do not touch the run counter. -/
theorem embed_run (d : Direction) (k : Nat) (s : State) :
    ((embedBitStep d)^[k] (embedBegin s)).runLen = 0 ∧
      ((embedBitStep d)^[k] (embedBegin s)).runVal = false := by
  induction k with
  | zero => exact ⟨rfl, rfl⟩
  | succ k ih =>
    rw [Function.iterate_succ_apply', embedBitStep_runLen, embedBitStep_runVal]
    exact ih

/-! ## How the command ends -/

/-- The state in which an `EMBED` past its checks ends. -/
def embedEnd (d : Direction) (s : State) : State :=
  complete false false ((embedBitStep d)^[s.bitlen] (embedBegin s))

theorem commandBody_of_mem_embeds (h : (i, d) ∈ embeds) :
    commandBody i = embedBody d ∧ writeSet i = [.img] := by
  simp only [List.mem_cons, Prod.mk.injEq, List.not_mem_nil, or_false] at h
  rcases h with ⟨rfl, rfl⟩ | ⟨rfl, rfl⟩ | ⟨rfl, rfl⟩ <;> exact ⟨rfl, rfl⟩

theorem shapeMismatch_eq_true (h : ¬ ShapeOk d s) : shapeMismatch d s.imgW s.imgH = true := by
  cases d with
  | horizontal => exact absurd nofun h
  | vertical => exact absurd nofun h
  | diagonal => exact bne_iff_ne.2 fun heq => h fun _ => heq

/-- `EMBED` is refused for its shape (R171), or for its length (R172), or makes its bit steps (R173). -/
theorem exec_embed_cases (h : (i, d) ∈ embeds) (s : State) :
    (¬ ShapeOk d s ∧ commandBody i (startCommand s) = raise .shapeMismatch 0 (startCommand s)) ∨
      (ShapeOk d s ∧ s.cap d < s.bitlen ∧
        commandBody i (startCommand s) = raise .capacityExceeded (s.cap d) (startCommand s)) ∨
      (ShapeOk d s ∧ s.bitlen ≤ s.cap d ∧ commandBody i (startCommand s) = embedEnd d s) := by
  rw [(commandBody_of_mem_embeds h).1]
  by_cases hshape : ShapeOk d s
  · have hsquare := shapeMismatch_eq_false hshape
    rcases Nat.lt_or_ge (s.cap d) s.bitlen with hover | hroom
    · exact .inr (.inl ⟨hshape, hover, by simp [embedBody, embedCheck, checked, hsquare, hover]⟩)
    · have hpass : embedCheck d (startCommand s) = none := embedCheck_none.2 ⟨hsquare, hroom⟩
      exact .inr (.inr ⟨hshape, hroom, by simp [embedBody, checked, hpass, embedGo_eq, embedEnd]⟩)
  · have hoblong := shapeMismatch_eq_true hshape
    exact .inl ⟨hshape, by simp [embedBody, embedCheck, checked, hoblong]⟩

/-- Settles O29: the clauses are the first two of the three ways an `EMBED` ends. -/
theorem embedRefusals : Obligations.EmbedRefusals := by
  intro i d s hi
  rcases exec_embed_cases hi s with ⟨hbad, heq⟩ | ⟨hshape, hover, heq⟩ | ⟨hshape, hroom, -⟩
  · exact ⟨fun _ => failsWith_of_raise heq, fun hshape => absurd hshape hbad⟩
  · exact ⟨absurd hshape, fun _ _ => failsWith_of_raise heq⟩
  · exact ⟨absurd hshape, fun _ hover => absurd hroom (Nat.not_le.2 hover)⟩

/-! ## What the command does to each byte -/

/-- Whatever an `EMBED` ends with, a byte of the image is unchanged, or the offset of one payload bit maps to it and it
has that bit for its LSB (R175, R176). -/
theorem exec_embed_imgByte (h : (i, d) ∈ embeds) (hexec : exec i s = .next t)
    (hin : IsImgByte s x y c) :
    imgByte t x y c = imgByte s x y c ∨ ∃ k < s.bitlen, k < s.cap d ∧ s.addr d k = ⟨x, y, c⟩ ∧
      imgByte t x y c = setLsb (imgByte s x y c) (readBitBuf s.bitBuf k) := by
  obtain rfl := exec_eq_next_iff.1 hexec
  rcases exec_embed_cases h s with ⟨-, heq⟩ | ⟨-, -, heq⟩ | ⟨-, hroom, heq⟩ <;> rw [heq]
  · exact .inl (imgByte_of_img_eq rfl hin)
  · exact .inl (imgByte_of_img_eq rfl hin)
  · by_cases hmapped : ∃ k < s.bitlen, s.addr d k = ⟨x, y, c⟩
    · obtain ⟨k, hk, haddr⟩ := hmapped
      exact .inr ⟨k, hk, by omega, haddr, embed_imgByte_mapped hin hroom hk haddr⟩
    · push Not at hmapped
      exact .inl (embed_imgByte_unmapped hin hmapped)

/-- Settles O30: a byte that changes is mapped to, only its LSB is set, and one offset maps to each pixel. -/
theorem embedTouchesOnlyLsbs : Obligations.EmbedTouchesOnlyLsbs := by
  intro i d s t hi hexec
  refine ⟨fun x y c hin => ?_, fun x y c c' hin hin' hne hne' => ?_⟩
  · rcases exec_embed_imgByte hi hexec hin with heq | ⟨k, -, -, -, heq⟩ <;> rw [heq]
    exact setLsb_toNat_div_two _ _
  · obtain ⟨k, -, hk, haddr, -⟩ := (exec_embed_imgByte hi hexec hin).resolve_left hne
    obtain ⟨l, -, hl, haddr', -⟩ := (exec_embed_imgByte hi hexec hin').resolve_left hne'
    have hkl : k = l := addr_pixel_inj hk hl
      ((congrArg PixelAddr.x haddr).trans (congrArg PixelAddr.x haddr').symm)
      ((congrArg PixelAddr.y haddr).trans (congrArg PixelAddr.y haddr').symm)
    calc c = (s.addr d k).c := (congrArg PixelAddr.c haddr).symm
      _ = (s.addr d l).c := by rw [hkl]
      _ = c' := congrArg PixelAddr.c haddr'

/-- The byte an offset below the capacity maps to is there when the registers do not overstate the shape (R272). -/
theorem ShapeHonest.isImgByte_addr (hs : ShapeHonest s) {k : Nat} (hk : k < s.cap d) :
    IsImgByte s (s.addr d k).x (s.addr d k).y (s.addr d k).c := by
  obtain ⟨hx, hy, hc⟩ := addr_lt d hk
  exact ⟨hx.trans_le hs.1, hy.trans_le hs.2, hc⟩

/-- Settles O31: the payload bit that would change the byte at offset `k` would have offset `k` itself. -/
theorem embedWritesNoTerminator : Obligations.EmbedWritesNoTerminator := by
  intro i d s t hi hs hexec k hlen hk
  have haddr : t.addr d k = s.addr d k :=
    ((sameShape_of_frame (commandsWriteOnlyTheirTargets i s t hexec)).addr d k).symm
  have hbyte : offsetByte d t k = offsetByte d s k := by
    unfold offsetByte
    rw [haddr]
    rcases exec_embed_imgByte hi hexec (hs.isImgByte_addr hk) with heq | ⟨l, hl, hcap, hmap, -⟩
    · exact heq
    · exact absurd (addr_inj hcap hk hmap) (by omega)
  exact congrArg (·.getLsbD 0) hbyte

/-! ## A successful `EMBED` -/

theorem endsDone_embedEnd (d : Direction) (s : State) : EndsDone (embedEnd d s) false false :=
  endsDone_complete ((show NoErrorYet (embedBegin s) from ⟨rfl, rfl⟩).of_sameButWork
    (embed_same d s.bitlen s)) false false

theorem embedEnd_offsetByte (hs : ShapeHonest s) (hroom : s.bitlen ≤ s.cap d) {k : Nat}
    (hk : k < s.bitlen) :
    offsetByte d (embedEnd d s) k = setLsb (offsetByte d s k) (readBitBuf s.bitBuf k) := by
  have haddr : (embedEnd d s).addr d k = s.addr d k := (embed_same d s.bitlen s).addr d k
  unfold offsetByte
  rw [haddr]
  exact embed_imgByte_mapped (hs.isImgByte_addr (by omega)) hroom hk rfl

/-- Settles O28: the third of the three ways an `EMBED` ends, byte by byte. -/
theorem embedResult : Obligations.EmbedResult := by
  intro i d s hi hshape hroom
  rcases exec_embed_cases hi s with ⟨hbad, -⟩ | ⟨-, hover, -⟩ | ⟨-, -, heq⟩
  · exact absurd hshape hbad
  · exact absurd hroom (Nat.not_le.2 hover)
  · have hexec : exec i s = .next (embedEnd d s) := exec_eq_next_iff.2 heq
    have hframe : FrameExcept [.img] s (embedEnd d s) :=
      (commandBody_of_mem_embeds hi).2 ▸ commandsWriteOnlyTheirTargets i s _ hexec
    have hsame := embed_same d s.bitlen s
    obtain ⟨hrunLen, hrunVal⟩ := embed_run d s.bitlen s
    refine ⟨_, hexec, endsDone_embedEnd d s, embed_offs d s.bitlen s, hrunLen, hrunVal, hframe,
      hsame.imgWidth, hsame.imgHeight, fun hs k hk => ⟨?_, fun l hl => ?_⟩, fun x y c hin => ?_⟩
    · rw [embedEnd_offsetByte hs hroom hk, setLsb_toNat]
    · exact addr_inj (by omega) (by omega)
    · exact embed_imgByte_unmapped hin

/-- Settles O33: the payload stands in the stream of the image, and `EXTRACTN` reads that stream. -/
theorem knownLengthReadsBackPayload : Obligations.KnownLengthReadsBackPayload := by
  intro e x d s hpair hshape hs hroom
  obtain ⟨hhonest, hstream⟩ := embed_leaves_payload hshape hs hroom
  have hsame : SameShape s (embedBody d (startCommand s)) := sameShape_of_frame
    ((frameExcept_startCommand _ s).trans (frameExcept_embedBody d _))
  obtain ⟨hlen, hbits⟩ := extractn_reads_stream
    (s := { embedBody d (startCommand s) with
      nwin := s.bitlen, bitlen := 0, bitBuf := State.reset.bitBuf })
    (hsame.shapeOk hshape) hhonest (hroom.trans_eq (hsame.cap d))
  exact ⟨_, _, (exec_of_embedExtractPairs hpair s).1, hstream, (exec_of_embedExtractPairs hpair _).2,
    hlen, fun k hk => (hbits k hk).trans (hstream k hk)⟩

end Sys2Proof.Safety
end

section
/-! SUPPORT. The extract_sequencer (44_extract_sequencer R190 to R203): the ways `EXTRACTN` and `EXTRACT` end, and the
count at which a scan stops, from the run counter and from the window (R194, R195). -/

namespace Sys2Proof.Safety

open Sys2Proof.Machine

variable {s t : State} {i : Instr} {d : Direction} {n : Nat} {S T : Nat → Bit} {lo up k m : Nat}

/-! ## `EXTRACTN` -/

/-- The state in which an `EXTRACTN` past its checks ends. -/
def extractnEnd (d : Direction) (s : State) : State :=
  extractnFinish ((extractnBitStep d)^[s.nwin] (extractnBegin s))

theorem commandBody_of_mem_extractns (h : (i, d) ∈ extractns) :
    commandBody i = extractnBody d ∧ writeSet i = [.bitlen, .bitbuf] := by
  simp only [List.mem_cons, Prod.mk.injEq, List.not_mem_nil, or_false] at h
  rcases h with ⟨rfl, rfl⟩ | ⟨rfl, rfl⟩ | ⟨rfl, rfl⟩ <;> exact ⟨rfl, rfl⟩

/-- `EXTRACTN` is refused for its shape, or for its length, or makes its bit steps (R202). -/
theorem extractnBody_ends (d : Direction) (s : State) :
    (¬ ShapeOk d s ∧
        extractnBody d (startCommand s) = raise .shapeMismatch 0 (startCommand s)) ∨
      (ShapeOk d s ∧ s.cap d < s.nwin ∧
        extractnBody d (startCommand s) = raise .capacityExceeded (s.cap d) (startCommand s)) ∨
      (ShapeOk d s ∧ s.nwin ≤ s.cap d ∧ extractnBody d (startCommand s) = extractnEnd d s) := by
  by_cases hshape : ShapeOk d s
  · have hsquare := shapeMismatch_eq_false hshape
    rcases Nat.lt_or_ge (s.cap d) s.nwin with hover | hroom
    · exact .inr (.inl ⟨hshape, hover, by simp [extractnBody, extractnCheck, checked, hsquare, hover]⟩)
    · have hpass : extractnCheck d (startCommand s) = none := extractnCheck_none.2 ⟨hsquare, hroom⟩
      exact .inr (.inr ⟨hshape, hroom,
        by simp [extractnBody, checked, hpass, extractnGo_eq, extractnEnd]⟩)
  · have hoblong := shapeMismatch_eq_true hshape
    exact .inl ⟨hshape, by simp [extractnBody, extractnCheck, checked, hoblong]⟩

theorem endsDone_extractnEnd (d : Direction) (s : State) :
    EndsDone (extractnEnd d s) (s.nwin == 0) false := by
  have hsame := extractn_same d s.nwin s
  have hclean : NoErrorYet ((extractnBitStep d)^[s.nwin] (extractnBegin s)) :=
    (show NoErrorYet (extractnBegin s) from ⟨rfl, rfl⟩).of_sameButWork hsame
  have hnwin : ((extractnBitStep d)^[s.nwin] (extractnBegin s)).nwin = s.nwin := hsame.nwin
  rw [← hnwin]
  exact endsDone_complete hclean _ _

/-- Settles O32: each clause is one of the three ways an `EXTRACTN` ends. -/
theorem extractnResult : Obligations.ExtractnResult := by
  refine ⟨by decide, by decide, by decide, by decide, fun i d s hi => ?_⟩
  obtain ⟨hbody, hwrites⟩ := commandBody_of_mem_extractns hi
  rcases extractnBody_ends d s with ⟨hbad, heq⟩ | ⟨hshape, hover, heq⟩ | ⟨hshape, hroom, heq⟩
  · exact ⟨fun hshape => absurd hshape hbad, fun _ => failsWith_of_raise (hbody ▸ heq),
      fun hshape => absurd hshape hbad⟩
  · exact ⟨fun _ hroom => absurd hroom (Nat.not_le.2 hover), absurd hshape,
      fun _ _ => failsWith_of_raise (hbody ▸ heq)⟩
  · have hexec : exec i s = .next (extractnEnd d s) := exec_eq_next_iff.2 (hbody ▸ heq)
    refine ⟨fun _ _ => ?_, absurd hshape, fun _ hover => absurd hroom (Nat.not_le.2 hover)⟩
    exact ⟨_, hexec, endsDone_extractnEnd d s, extractn_offs d s.nwin s,
      hwrites ▸ commandsWriteOnlyTheirTargets i s _ hexec, (extractn_same d s.nwin s).nwin,
      fun hs => heq ▸ extractn_reads_stream hshape hs hroom⟩

/-! ## `EXTRACT` -/

theorem commandBody_of_mem_extracts (h : (i, d) ∈ extracts) :
    commandBody i = extractBody d ∧ writeSet i = [.bitlen, .bitbuf] := by
  simp only [List.mem_cons, Prod.mk.injEq, List.not_mem_nil, or_false] at h
  rcases h with ⟨rfl, rfl⟩ | ⟨rfl, rfl⟩ | ⟨rfl, rfl⟩ <;> exact ⟨rfl, rfl⟩

theorem frame_of_exec_extract (h : (i, d) ∈ extracts) (hexec : exec i s = .next t) :
    FrameExcept [.bitlen, .bitbuf] s t :=
  (commandBody_of_mem_extracts h).2 ▸ commandsWriteOnlyTheirTargets i s t hexec

theorem shapeOk_of_heuristic (hd : heuristic d = true) (s : State) : ShapeOk d s := by
  rintro rfl
  cases hd

/-- `EXTRACT` is refused for `K = 0` where the heuristic is applied, or for its shape, or scans (R191, R193). -/
theorem extractBody_ends (d : Direction) (s : State) :
    ((heuristic d = true ∧ s.kreg = 0) ∧
        extractBody d (startCommand s) = raise .illegalOperand 0 (startCommand s)) ∨
      (¬ ShapeOk d s ∧
        extractBody d (startCommand s) = raise .shapeMismatch 0 (startCommand s)) ∨
      (¬ (heuristic d = true ∧ s.kreg = 0) ∧ ShapeOk d s ∧
        extractBody d (startCommand s) = extractGo d (startCommand s)) := by
  by_cases hk : heuristic d = true ∧ s.kreg = 0
  · exact .inl ⟨hk, by simp [extractBody, extractCheck, checked, hk]⟩
  · have hpass : (heuristic d && s.kreg == 0) = false := by simpa using hk
    by_cases hshape : ShapeOk d s
    · have hcheck : extractCheck d (startCommand s) = none :=
        extractCheck_none.2 ⟨hpass, shapeMismatch_eq_false hshape⟩
      exact .inr (.inr ⟨hk, hshape, by simp [extractBody, checked, hcheck]⟩)
    · have hoblong := shapeMismatch_eq_true hshape
      exact .inr (.inl ⟨hshape, by
        simp only [extractBody, extractCheck, checked, startCommand_kreg, startCommand_imgW,
          startCommand_imgH, hpass, hoblong, if_true, Bool.false_eq_true, if_false]⟩)

/-- The state in which a scan of `n` bit steps ends. -/
def scanEnd (d : Direction) (s : State) (n : Nat) : State :=
  extractFinish d ((extractBitStep d)^[n] (extractBegin d s))

/-- A scan makes `n` bit steps: the first stop, by the trigger or by exhaustion, comes after the last of them (R193). -/
structure ScanStops (d : Direction) (s : State) (n : Nat) : Prop where
  le_cap : n ≤ s.cap d
  goesOn : ∀ l, 0 < l → l < n → stopsAt d s l = false
  stops : n = s.cap d ∨ (0 < n ∧ stopsAt d s n = true)

theorem exists_scanStops (d : Direction) (s : State) : ∃ n, ScanStops d s n := by
  obtain ⟨n, hn, hgo, hstop⟩ := extract_stops d s
  exact ⟨n, hn, hgo, hstop⟩

theorem extractGo_eq_scanEnd (h : ScanStops d s n) : extractGo d (startCommand s) = scanEnd d s n :=
  extractGo_eq d s h.le_cap h.goesOn h.stops

/-- `EXTRACT` past its checks ends where its scan stops. -/
theorem exec_extract (hi : (i, d) ∈ extracts) (hk : ¬ (heuristic d = true ∧ s.kreg = 0))
    (hshape : ShapeOk d s) (h : ScanStops d s n) : exec i s = .next (scanEnd d s n) := by
  rcases extractBody_ends d s with ⟨hzero, -⟩ | ⟨hbad, -⟩ | ⟨-, -, heq⟩
  · exact absurd hzero hk
  · exact absurd hshape hbad
  · rw [exec_eq_next_iff, (commandBody_of_mem_extracts hi).1, heq, extractGo_eq_scanEnd h]

/-- The same in the directions where the heuristic is applied. -/
theorem exec_scan (hi : (i, d) ∈ scans) (hk : s.kreg ≠ 0) (h : ScanStops d s n) :
    exec i s = .next (scanEnd d s n) ∧ FrameExcept [.bitlen, .bitbuf] s (scanEnd d s n) := by
  obtain ⟨hextract, hd⟩ := mem_scans_iff.1 hi
  have hexec := exec_extract hextract (fun hzero => hk hzero.2) (shapeOk_of_heuristic hd s) h
  exact ⟨hexec, frame_of_exec_extract hextract hexec⟩

@[simp] theorem scanEnd_offs (d : Direction) (s : State) (n : Nat) : (scanEnd d s n).offs = n :=
  extract_offs d n s

@[simp] theorem scanEnd_bitlen (d : Direction) (s : State) (n : Nat) :
    (scanEnd d s n).bitlen = scanLen d s n := extractFinish_bitlen d s n

theorem noErrorYet_scan (d : Direction) (s : State) (n : Nat) :
    NoErrorYet ((extractBitStep d)^[n] (extractBegin d s)) :=
  (show NoErrorYet (extractBegin d s) from ⟨rfl, rfl⟩).of_sameButWork (extract_same d n s)

theorem endsDone_scanEnd (d : Direction) (s : State) (n : Nat) :
    EndsDone (scanEnd d s n) (scanLen d s n == 0) (stopsAt d s n) := by
  have hclean := noErrorYet_scan d s n
  obtain ⟨hstatus, -⟩ := endsDone_complete hclean (scanLen d s n == 0) (stopsAt d s n)
  exact ⟨(extractFinish_status d s n).trans hstatus, hclean.1, hclean.2, rfl⟩

theorem holdsPrefix_scanEnd (hs : ShapeHonest s) (hn : n ≤ s.cap d) :
    HoldsPrefix (scanEnd d s n) (stream d s) (scanLen d s n) :=
  ⟨scanEnd_bitlen d s n, fun _ hj => (extractFinish_read d s n hj).trans
    (hs.lsbAt_startCommand (hj.trans_le ((scanLen_le d s n).trans hn)))⟩

/-- Settles O35: every scan stops, within the capacity. -/
theorem scanCompletes : Obligations.ScanCompletes := by
  intro i d s hi hk
  obtain ⟨n, hn⟩ := exists_scanStops d s
  obtain ⟨hexec, hframe⟩ := exec_scan hi hk hn
  refine ⟨_, _, _, hexec, endsDone_scanEnd d s n, hframe, ?_, ?_, hframe.2 .img (by decide)⟩
  · rw [scanEnd_offs, ← cap_of_heuristic (mem_scans_iff.1 hi).2]
    exact hn.le_cap
  · rw [scanEnd_offs, scanEnd_bitlen]
    exact scanLen_le d s n

/-- Settles O44: the two refusals are the first two of the three ways an `EXTRACT` ends, and the third reports no
error. -/
theorem extractRefusals : Obligations.ExtractRefusals := by
  refine ⟨fun s hoblong => ?_, fun i d s hi hk => ?_, fun i d s t hi hexec => ?_⟩
  · have hbad : ¬ ShapeOk .diagonal s := fun hshape => hoblong (hshape rfl)
    rcases extractBody_ends .diagonal s with ⟨⟨hd, -⟩, -⟩ | ⟨-, heq⟩ | ⟨-, hshape, -⟩
    · cases hd
    · exact failsWith_of_raise (i := .extractD) heq
    · exact absurd hshape hbad
  · obtain ⟨hextract, hd⟩ := mem_scans_iff.1 hi
    rcases extractBody_ends d s with ⟨-, heq⟩ | ⟨hbad, -⟩ | ⟨hpass, -⟩
    · exact failsWith_of_raise ((commandBody_of_mem_extracts hextract).1 ▸ heq)
    · exact absurd (shapeOk_of_heuristic hd s) hbad
    · exact absurd ⟨hd, hk⟩ hpass
  · obtain rfl := exec_eq_next_iff.1 hexec
    rw [(commandBody_of_mem_extracts hi).1]
    rcases extractBody_ends d s with ⟨-, heq⟩ | ⟨-, heq⟩ | ⟨-, -, heq⟩ <;> rw [heq]
    · exact show codeOfError .illegalOperand ≠ 2 by decide
    · exact show codeOfError .shapeMismatch ≠ 2 by decide
    · obtain ⟨n, hn⟩ := exists_scanStops d s
      obtain ⟨-, hcode, -⟩ := endsDone_scanEnd d s n
      rw [extractGo_eq_scanEnd hn, hcode]
      decide

/-! ## Scans that are not stopped by the trigger -/

/-- No trigger before `8 × (K + 1)` bits (R194 a). -/
theorem stopsAt_of_lt (hn : n < minTrigger s.kreg) : stopsAt d s n = false := by
  simp [stopsAt, triggered, Nat.not_le.2 hn]

theorem scanLen_of_not_stopsAt (h : stopsAt d s n = false) : scanLen d s n = n := by
  simp [scanLen, extractedLen, h]

/-- A scan that never triggers makes as many bit steps as there are bits (R197). -/
theorem scanStops_cap (h : ∀ l ≤ s.cap d, stopsAt d s l = false) : ScanStops d s (s.cap d) :=
  ⟨le_rfl, fun l _ hl => h l hl.le, .inl rfl⟩

/-- A scan that ends without a trigger keeps every bit it read (R196, R197). -/
theorem endsDone_scanEnd_of_not_stopsAt (h : stopsAt d s n = false) :
    EndsDone (scanEnd d s n) (n == 0) false := by
  have hend := endsDone_scanEnd d s n
  rwa [scanLen_of_not_stopsAt h, h] at hend

/-- Settles O36: a scan of no bits ends without a trigger. -/
theorem emptyImageYieldsNothing : Obligations.EmptyImageYieldsNothing := by
  intro i d s hi hk hempty
  have hcap : s.cap d = 0 := (cap_of_heuristic (mem_scans_iff.1 hi).2 s).trans hempty
  have hno : stopsAt d s 0 = false := stopsAt_of_lt (Nat.mul_pos (by omega) (by omega))
  obtain ⟨hexec, hframe⟩ := exec_scan hi hk (n := 0) ⟨by omega, by omega, .inl hcap.symm⟩
  exact ⟨_, hexec, endsDone_scanEnd_of_not_stopsAt hno,
    (scanEnd_bitlen d s 0).trans (scanLen_of_not_stopsAt hno), scanEnd_offs d s 0, hframe⟩

/-- Settles O37: the window form of the trigger is the one the scan tests, and it needs `8 × (K + 1)` bits. -/
theorem exhaustedScanReturnsAll : Obligations.ExhaustedScanReturnsAll := by
  intro i d s hi hk hs
  have hd := (mem_scans_iff.1 hi).2
  have hcap := cap_of_heuristic hd s
  refine ⟨fun hno => ?_, fun hsmall n hn hwin => by have := hwin.1; omega⟩
  have hgo : ∀ l ≤ s.cap d, stopsAt d s l = false := fun l hl =>
    Bool.eq_false_iff.2 fun htrig => hno l (hl.trans_eq hcap) ((stopsAt_iff_windowTrigger hs hd hl).1 htrig)
  have hlast := hgo _ le_rfl
  have hread := holdsPrefix_scanEnd hs (le_refl (s.cap d))
  rw [scanLen_of_not_stopsAt hlast] at hread
  rw [← hcap]
  exact ⟨_, (exec_scan hi hk (scanStops_cap hgo)).1, endsDone_scanEnd_of_not_stopsAt hlast,
    scanEnd_offs d s _, hread⟩

/-- Settles O43: the heuristic is not applied in the diagonal, so nothing stops the scan early. -/
theorem diagonalExtractReadsAll : Obligations.DiagonalExtractReadsAll := by
  intro s hsquare
  have hi : (Instr.extractD, Direction.diagonal) ∈ extracts := by decide
  have hno (l : Nat) : stopsAt .diagonal s l = false := rfl
  have hexec := exec_extract hi (fun hzero => nomatch hzero.1) (fun _ => hsquare)
    (scanStops_cap fun l _ => hno l)
  have hlen := scanLen_of_not_stopsAt (hno (s.cap .diagonal))
  have hwidth : s.imgW = s.cap .diagonal := by
    rw [State.cap, cap, ← hsquare, min_self]
  refine ⟨_, hexec, hwidth ▸ endsDone_scanEnd_of_not_stopsAt (hno _), scanEnd_offs _ s _,
    frame_of_exec_extract hi hexec, (scanEnd_bitlen _ s _).trans hlen, fun hs => ?_⟩
  have hread := holdsPrefix_scanEnd hs (le_refl (s.cap .diagonal))
  rwa [hlen] at hread

/-! ## Windows of equal elements -/

theorem allEqual_congr (h : ∀ a < up, S a = T a) : AllEqual S lo up ↔ AllEqual T lo up :=
  forall₂_congr fun a ha => forall₂_congr fun b hb => by rw [h a ha, h b hb]

/-- A part of a window of equal elements is one. -/
theorem allEqual_mono {lo' up' : Nat} (h : AllEqual S lo up) (hlo : lo ≤ lo') (hup : up' ≤ up) :
    AllEqual S lo' up' := fun a ha b hb hla hlb =>
  h a (ha.trans_le hup) b (hb.trans_le hup) (hlo.trans hla) (hlo.trans hlb)

/-- A window grows by the element before it when that one equals its first. -/
theorem allEqual_of_succ (h : AllEqual S (lo + 1) up) (hfirst : S lo = S (lo + 1)) (hlo : lo + 1 < up) :
    AllEqual S lo up := by
  have hall : ∀ a < up, lo ≤ a → S a = S (lo + 1) := fun a ha hle => by
    rcases Nat.eq_or_lt_of_le hle with rfl | hlt
    · exact hfirst
    · exact h a ha (lo + 1) hlo hlt le_rfl
  exact fun a ha b hb hla hlb => (hall a ha hla).trans (hall b hb hlb).symm

/-- Some window that triggers makes some window the first. -/
theorem exists_firstTrigger (hn : n ≤ m) (h : WindowTrigger S k n) : ∃ l ≤ n, FirstTrigger S k m l := by
  classical
  have hex : ∃ l, WindowTrigger S k l := ⟨n, h⟩
  have hle : Nat.find hex ≤ n := Nat.find_min' hex h
  exact ⟨_, hle, hle.trans hn, Nat.find_spec hex, fun l hl => Nat.find_min hex hl⟩

/-- All bits read are equal at the first possible count only: later, the count before would have triggered (R198). -/
theorem firstTrigger_of_allEqual (h : FirstTrigger S k m n) (hall : AllEqual S 0 n) :
    n = 8 * (k + 1) := by
  obtain ⟨-, ⟨hmin, -⟩, hfirst⟩ := h
  by_contra hne
  exact hfirst (n - 1) (by omega) ⟨by omega, allEqual_mono hall (Nat.zero_le _) (Nat.sub_le n 1)⟩

/-- After the first possible count the run that triggers is exactly `8 × K` long: a longer one would have triggered one
count before (R199). -/
theorem firstTrigger_run_exact (h : FirstTrigger S k m n) (hk : 0 < k) (hlate : 8 * (k + 1) < n) :
    S (n - 8 * k - 1) ≠ S (n - 8 * k) := by
  obtain ⟨-, ⟨-, hwin⟩, hfirst⟩ := h
  intro heq
  have hstart : n - 8 * k - 1 + 1 = n - 8 * k := by omega
  have hlonger : AllEqual S (n - 8 * k - 1) n :=
    allEqual_of_succ (hstart ▸ hwin) (hstart ▸ heq) (by omega)
  exact hfirst (n - 1) (by omega) ⟨by omega, allEqual_mono hlonger (by omega) (Nat.sub_le n 1)⟩

/-! ## The run counter -/

theorem extract_runLen_eq_iff (d : Direction) (s : State) (n : Nat) :
    ((extractBitStep d)^[n] (extractBegin d s)).runLen = n ↔
      AllEqual (lsbAt d (startCommand s)) 0 n := by
  have hle : ((extractBitStep d)^[n] (extractBegin d s)).runLen ≤ n :=
    ((le_extract_runLen_iff d s n _).1 le_rfl).1
  have hiff := le_extract_runLen_iff d s n n
  rw [Nat.sub_self, and_iff_right le_rfl] at hiff
  exact hle.ge_iff_eq.symm.trans hiff

/-- A bit step decides the phase anew, so the steps from the start of a command and from its entry count and read the
same (R193). -/
theorem extractBitStep_iterate_start (d : Direction) (s : State) (n : Nat) :
    ((extractBitStep d)^[n] (startCommand s)).runLen =
        ((extractBitStep d)^[n] (extractBegin d s)).runLen ∧
      ((extractBitStep d)^[n] (startCommand s)).bitBuf =
        ((extractBitStep d)^[n] (extractBegin d s)).bitBuf := by
  cases n with
  | zero => exact ⟨rfl, rfl⟩
  | succ n =>
    have hstep : extractBitStep d (extractBegin d s) = extractBitStep d (startCommand s) := rfl
    rw [Function.iterate_succ_apply, Function.iterate_succ_apply, hstep]
    exact ⟨rfl, rfl⟩

/-- Settles O39: the counter has reached `r` exactly when the last `r` bits are all equal, for every `r`. -/
theorem runCounterAgreesWithWindow : Obligations.RunCounterAgreesWithWindow := by
  intro d s n
  obtain ⟨hlen, hbuf⟩ := extractBitStep_iterate_start d s n
  have hread : ∀ a < n, readBitBuf ((extractBitStep d)^[n] (startCommand s)).bitBuf a =
      lsbAt d (startCommand s) a := fun a ha => by
    rw [hbuf, readBitBuf, extract_bits d n s ha, Option.getD_some]
  have hiff (r : Nat) : r ≤ ((extractBitStep d)^[n] (startCommand s)).runLen ↔ r ≤ n ∧
      AllEqual (readBitBuf ((extractBitStep d)^[n] (startCommand s)).bitBuf) (n - r) n := by
    rw [hlen, le_extract_runLen_iff, allEqual_congr hread]
  obtain ⟨hle, hrun⟩ := (hiff _).1 le_rfl
  refine ⟨hle, hrun, fun r hr hall => (hiff r).2 ⟨hr, hall⟩, fun k _ hkn => ?_, ?_⟩
  · rw [hiff, and_iff_right hkn]
  · rw [hlen, extract_runLen_eq_iff, allEqual_congr hread]

/-! ## Scans that are stopped by the trigger -/

/-- A scan stopped by the trigger drops the last `8 × K` bits, or everything if all bits are equal (R198, R199). -/
theorem scanLen_of_stopsAt (hs : ShapeHonest s) (hn : n ≤ s.cap d) (h : stopsAt d s n = true) :
    (AllEqual (stream d s) 0 n → scanLen d s n = 0) ∧
      (¬ AllEqual (stream d s) 0 n → scanLen d s n = n - 8 * s.kreg.toNat) := by
  have hstream : AllEqual (stream d s) 0 n ↔
      ((extractBitStep d)^[n] (extractBegin d s)).runLen = n := by
    rw [extract_runLen_eq_iff]
    exact allEqual_congr fun a ha => (hs.lsbAt_startCommand (ha.trans_le hn)).symm
  rw [hstream, scanLen, extractedLen, if_pos h]
  exact ⟨fun hall => if_pos hall, fun hmixed => if_neg hmixed⟩

/-- The first trigger of the window form is where the scan stops (R194). -/
theorem scanStops_of_firstTrigger (hs : ShapeHonest s) (hd : heuristic d = true)
    (h : FirstTrigger (stream d s) s.kreg.toNat (s.cap d) n) :
    ScanStops d s n ∧ stopsAt d s n = true := by
  obtain ⟨hn, hwin, hfirst⟩ := h
  have htrig := (stopsAt_iff_windowTrigger hs hd hn).2 hwin
  have hpos : 0 < n := by have := hwin.1; omega
  exact ⟨⟨hn, fun l _ hl => Bool.eq_false_iff.2 fun hstop =>
    hfirst l hl ((stopsAt_iff_windowTrigger hs hd (hl.le.trans hn)).1 hstop), .inr ⟨hpos, htrig⟩⟩, htrig⟩

theorem kreg_pos (hk : s.kreg ≠ 0) : 0 < s.kreg.toNat :=
  Nat.pos_of_ne_zero fun h => hk (BitVec.eq_of_toNat_eq h)

/-- Settles O38: the scan stops at the first trigger, and what it keeps there depends on whether all bits are equal. -/
theorem scanStopsAtFirstTrigger : Obligations.ScanStopsAtFirstTrigger := by
  intro i d s n hi hk hs hfirst
  have hd := (mem_scans_iff.1 hi).2
  obtain ⟨hstops, htrig⟩ := scanStops_of_firstTrigger hs hd (cap_of_heuristic hd s ▸ hfirst)
  obtain ⟨hexec, hframe⟩ := exec_scan hi hk hstops
  obtain ⟨hnone, hsome⟩ := scanLen_of_stopsAt hs hstops.le_cap htrig
  have hend := endsDone_scanEnd d s n
  have hread := holdsPrefix_scanEnd hs hstops.le_cap
  rw [htrig] at hend
  refine ⟨_, hexec, scanEnd_offs d s n, hframe, fun hall => ?_, fun hmixed => ?_,
    firstTrigger_run_exact hfirst (kreg_pos hk)⟩
  · rw [hnone hall] at hend
    exact ⟨hend, (scanEnd_bitlen d s n).trans (hnone hall), firstTrigger_of_allEqual hfirst hall⟩
  · obtain ⟨-, ⟨hmin, -⟩, -⟩ := hfirst
    have hkept : (n - 8 * s.kreg.toNat == 0) = false := beq_false_of_ne (by omega)
    rw [hsome hmixed] at hend hread
    exact ⟨hkept ▸ hend, hread⟩

end Sys2Proof.Safety
end

section
/-! SUPPORT. What a scan makes of a payload that a constant tail follows (44_extract_sequencer R204 to R209): the count
at which the tail triggers, the bits kept there, and the bytes packed from them. -/

namespace Sys2Proof.Safety

open Sys2Proof.Machine

variable {s t : State} {i : Instr} {d : Direction} {S : Nat → Bit} {tail : Bit} {e k m n : Nat}

/-! ## How a command ended -/

theorem EndsDone.empty_eq {empty term : Bool} (h : EndsDone t empty term) : t.empty = empty := by
  rw [State.empty, h.1]
  cases empty <;> cases term <;> rfl

theorem EndsDone.term_eq {empty term : Bool} (h : EndsDone t empty term) : t.term = term := by
  rw [State.term, h.1]
  cases empty <;> cases term <;> rfl

theorem exec_unique {u : State} (ht : exec i s = .next t) (hu : exec i s = .next u) : t = u :=
  Host.Outcome.next.inj (ht.symm.trans hu)

/-! ## The first trigger -/

/-- Settles O42: the first trigger is at the window given or before it. -/
theorem runsCutThePayload : Obligations.RunsCutThePayload := by
  intro i d s n hi hk hs hn hwin
  obtain ⟨l, hl, hfirst⟩ := exists_firstTrigger hn hwin
  obtain ⟨t, hexec, hoffs, -, hnone, hsome, -⟩ := scanStopsAtFirstTrigger i d s l hi hk hs hfirst
  refine ⟨t, hexec, ?_⟩
  by_cases hall : AllEqual (stream d s) 0 l
  · obtain ⟨hend, hlen, -⟩ := hnone hall
    exact ⟨hend.term_eq, by omega, by omega⟩
  · obtain ⟨hend, hlen, -⟩ := hsome hall
    exact ⟨hend.term_eq, by omega, by omega⟩

/-- Settles O40: bits that are all equal trigger at the first possible count, and fewer bits never do. -/
theorem uniformStartYieldsNothing : Obligations.UniformStartYieldsNothing := by
  intro i d s hi hk hs
  refine ⟨fun hroom hall => ?_, fun hsmall => ?_⟩
  · have hfirst : FirstTrigger (stream d s) s.kreg.toNat (s.imgW * s.imgH) (8 * (s.kreg.toNat + 1)) :=
      ⟨hroom, ⟨le_rfl, allEqual_mono hall (Nat.zero_le _) le_rfl⟩,
        fun l hl hwin => absurd hwin.1 (Nat.not_le.2 hl)⟩
    obtain ⟨t, hexec, -, -, hnone, -⟩ := scanStopsAtFirstTrigger i d s _ hi hk hs hfirst
    obtain ⟨hend, hlen, -⟩ := hnone hall
    exact ⟨t, hexec, hend, hlen⟩
  · obtain ⟨hexhausts, hnever⟩ := exhaustedScanReturnsAll i d s hi hk hs
    obtain ⟨t, hexec, hend, -, hlen, -⟩ := hexhausts (hnever hsmall)
    exact ⟨t, hexec, hend.term_eq, hlen⟩

/-! ## A payload and its tail -/

/-- The `m` bits of `S` are a payload up to index `e`, whose last bit there is not `tail`, and then `tail` only: `e` is
`N - z` in R204. -/
structure TailFrom (S : Nat → Bit) (tail : Bit) (m e : Nat) : Prop where
  const : ∀ j < m, e ≤ j → S j = tail
  last : 0 < e → S (e - 1) = !tail

/-- The count at which the tail triggers, `t*` in R204. -/
def tailTrigger (k e : Nat) : Nat := max (e + 8 * k) (8 * k + 8)

/-- At `t*` the window lies in the tail and leaves `max e 8` bits before it. -/
theorem tailTrigger_sub (k e : Nat) : tailTrigger k e - 8 * k = max e 8 := by
  unfold tailTrigger
  omega

theorem TailFrom.windowTrigger (h : TailFrom S tail m e) (hroom : tailTrigger k e ≤ m) :
    WindowTrigger S k (tailTrigger k e) := by
  refine ⟨by unfold tailTrigger; omega, ?_⟩
  rw [tailTrigger_sub]
  have hconst : ∀ a < tailTrigger k e, max e 8 ≤ a → S a = tail := fun a ha hle =>
    h.const a (ha.trans_le hroom) ((Nat.le_max_left e 8).trans hle)
  exact fun a ha b hb hla hlb => (hconst a ha hla).trans (hconst b hb hlb).symm

/-- Beyond the payload the bits read are not all equal: the payload's last bit and the first of the tail differ. -/
theorem TailFrom.not_allEqual (h : TailFrom S tail m e) (he : 0 < e) (hen : e < n) (hn : n ≤ m) :
    ¬ AllEqual S 0 n := by
  intro hall
  have hsame := hall (e - 1) (by omega) e hen (Nat.zero_le _) (Nat.zero_le _)
  rw [h.last he, h.const e (by omega) le_rfl] at hsame
  exact Bool.not_ne_self tail hsame

/-- R204, the special case: with no earlier trigger the scan stops at `t*`, and keeps nothing of an empty payload, or
the first `max e 8` bits. -/
theorem scan_recovers_payload (hi : (i, d) ∈ scans) (hk : s.kreg ≠ 0) (hs : ShapeHonest s)
    (h : TailFrom (stream d s) tail (s.imgW * s.imgH) e)
    (hroom : e + 8 * (s.kreg.toNat + 1) ≤ s.imgW * s.imgH)
    (hearly : ∀ n < tailTrigger s.kreg.toNat e, ¬ WindowTrigger (stream d s) s.kreg.toNat n) :
    ∃ t, exec i s = .next t ∧ t.term = true ∧ (e = 0 → t.empty = true ∧ t.bitlen = 0) ∧
      (0 < e → t.empty = false ∧ HoldsPrefix t (stream d s) (max e 8)) := by
  have hcount : tailTrigger s.kreg.toNat e ≤ s.imgW * s.imgH := by unfold tailTrigger; omega
  obtain ⟨t, hexec, -, -, hnone, hsome, -⟩ := scanStopsAtFirstTrigger i d s _ hi hk hs
    ⟨hcount, h.windowTrigger hcount, hearly⟩
  rw [tailTrigger_sub] at hsome
  rcases Nat.eq_zero_or_pos e with rfl | he
  · have hall : AllEqual (stream d s) 0 (tailTrigger s.kreg.toNat 0) := fun a ha b hb _ _ =>
      (h.const a (by omega) (Nat.zero_le a)).trans (h.const b (by omega) (Nat.zero_le b)).symm
    obtain ⟨hend, hlen, -⟩ := hnone hall
    exact ⟨t, hexec, hend.term_eq, fun _ => ⟨hend.empty_eq, hlen⟩, nofun⟩
  · have hpast : e < tailTrigger s.kreg.toNat e := by
      have := kreg_pos hk
      unfold tailTrigger
      omega
    obtain ⟨hend, hread⟩ := hsome (h.not_allEqual he hpast hcount)
    exact ⟨t, hexec, hend.term_eq, by omega, fun _ => ⟨hend.empty_eq, hread⟩⟩

/-- The three cases of R204's table for a payload and its tail. -/
theorem payloadThenTail_isRecovered (hi : (i, d) ∈ scans) (hk : s.kreg ≠ 0) (hs : ShapeHonest s)
    (h : TailFrom (stream d s) tail (s.imgW * s.imgH) e)
    (hroom : e + 8 * (s.kreg.toNat + 1) ≤ s.imgW * s.imgH)
    (hearly : ∀ n < tailTrigger s.kreg.toNat e, ¬ WindowTrigger (stream d s) s.kreg.toNat n) :
    ∃ t, exec i s = .next t ∧ t.term = true ∧ (e = 0 → t.empty = true ∧ t.bitlen = 0) ∧
      (0 < e → e < 8 → t.empty = false ∧ HoldsPrefix t (stream d s) 8) ∧
      (8 ≤ e → t.empty = false ∧ HoldsPrefix t (stream d s) e) := by
  obtain ⟨t, hexec, hterm, hnone, hsome⟩ := scan_recovers_payload hi hk hs h hroom hearly
  refine ⟨t, hexec, hterm, hnone, fun he hshort => ?_, fun hlong => ?_⟩
  · exact max_eq_right hshort.le ▸ hsome he
  · exact max_eq_left hlong ▸ hsome (by omega)

/-- Settles O41: a tail of zeros. -/
theorem payloadThenZerosIsRecovered : Obligations.PayloadThenZerosIsRecovered := by
  intro i d s N e hi hk hs hroom heN htail hlast hearly
  exact payloadThenTail_isRecovered hi hk hs ⟨htail, hlast⟩ (by omega) hearly

/-- Settles O57: a tail of ones. -/
theorem payloadThenOnesIsRecovered : Obligations.PayloadThenOnesIsRecovered := by
  intro i d s N e hi hk hs hroom heN htail hlast hearly
  exact payloadThenTail_isRecovered hi hk hs ⟨htail, hlast⟩ (by omega) hearly

/-- Settles O58: a result of `N` bits at a trigger before `t*` would be shorter than the payload, and at `t*` the result
is `max e 8` bits. -/
theorem payloadIsReturnedExactlyWhen : Obligations.PayloadIsReturnedExactlyWhen := by
  intro i d s N e hi hk hs hroom he heN htail hlast
  have h : TailFrom (stream d s) false (s.imgW * s.imgH) e := ⟨htail, fun _ => hlast⟩
  have hcount : tailTrigger s.kreg.toNat e ≤ s.imgW * s.imgH := by unfold tailTrigger; omega
  obtain ⟨l, hl, hfirst⟩ := exists_firstTrigger hcount (h.windowTrigger hcount)
  obtain ⟨t, hexec, -, -, hnone, hsome, -⟩ := scanStopsAtFirstTrigger i d s l hi hk hs hfirst
  refine ⟨t, hexec, fun ⟨hlen, _⟩ => ?_, fun ⟨hearly, hN⟩ => ?_⟩
  · have hkept : l - 8 * s.kreg.toNat = N := by
      by_cases hall : AllEqual (stream d s) 0 l
      · obtain ⟨-, hempty, -⟩ := hnone hall
        omega
      · obtain ⟨-, hlength, -⟩ := hsome hall
        exact hlength.symm.trans hlen
    obtain ⟨-, ⟨hmin, -⟩, hearly⟩ := hfirst
    have hcountEq : l = tailTrigger s.kreg.toNat e := by
      unfold tailTrigger at hl ⊢
      omega
    have hN : max e 8 = N := by rw [← hkept, hcountEq, tailTrigger_sub]
    exact ⟨fun n hn => hearly n (hn.trans_eq hcountEq.symm), by omega⟩
  · obtain ⟨u, hu, -, -, hread⟩ := scan_recovers_payload hi hk hs h (by omega) hearly
    obtain rfl := exec_unique hexec hu
    have hlen : max e 8 = N := by omega
    exact hlen ▸ (hread he).2

/-! ## The payload's bytes -/

/-- Settles O59: the bits past the end of the sequence, with which `BITS2BYTES` pads, are those of the tail. -/
theorem payloadBytesAreRecovered : Obligations.PayloadBytesAreRecovered := by
  intro i d s N e hi hk hs hroom hwhole hlow heN htail hlast hearly
  have he : 0 < e := by omega
  obtain ⟨t, hexec, -, -, hread⟩ := scan_recovers_payload (tail := false) hi hk hs
    ⟨htail, fun _ => hlast⟩ (by omega) hearly
  obtain ⟨-, hlen, hbits⟩ := hread he
  obtain ⟨u, v, hu, hv, hagree, -, -⟩ :=
    decodingsDifferOnRaggedTail { t with bytelen := 0, byteBuf := State.reset.byteBuf }
  obtain ⟨u', hu', -, -, -, hulen, hubits⟩ :=
    bitsToBytesResult.2 { t with bytelen := 0, byteBuf := State.reset.byteBuf }
  obtain ⟨v', hv', -, -, -, hvlen, -⟩ :=
    bitsToTextResult.2 { t with bytelen := 0, byteBuf := State.reset.byteBuf }
  obtain rfl := exec_unique hu hu'
  obtain rfl := exec_unique hv hv'
  simp only [hlen] at hulen hubits hvlen
  have hceil : (max e 8 + 7) / 8 = N / 8 := by omega
  refine ⟨t, u, v, hexec, hu, hv, by omega, fun j hj k hk => ?_, fun _ => by omega,
    fun _ _ => by omega, fun j hj => (hagree j hj).symm⟩
  rw [hubits j (by omega) k hk]
  split_ifs with hin
  · exact hbits _ hin
  · exact (htail _ (by omega) (by omega)).symm

end Sys2Proof.Safety
end

section
/-! SUPPORT. How every command ends (60_exceptions R230, R240, 10_state R28): refused by its first failing check, or
complete with no error reported. What holds of both ends holds of every command. -/

namespace Sys2Proof.Safety

open Sys2Proof.Machine

variable {s t : State} {failure : Option (ErrorKind × Nat)}

/-! ## The two ends -/

/-- How a command with the started state `s` ends: with the error its checks found, or complete if they found none. -/
inductive EndsAs (failure : Option (ErrorKind × Nat)) (s : State) : State → Prop where
  | refused {e : ErrorKind} {info : Nat} (hfail : failure = some (e, info)) : EndsAs failure s (raise e info s)
  | completed {empty term : Bool} {v : State} (hpass : failure = none) (hclean : NoErrorYet v) :
      EndsAs failure s (complete empty term v)

/-- Behind its checks a command ends as they say, if its effect ends complete. -/
theorem EndsAs.checked {go : State → State} (h : EndsAs none s (go s)) :
    EndsAs failure s (checked failure s go) := by
  rcases failure with _ | ⟨e, info⟩
  · exact h
  · exact .refused rfl

/-- The bit-step loop reports no error. -/
theorem NoErrorYet.runPhase {f : State → State} (h : NoErrorYet s) (hf : ∀ u, SameButWork u (f u)) (fuel : Nat) :
    NoErrorYet (runPhase f fuel s) :=
  runPhase_keeps fuel (fun u _ hu => hu.of_sameButWork (hf u)) h

/-! ## The end of each command -/

/-- The checks of each command (R225). -/
def commandCheck : Instr → State → Option (ErrorKind × Nat)
  | .bytes2bits => bytesToBitsCheck
  | .text2bits => bytesToBitsCheck
  | .bits2bytes => fun _ => none
  | .bits2text => fun _ => none
  | .setlsb pos => setlsbCheck pos
  | .getlsb pos => getlsbCheck pos
  | .addrH => addrCheck .horizontal
  | .addrV => addrCheck .vertical
  | .addrD => addrCheck .diagonal
  | .capH => fun _ => none
  | .capV => fun _ => none
  | .capD => fun _ => none
  | .embedH => embedCheck .horizontal
  | .embedV => embedCheck .vertical
  | .embedD => embedCheck .diagonal
  | .extractH => extractCheck .horizontal
  | .extractV => extractCheck .vertical
  | .extractD => extractCheck .diagonal
  | .extractnH => extractnCheck .horizontal
  | .extractnV => extractnCheck .vertical
  | .extractnD => extractnCheck .diagonal

theorem endsAs_embedBody (h : NoErrorYet s) (d : Direction) : EndsAs (embedCheck d s) s (embedBody d s) :=
  have henter := h.of_sameButWork (sameButWork_embedEnter s)
  .checked (.completed rfl (henter.runPhase (sameButWork_embedBitStep d) s.bitlen))

theorem endsAs_extractBody (h : NoErrorYet s) (d : Direction) : EndsAs (extractCheck d s) s (extractBody d s) :=
  have henter := h.of_sameButWork (sameButWork_extractEnter d s)
  have ⟨hcode, hinfo⟩ := henter.runPhase (sameButWork_extractBitStep d) (s.cap d)
  .checked (.completed rfl ⟨hcode, hinfo⟩)

theorem endsAs_extractnBody (h : NoErrorYet s) (d : Direction) :
    EndsAs (extractnCheck d s) s (extractnBody d s) :=
  have henter := h.of_sameButWork (sameButWork_extractnEnter s)
  have ⟨hcode, hinfo⟩ := henter.runPhase (sameButWork_extractnBitStep d) s.nwin
  .checked (.completed rfl ⟨hcode, hinfo⟩)

theorem endsAs_commandBody (h : NoErrorYet s) (i : Instr) : EndsAs (commandCheck i s) s (commandBody i s) := by
  cases i with
  | embedH => exact endsAs_embedBody h .horizontal
  | embedV => exact endsAs_embedBody h .vertical
  | embedD => exact endsAs_embedBody h .diagonal
  | extractH => exact endsAs_extractBody h .horizontal
  | extractV => exact endsAs_extractBody h .vertical
  | extractD => exact endsAs_extractBody h .diagonal
  | extractnH => exact endsAs_extractnBody h .horizontal
  | extractnV => exact endsAs_extractnBody h .vertical
  | extractnD => exact endsAs_extractnBody h .diagonal
  | bits2bytes => exact .completed rfl h
  | bits2text => exact .completed rfl h
  | capH => exact .completed rfl h
  | capV => exact .completed rfl h
  | capD => exact .completed rfl h
  | _ => exact .checked (.completed rfl h)

/-- The checks read nothing that the start of a command writes. -/
theorem commandCheck_startCommand (i : Instr) (s : State) :
    commandCheck i (startCommand s) = commandCheck i s := by cases i <;> rfl

/-- What a command answers is one of the two ends of its started state. -/
theorem endsAs_of_exec {i : Instr} (hexec : exec i s = .next t) :
    EndsAs (commandCheck i s) (startCommand s) t := by
  rw [← exec_eq_next_iff.1 hexec, ← commandCheck_startCommand i s]
  exact endsAs_commandBody (noErrorYet_startCommand s) i

/-! ## What holds of both ends -/

theorem statusWord_toNat_lt (busy done err empty term : Bool) :
    (statusWord busy done err empty term).toNat < 32 := by
  revert busy done err empty term; decide

/-- Either end leaves the block idle, with exactly one of `DONE` and `ERR` (R28, R30). -/
theorem EndsAs.idle (h : EndsAs failure s t) :
    t.busy = false ∧ t.phase = .idle ∧ t.done = !t.err ∧ t.status.toNat < 32 := by
  cases h with
  | refused => exact ⟨raise_busy _ _ _, rfl, by simp, statusWord_toNat_lt _ _ _ _ _⟩
  | completed => exact ⟨complete_busy _ _ _, rfl, by simp, statusWord_toNat_lt _ _ _ _ _⟩

/-- Settles O9: every command answers one of its two ends. -/
theorem everyCommandEndsIdle : Obligations.EveryCommandEndsIdle := by
  intro i s
  have hexec := exec_eq_commandBody i s
  exact ⟨_, hexec, (endsAs_of_exec hexec).idle⟩

theorem codeOfError_range (e : ErrorKind) : 1 ≤ (codeOfError e).toNat ∧ (codeOfError e).toNat ≤ 5 := by
  cases e <;> decide

/-- Only `CapacityExceeded` reports a size (R34). -/
theorem errorInfo_of_code_ne {e : ErrorKind} (info : Nat) (h : codeOfError e ≠ 2) : errorInfo e info = 0 := by
  cases e with
  | capacityExceeded => exact absurd rfl h
  | _ => rfl

/-- Settles O47: the end with `ERR` set is the one operation `raise`, on the started state. -/
theorem errorsArePrecise : Obligations.ErrorsArePrecise := by
  intro i s t hexec herr
  cases endsAs_of_exec hexec with
  | completed => simp at herr
  | @refused e info hfail =>
    obtain ⟨hlow, hhigh⟩ := codeOfError_range e
    exact ⟨(frameExcept_startCommand _ s).trans (frameExcept_raise _ e info _), rfl, rfl, hlow, hhigh,
      errorInfo_of_code_ne info⟩

end Sys2Proof.Safety
end

section
/-! SUPPORT. The order of checks (60_exceptions R225): the table's first failing test is the error the command's own
checks find. -/

namespace Sys2Proof.Safety

open Sys2Proof.Machine

variable {s t : State} {failure : Option (ErrorKind × Nat)}

/-- What `ERRCODE` and `ERRINFO` hold after a command whose checks answered this (R34, R220). -/
def reported : Option (ErrorKind × Nat) → BitVec 8 × Nat
  | some (e, info) => (codeOfError e, errorInfo e info)
  | none => (0, 0)

@[simp] theorem reported_none : reported none = (0, 0) := rfl

@[simp] theorem reported_shapeMismatch (info : Nat) : reported (some (.shapeMismatch, info)) = (1, 0) := rfl

@[simp] theorem reported_capacityExceeded (info : Nat) :
    reported (some (.capacityExceeded, info)) = (2, info) := rfl

@[simp] theorem reported_invalidBit (info : Nat) : reported (some (.invalidBit, info)) = (3, 0) := rfl

@[simp] theorem reported_invalidPosition (info : Nat) : reported (some (.invalidPosition, info)) = (4, 0) := rfl

@[simp] theorem reported_illegalOperand (info : Nat) : reported (some (.illegalOperand, info)) = (5, 0) := rfl

/-- Either end reports what the checks found, and `ERR` says whether they found something (R30, R33). -/
theorem EndsAs.reports (h : EndsAs failure s t) :
    (t.errcode, t.errinfo) = reported failure ∧ (t.err = true ↔ t.errcode ≠ 0) := by
  cases h with
  | @refused e info hfail =>
    have hcode : codeOfError e ≠ 0 := by cases e <;> decide
    exact ⟨hfail ▸ rfl, iff_of_true (raise_err e info s) hcode⟩
  | completed hpass hclean =>
    obtain ⟨hcode, hinfo⟩ := hclean
    exact ⟨hpass ▸ Prod.ext hcode hinfo, iff_of_false (by simp) (not_not_intro hcode)⟩

/-! ## Both orders as chains of tests -/

/-- The code and the report of the first failing row. -/
def firstReport : List (Bool × BitVec 8 × Nat) → BitVec 8 × Nat
  | [] => (0, 0)
  | (fails, code, info) :: rows => if fails then (code, info) else firstReport rows

theorem firstFailure_eq_firstReport (i : Instr) (s : State) :
    firstFailure i s = firstReport (checkTable i s) := by
  unfold firstFailure
  induction checkTable i s with
  | nil => rfl
  | cons row rows ih =>
    obtain ⟨fails, code, info⟩ := row
    cases fails with
    | true => rfl
    | false => exact ih

/-- The table's order and the order of the command's own checks are the same chain of tests. -/
theorem firstFailure_eq_reported (i : Instr) (s : State) : firstFailure i s = reported (commandCheck i s) := by
  rw [firstFailure_eq_firstReport]
  cases i with
  | bytes2bits | text2bits =>
    simp [checkTable, firstReport, commandCheck, bytesToBitsCheck, Config.offsetBits, apply_ite reported]
  | bits2bytes | bits2text | capH | capV | capD => rfl
  | setlsb pos => simp [checkTable, firstReport, commandCheck, setlsbCheck, apply_ite reported]
  | getlsb pos => simp [checkTable, firstReport, commandCheck, getlsbCheck, apply_ite reported]
  | addrH | addrV | addrD =>
    simp [checkTable, firstReport, commandCheck, addrCheck, State.cap, cap, apply_ite reported]
  | embedH | embedV | embedD =>
    simp [checkTable, firstReport, commandCheck, embedCheck, shapeMismatch, State.cap, cap, apply_ite reported]
  | extractH | extractV | extractD =>
    simp [checkTable, firstReport, commandCheck, extractCheck, heuristic, shapeMismatch, apply_ite reported]
  | extractnH | extractnV | extractnD =>
    simp [checkTable, firstReport, commandCheck, extractnCheck, shapeMismatch, State.cap, cap, apply_ite reported]

/-- Settles O48: a word is refused by its decode test, or runs a command that ends as its checks say, and these find
what the table's first failing row says. -/
theorem firstFailureIsReported : Obligations.FirstFailureIsReported := by
  intro w s t hissue
  rcases issue_cases w s with ⟨e, hdecode, heq⟩ | ⟨i, hdecode, heq⟩ <;> rw [hdecode]
  · obtain rfl := Host.Outcome.next.inj (heq.symm.trans hissue)
    exact EndsAs.reports (.refused (e := .illegalOperand) (info := 0) rfl)
  · have hend := endsAs_of_exec (heq.symm.trans hissue)
    obtain ⟨hreport, herr⟩ := hend.reports
    exact ⟨hreport.trans (firstFailure_eq_reported i { s with cmd := w }).symm, herr⟩

end Sys2Proof.Safety
end

section
/-! SUPPORT. Phase by phase, every command reaches the state of the atomic command (10_state R39 to R41, 60_exceptions
R240). A command without bit steps is one phase step. The sequenced commands share one shape: a step that makes the
checks, the bit steps, and a step that finishes. -/

namespace Sys2Proof.Safety

open Sys2Proof.Machine

variable {s t : State} {i : Instr} {n : Nat}

/-! ## A run of phase steps -/

/-- The sequencer is within the command `i`, and no host statement is pending. -/
structure InCommand (i : Instr) (s : State) : Prop where
  busy : s.busy = true
  script : s.script = []
  decodes : decode s.cmd = .instr i

/-- The block is idle, and no host statement is pending. -/
structure Waiting (s : State) : Prop where
  idle : s.busy = false
  script : s.script = []

theorem step_waiting (h : Waiting s) : step s = .next s := by
  simp [step, h.idle, idleStep, h.script]

/-- Settles O7: an idle step takes a pending statement, and there is none. -/
theorem idleBlockWaits : Obligations.IdleBlockWaits := fun _ hidle hscript => step_waiting ⟨hidle, hscript⟩

/-- Within a command a step is one phase step of it (log entry 13). -/
theorem InCommand.step_eq (h : InCommand i s) : step s = .next (tickInstr i s) := by
  simp [step, h.busy, busyStep, h.script, tick, h.decodes]

theorem InCommand.of_sameButWork (h : InCommand i s) (hsame : SameButWork s t) : InCommand i t where
  busy := (congrArg (·.getLsbD 0) hsame.status).trans h.busy
  script := hsame.script.trans h.script
  decodes := (congrArg decode hsame.cmd).trans h.decodes

theorem run_succ (n : Nat) (h : step s = .next t) : core.run (n + 1) s = core.run n t := by
  have hcore : core.step s = .next t := h
  simp only [Host.Core.run, hcore]

theorem run_waiting (h : Waiting s) (n : Nat) : core.run n s = .next s := by
  induction n with
  | zero => rfl
  | succ n ih => rw [run_succ n (step_waiting h), ih]

/-- A run that has made the last phase step of its command stays where the command ended. -/
theorem InCommand.run_last (h : InCommand i s) (hend : Waiting (tickInstr i s)) (hn : 1 ≤ n) :
    core.run n s = .next (tickInstr i s) := by
  obtain ⟨m, rfl⟩ := Nat.exists_eq_add_of_le' hn
  rw [run_succ m h.step_eq, run_waiting hend]

/-- Every command ends idle, and none writes the host's list of statements. -/
theorem waiting_commandBody (hscript : s.script = []) (i : Instr) : Waiting (commandBody i (startCommand s)) := by
  have hexec := exec_eq_commandBody i s
  obtain ⟨hidle, -⟩ := (endsAs_of_exec hexec).idle
  obtain ⟨hsetup, -⟩ := commandsWriteOnlyTheirTargets i s _ hexec
  exact ⟨hidle, hsetup.script.trans hscript⟩

/-! ## Sequenced commands -/

/-- A command in the phases of R41: its checks, the entry into its bit steps, one bit step, its end, and the offset at
which its bit steps end if nothing ends them earlier. Entry and bit steps change the working registers and the stores
only. -/
structure Sequenced where
  check : State → Option (ErrorKind × Nat)
  enter : State → State
  bitStep : State → State
  finish : State → State
  limit : State → Nat
  limit_le : ∀ s, check s = none → limit s ≤ s.imgW * s.imgH
  limit_same : ∀ s t, SameButWork s t → limit t = limit s
  enter_same : ∀ s, SameButWork s (enter s)
  enter_offs : ∀ s, (enter s).offs = s.offs
  enter_phase : ∀ s, (enter s).phase = if limit s = 0 then .finish else .run
  bitStep_same : ∀ s, SameButWork s (bitStep s)
  bitStep_offs : ∀ s, (bitStep s).offs = s.offs + 1
  bitStep_phase : ∀ s, (bitStep s).phase = .finish ∨
    (bitStep s).phase = if s.offs + 1 = limit s then .finish else .run

/-- One phase step (R41). -/
def Sequenced.tick (c : Sequenced) (s : State) : State :=
  match s.phase with
  | .idle => s
  | .check => checked (c.check s) s c.enter
  | .run => c.bitStep s
  | .finish => c.finish s

/-- The bit steps and the end. -/
def Sequenced.go (c : Sequenced) (s : State) : State := c.finish (runPhase c.bitStep (c.limit s) (c.enter s))

/-- The command after its start. -/
def Sequenced.body (c : Sequenced) (s : State) : State := checked (c.check s) s c.go

theorem Sequenced.tick_check (c : Sequenced) (h : s.phase = .check) :
    c.tick s = checked (c.check s) s c.enter := by simp [tick, h]

theorem Sequenced.tick_run (c : Sequenced) (h : s.phase = .run) : c.tick s = c.bitStep s := by simp [tick, h]

theorem Sequenced.tick_finish (c : Sequenced) (h : s.phase = .finish) : c.tick s = c.finish s := by simp [tick, h]

/-- Between two bit steps: the end is reached, or the limit is still ahead. -/
def Sequenced.Looping (c : Sequenced) (s : State) : Prop :=
  s.phase = .finish ∨ (s.phase = .run ∧ s.offs < c.limit s)

theorem Sequenced.looping_enter (c : Sequenced) (h : s.offs = 0) : c.Looping (c.enter s) := by
  have hphase := c.enter_phase s
  split_ifs at hphase with h0
  · exact .inl hphase
  · refine .inr ⟨hphase, ?_⟩
    rw [c.enter_offs, h, c.limit_same _ _ (c.enter_same s)]
    exact Nat.pos_of_ne_zero h0

theorem Sequenced.looping_bitStep (c : Sequenced) (h : s.offs < c.limit s) : c.Looping (c.bitStep s) := by
  rcases c.bitStep_phase s with hphase | hphase
  · exact .inl hphase
  · split_ifs at hphase with hlast
    · exact .inl hphase
    · refine .inr ⟨hphase, ?_⟩
      rw [c.bitStep_offs, c.limit_same _ _ (c.bitStep_same s)]
      omega

/-- The loop ends in `FINISH` when it may make as many bit steps as are left to the limit. -/
theorem Sequenced.runPhase_finishes (c : Sequenced) {fuel : Nat} (h : c.Looping s)
    (hfuel : c.limit s ≤ s.offs + fuel) : (runPhase c.bitStep fuel s).phase = .finish := by
  induction fuel generalizing s with
  | zero =>
    obtain hfinish | ⟨-, hlt⟩ := h
    · exact hfinish
    · omega
  | succ fuel ih =>
    obtain hfinish | ⟨hrun, hlt⟩ := h
    · rw [runPhase_stopped _ _ (by simp [hfinish]), hfinish]
    · simp only [runPhase, hrun, if_true]
      refine ih (c.looping_bitStep hlt) ?_
      rw [c.bitStep_offs, c.limit_same _ _ (c.bitStep_same s)]
      omega

section
variable {c : Sequenced} (htick : tickInstr i = c.tick)
include htick

/-- Phase steps from a state whose bit-step loop leads to `FINISH` make the loop and the end. -/
theorem Sequenced.run_loop {fuel : Nat} (h : InCommand i s) (hfinish : (runPhase c.bitStep fuel s).phase = .finish)
    (hend : Waiting (c.finish (runPhase c.bitStep fuel s))) (hn : fuel + 1 ≤ n) :
    core.run n s = .next (c.finish (runPhase c.bitStep fuel s)) := by
  induction fuel generalizing s n with
  | zero =>
    have hlast : tickInstr i s = c.finish s := htick ▸ c.tick_finish hfinish
    exact (h.run_last (hlast ▸ hend) hn).trans (congrArg Host.Outcome.next hlast)
  | succ fuel ih =>
    by_cases hrun : s.phase = .run
    · obtain ⟨m, rfl⟩ := Nat.exists_eq_add_of_le' (show 1 ≤ n by omega)
      have hbit : tickInstr i s = c.bitStep s := htick ▸ c.tick_run hrun
      simp only [runPhase, hrun, if_true] at hfinish hend ⊢
      rw [run_succ m h.step_eq, hbit]
      exact ih (h.of_sameButWork (c.bitStep_same s)) hfinish hend (by omega)
    · rw [runPhase_stopped _ _ hrun] at hfinish hend ⊢
      have hlast : tickInstr i s = c.finish s := htick ▸ c.tick_finish hfinish
      rw [h.run_last (hlast ▸ hend) (by omega), hlast]

/-- Phase steps from the start of a sequenced command reach its end, in error or past its checks. -/
theorem Sequenced.run_start (h : InCommand i (startCommand s)) (hend : Waiting (c.body (startCommand s)))
    (hn : s.imgW * s.imgH + 2 ≤ n) :
    core.run n (startCommand s) = .next (c.body (startCommand s)) := by
  have hcheck : tickInstr i (startCommand s) = checked (c.check (startCommand s)) (startCommand s) c.enter :=
    htick ▸ c.tick_check rfl
  rcases hfail : c.check (startCommand s) with _ | ⟨e, info⟩ <;>
    simp only [Sequenced.body, hfail, checked] at hcheck hend ⊢
  · obtain ⟨m, rfl⟩ := Nat.exists_eq_add_of_le' (show 1 ≤ n by omega)
    have hlimit : c.limit (startCommand s) ≤ s.imgW * s.imgH := c.limit_le _ hfail
    have hfinish : (runPhase c.bitStep (c.limit (startCommand s)) (c.enter (startCommand s))).phase = .finish :=
      c.runPhase_finishes (c.looping_enter rfl) (by rw [c.limit_same _ _ (c.enter_same _)]; omega)
    rw [run_succ m h.step_eq, hcheck]
    exact c.run_loop htick (h.of_sameButWork (c.enter_same _)) hfinish hend (by omega)
  · rw [h.run_last (hcheck ▸ hend) (by omega), hcheck]

end

/-! ## The three sequenced commands -/

/-- No direction has more offsets than the image has pixels (R154). -/
theorem cap_le_mul (d : Direction) (s : State) : s.cap d ≤ s.imgW * s.imgH := by
  cases d with
  | horizontal => exact le_rfl
  | vertical => exact le_rfl
  | diagonal =>
    show min s.imgW s.imgH ≤ s.imgW * s.imgH
    rcases Nat.eq_zero_or_pos s.imgH with h0 | hpos
    · simp [h0]
    · exact (min_le_left _ _).trans (Nat.le_mul_of_pos_right _ hpos)

/-- `EMBED` in its phases: its bit steps end after `BITLEN` of them (R173). -/
def embedSequenced (d : Direction) : Sequenced where
  check := embedCheck d
  enter := embedEnter
  bitStep := embedBitStep d
  finish := embedFinish
  limit := State.bitlen
  limit_le s hpass := (embedCheck_none.1 hpass).2.trans (cap_le_mul d s)
  limit_same _ _ h := h.bitlen
  enter_same := sameButWork_embedEnter
  enter_offs _ := rfl
  enter_phase _ := rfl
  bitStep_same := sameButWork_embedBitStep d
  bitStep_offs _ := rfl
  bitStep_phase _ := .inr rfl

/-- `EXTRACTN` in its phases: its bit steps end after `NWIN` of them (R202). -/
def extractnSequenced (d : Direction) : Sequenced where
  check := extractnCheck d
  enter := extractnEnter
  bitStep := extractnBitStep d
  finish := extractnFinish
  limit := State.nwin
  limit_le s hpass := (extractnCheck_none.1 hpass).2.trans (cap_le_mul d s)
  limit_same _ _ h := h.nwin
  enter_same := sameButWork_extractnEnter
  enter_offs _ := rfl
  enter_phase _ := rfl
  bitStep_same := sameButWork_extractnBitStep d
  bitStep_offs _ := rfl
  bitStep_phase _ := .inr rfl

/-- `EXTRACT` in its phases: its bit steps end at the capacity, if the trigger does not end them earlier (R193). -/
def extractSequenced (d : Direction) : Sequenced where
  check := extractCheck d
  enter := extractEnter d
  bitStep := extractBitStep d
  finish := extractFinish d
  limit s := s.cap d
  limit_le s _ := cap_le_mul d s
  limit_same _ _ h := h.cap d
  enter_same := sameButWork_extractEnter d
  enter_offs _ := rfl
  enter_phase _ := rfl
  bitStep_same := sameButWork_extractBitStep d
  bitStep_offs _ := rfl
  bitStep_phase s := by
    rw [extractBitStep_phase]
    split_ifs <;> simp

/-! ## Every command -/

/-- Every command is one phase step or a sequenced one (R41, log entry 12). -/
theorem tickInstr_cases (i : Instr) :
    tickInstr i = oneTransition (commandBody i) ∨
      ∃ c : Sequenced, tickInstr i = c.tick ∧ commandBody i = c.body := by
  cases i with
  | embedH => exact .inr ⟨embedSequenced .horizontal, rfl, rfl⟩
  | embedV => exact .inr ⟨embedSequenced .vertical, rfl, rfl⟩
  | embedD => exact .inr ⟨embedSequenced .diagonal, rfl, rfl⟩
  | extractH => exact .inr ⟨extractSequenced .horizontal, rfl, rfl⟩
  | extractV => exact .inr ⟨extractSequenced .vertical, rfl, rfl⟩
  | extractD => exact .inr ⟨extractSequenced .diagonal, rfl, rfl⟩
  | extractnH => exact .inr ⟨extractnSequenced .horizontal, rfl, rfl⟩
  | extractnV => exact .inr ⟨extractnSequenced .vertical, rfl, rfl⟩
  | extractnD => exact .inr ⟨extractnSequenced .diagonal, rfl, rfl⟩
  | _ => exact .inl rfl

/-- From the start of any command the phase steps reach the end of its body (R240). -/
theorem run_startCommand (h : InCommand i (startCommand s)) (hn : s.imgW * s.imgH + 2 ≤ n) :
    core.run n (startCommand s) = .next (commandBody i (startCommand s)) := by
  have hend : Waiting (commandBody i (startCommand s)) := waiting_commandBody (s := s) h.script i
  rcases tickInstr_cases i with htick | ⟨c, htick, hbody⟩
  · have hone : tickInstr i (startCommand s) = commandBody i (startCommand s) := htick ▸ rfl
    rw [h.run_last (hone ▸ hend) (by omega), hone]
  · rw [hbody] at hend ⊢
    exact c.run_start htick h hend hn

/-- Settles O8: the atomic command is its body, run from the start, and the phase steps reach the body's end. -/
theorem phaseStepsReachCommandEnd : Obligations.PhaseStepsReachCommandEnd := by
  intro s w i n hdecode hn
  rw [exec_eq_commandBody]
  exact run_startCommand ⟨startCommand_busy _, rfl, hdecode⟩ hn

end Sys2Proof.Safety
end

section
/-! SUPPORT. The reset of the block and the host's duties while a command runs (70_reset R260 to R264, R270): what the
reset input and power-on leave, what each command makes of it, and that a busy block answers no host statement. -/

namespace Sys2Proof.Safety

open Sys2Proof.Machine

variable {s t : State} {i : Instr} {body : State → State}

/-! ## A busy block -/

/-- A step while `BUSY = 1` is the sequencer's (R39, R270). -/
theorem step_busy (hbusy : s.busy = true) : step s = busyStep s := if_pos hbusy

/-- Settles O6: the sequencer's step has no answer to a pending statement but the fault that names it. -/
theorem hostIsStuckWhileBusy : Obligations.HostIsStuckWhileBusy := by
  intro s op rest hbusy hscript
  rw [step_busy hbusy]
  cases op with
  | reset => simp [busyStep, hscript]
  | _ => simp [busyStep, hscript]

/-! ## What a reset leaves -/

/-- A step from an idle state whose first host statement is the reset input resets the block (R260, R261). -/
theorem step_reset {rest : List HostOp} (hidle : s.busy = false) (hscript : s.script = .reset :: rest) :
    step s = .next (hostReset { s with script := rest }) := by
  rw [step_idle hidle hscript]; rfl

theorem hostReadReg_reset (idx : BitVec 4) : hostReadReg idx State.reset = 0 := by
  unfold hostReadReg
  split <;> rfl

/-- The reset input leaves in every register what power-on leaves there (R260). -/
theorem hostReadReg_hostReset (idx : BitVec 4) (s : State) :
    hostReadReg idx (hostReset s) = hostReadReg idx State.reset := rfl

theorem workingCleared_reset : WorkingCleared State.reset := ⟨rfl, rfl, rfl, rfl, rfl, rfl, rfl⟩

theorem workingCleared_hostReset (s : State) : WorkingCleared (hostReset s) := workingCleared_reset

/-- Settles O11: the two resets agree on the registers and the working registers, and at power-on these are zero. -/
theorem resetRegistersZero : Obligations.ResetRegistersZero := by
  rintro t (rfl | ⟨s, rest, hidle, hscript, hstep⟩)
  · exact ⟨hostReadReg_reset, workingCleared_reset, rfl⟩
  · obtain rfl := Host.Outcome.next.inj ((step_reset hidle hscript).symm.trans hstep)
    exact ⟨fun idx => (hostReadReg_hostReset idx _).trans (hostReadReg_reset idx),
      workingCleared_hostReset _, rfl⟩

/-- Settles O12: the reset input empties the two stores of buffer elements and copies the image. -/
theorem resetLeavesImageAlone : Obligations.ResetLeavesImageAlone := fun _ _ hidle hscript =>
  ⟨_, step_reset hidle hscript, rfl, rfl, rfl, rfl, fun _ => ⟨rfl, rfl⟩⟩

/-- Settles O14: nothing is reported, the stores are empty, and every other number is zero. -/
theorem resetSatisfiesInv : Obligations.ResetSatisfiesInv := by
  constructor
  case status | errFlag | dimBits | curC => decide
  case phase => rfl
  case errcode | runLen => exact Nat.zero_le _
  case errinfoZero => exact fun _ => rfl
  case bitCells | byteCells | imgCells => exact .nil
  case imgKeys => exact List.forall_mem_nil _
  all_goals exact Nat.two_pow_pos _

/-! ## The commands from reset -/

/-- Nothing has been produced: both sequences are empty, `RES0` is zero and the image is the one of power-on. -/
def ProducedNothing (t : State) : Prop :=
  t.bitlen = 0 ∧ t.bytelen = 0 ∧ t.res0 = 0 ∧ t.img = State.reset.img

/-- From reset the command `i` ends with this `STATUS` and this `ERRCODE` and produces nothing (R264). -/
def EndsFromReset (i : Instr) (status errcode : BitVec 8) : Prop :=
  ∃ t, exec i State.reset = .next t ∧ t.status = status ∧ t.errcode = errcode ∧ t.errinfo = 0 ∧
    ProducedNothing t

/-- A command that refuses an operand. -/
theorem endsFromReset_refused (hbody : commandBody i = body)
    (hend : body (startCommand State.reset) = raise .illegalOperand 0 (startCommand State.reset)) :
    EndsFromReset i 0x04 5 := by
  subst hbody
  exact ⟨_, exec_eq_next_iff.2 hend, rfl, rfl, rfl, rfl, rfl, rfl, rfl⟩

/-- A command that ends complete on a state in which nothing is reported and nothing produced. -/
theorem endsFromReset_complete {empty : Bool} {status : BitVec 8} (hbody : commandBody i = body)
    (hend : body (startCommand State.reset) = complete empty false t)
    (hstatus : statusWord false true false empty false = status) (hclean : NoErrorYet t)
    (hnone : ProducedNothing t) : EndsFromReset i status 0 := by
  subst hbody
  obtain ⟨hcode, hinfo⟩ := hclean
  exact ⟨_, exec_eq_next_iff.2 hend, hstatus, hcode, hinfo, hnone⟩

/-- There are no bytes to expand. -/
theorem endsFromReset_bytesToBits (hbody : commandBody i = bytesToBitsBody) : EndsFromReset i 0x02 0 :=
  endsFromReset_complete hbody rfl rfl ⟨rfl, rfl⟩ ⟨rfl, rfl, rfl, rfl⟩

/-- `ceil8(0)` is zero, so nothing is padded to a byte. -/
theorem endsFromReset_bits2bytes : EndsFromReset .bits2bytes 0x02 0 :=
  endsFromReset_complete rfl rfl rfl ⟨rfl, rfl⟩ ⟨rfl, rfl, rfl, rfl⟩

theorem endsFromReset_bits2text : EndsFromReset .bits2text 0x02 0 :=
  endsFromReset_complete rfl rfl rfl ⟨rfl, rfl⟩ ⟨rfl, rfl, rfl, rfl⟩

/-- The operands are a zero byte and a zero bit, so the byte and its LSB are zero. -/
theorem endsFromReset_setlsb : EndsFromReset (.setlsb 0) 0x02 0 :=
  endsFromReset_complete rfl rfl rfl ⟨rfl, rfl⟩ ⟨rfl, rfl, rfl, rfl⟩

theorem endsFromReset_getlsb : EndsFromReset (.getlsb 0) 0x02 0 :=
  endsFromReset_complete rfl rfl rfl ⟨rfl, rfl⟩ ⟨rfl, rfl, rfl, rfl⟩

theorem cap_reset (d : Direction) : State.reset.cap d = 0 := by cases d <;> rfl

/-- No offset is below a capacity of zero. -/
theorem endsFromReset_addr (d : Direction) (hbody : commandBody i = addrBody d) : EndsFromReset i 0x04 5 :=
  endsFromReset_refused hbody (by simp [addrBody, addrCheck, checked, cap_reset])

theorem endsFromReset_cap (d : Direction) (hbody : commandBody i = capBody d) : EndsFromReset i 0x02 0 :=
  endsFromReset_complete hbody rfl rfl ⟨rfl, rfl⟩ ⟨rfl, rfl, cap_reset d, rfl⟩

/-- The empty bit sequence fits a capacity of zero, and no bit step is made. -/
theorem embedBody_reset (d : Direction) :
    embedBody d (startCommand State.reset) = complete false false (embedBegin State.reset) := by
  cases d <;> rfl

theorem endsFromReset_embed (d : Direction) (hbody : commandBody i = embedBody d) : EndsFromReset i 0x02 0 :=
  endsFromReset_complete hbody (embedBody_reset d) rfl ⟨rfl, rfl⟩ ⟨rfl, rfl, rfl, rfl⟩

/-- `KREG` is zero, which is refused where the heuristic is applied (R191). -/
theorem endsFromReset_scan {d : Direction} (hd : heuristic d = true) (hbody : commandBody i = extractBody d) :
    EndsFromReset i 0x04 5 :=
  endsFromReset_refused hbody (by simp [extractBody, extractCheck, checked, hd, State.reset])

/-- Where it is not, an image of no pixels is square and read to its end at once (R200). -/
theorem endsFromReset_extractD : EndsFromReset .extractD 0x0A 0 :=
  endsFromReset_complete rfl rfl rfl ⟨rfl, rfl⟩ ⟨rfl, rfl, rfl, rfl⟩

/-- A window of no bits fits a capacity of zero, and no bit step is made (R203). -/
theorem extractnBody_reset (d : Direction) :
    extractnBody d (startCommand State.reset) = extractnFinish (extractnBegin State.reset) := by
  cases d <;> rfl

theorem endsFromReset_extractn (d : Direction) (hbody : commandBody i = extractnBody d) :
    EndsFromReset i 0x0A 0 :=
  endsFromReset_complete hbody (extractnBody_reset d) rfl ⟨rfl, rfl⟩ ⟨rfl, rfl, rfl, rfl⟩

/-- Settles O13: the rows in their order, each by what its command finds in the reset state. -/
theorem commandsFromReset : Obligations.CommandsFromReset := by
  unfold Obligations.CommandsFromReset
  simp only [List.forall_mem_cons]
  exact ⟨endsFromReset_bytesToBits rfl, endsFromReset_bytesToBits rfl, endsFromReset_bits2bytes,
    endsFromReset_bits2text, endsFromReset_setlsb, endsFromReset_getlsb,
    endsFromReset_addr .horizontal rfl, endsFromReset_addr .vertical rfl, endsFromReset_addr .diagonal rfl,
    endsFromReset_cap .horizontal rfl, endsFromReset_cap .vertical rfl, endsFromReset_cap .diagonal rfl,
    endsFromReset_embed .horizontal rfl, endsFromReset_embed .vertical rfl, endsFromReset_embed .diagonal rfl,
    endsFromReset_scan rfl rfl, endsFromReset_scan rfl rfl, endsFromReset_extractD,
    endsFromReset_extractn .horizontal rfl, endsFromReset_extractn .vertical rfl,
    endsFromReset_extractn .diagonal rfl, List.forall_mem_nil _⟩

end Sys2Proof.Safety
end
